-- ==== Sys2Proof/Word.lean ====
section
/-! DEFINITION. The two widths of 00_scope.md R10 and the two conversions between them. -/

namespace Sys2Proof

/-- A packet byte (R10: 8 bits). -/
abbrev Byte := BitVec 8

/-- A register word (R10: 32 bits, bit 0 the least significant, R9). -/
abbrev Word := BitVec 32

/-- `zext_32(v)` of R10. -/
def zext32 (v : Byte) : Word := v.setWidth 32

/-- `trunc_8(v)` of R10. -/
def trunc8 (v : Word) : Byte := v.setWidth 8

end Sys2Proof
end

