-- ==== Sys2Proof/Config.lean ====
section
/-! DEFINITION. What an implementation fixes: the open parameters of 00_scope.md R8 as plain data, the register
families they name (10_state.md R28), and the free values the spec leaves to the environment. -/

namespace Sys2Proof

/-- The 11 two-bank single-bit families (10_state.md R28(a), R15). -/
inductive BankFamily where
  | set | clr | lev | pudclk | eds | ren | fen | aren | afen | hen | len
  deriving DecidableEq, Repr

/-- The 12 per-pin families that `locate` accepts (40_mapper.md R100): PUD is not one of them. -/
inductive PinFamily where
  | bank (f : BankFamily)
  | fsel
  deriving DecidableEq, Repr

/-- Bank 0 holds pins 0..31, bank 1 pins 32..53 (R7, R14). -/
inductive Bank where
  | bank0 | bank1
  deriving DecidableEq, Repr

/-- The two word indices of one two-bank family (20_memory.md R53). -/
structure BankPair where
  bank0 : Nat
  bank1 : Nat
  deriving DecidableEq, Repr

/-- `WORD_INDEX` (R8, R53): the word index of each of the 29 family words. -/
structure WordMap where
  set : BankPair
  clr : BankPair
  lev : BankPair
  pudclk : BankPair
  eds : BankPair
  ren : BankPair
  fen : BankPair
  aren : BankPair
  afen : BankPair
  hen : BankPair
  len : BankPair
  fsel0 : Nat
  fsel1 : Nat
  fsel2 : Nat
  fsel3 : Nat
  fsel4 : Nat
  fsel5 : Nat
  pud : Nat
  deriving DecidableEq, Repr

/-- `CMD_CODE` (R8, R83): the code of each of the 19 commands. -/
structure CodeMap where
  resetPin : Byte
  setLevel : Byte
  getLevel : Byte
  setMode : Byte
  getMode : Byte
  setPull : Byte
  getEvent : Byte
  setRedge : Byte
  getRedge : Byte
  setFedge : Byte
  getFedge : Byte
  setAredge : Byte
  getAredge : Byte
  setAfedge : Byte
  getAfedge : Byte
  setHdetect : Byte
  getHdetect : Byte
  setLdetect : Byte
  getLdetect : Byte
  deriving DecidableEq, Repr

/-- `PERIPH` (R8): the general model of 20_memory.md R56 or the loopback mock of R58. -/
inductive Periph where
  | general
  | loopback
  deriving DecidableEq, Repr

/-- `WAIT_POLICY` (R8, 43_framer.md R192). No rule depends on it. -/
inductive WaitPolicy where
  | spin
  | blocking
  deriving DecidableEq, Repr

/-- The open parameters of R8 but for `NCLIENTS`, which is the number of clients the state holds.
They never change during a run (10_state.md R36). -/
structure Params where
  words : WordMap
  nwords : Nat
  codes : CodeMap
  waitPolicy : WaitPolicy
  periph : Periph
  deriving DecidableEq, Repr

/-- FREE VALUE (20_memory.md R56(b), (c); log 8). The word that the n-th draw of a volatile or command word gives. -/
opaque Config.freeWord : Nat → Word

/-- FREE VALUE (43_framer.md R190, U14; log 9). Whether the n-th attempt to open the transport succeeds. -/
opaque Config.freeOpen : Nat → Bool

/-- The last valid pin, `PIN_MAX` (R7). -/
def Config.pinMax : Nat := 53

/-- The highest PinMode code, `NMODES` - 1 (R7, R32). -/
def Config.modeMax : Nat := 7

/-- The highest PullMode code, `NPULL` - 1 (R7, R33). -/
def Config.pullMax : Nat := 2

/-- `SENTINEL` (R7, 10_state.md R26). -/
def Config.sentinel : Byte := 0xFF

/-- `PACKET_BYTES` (R7). -/
def Config.packetBytes : Nat := 3

/-- `NCMDS` (R7): the command codes are 0..18. -/
def Config.ncmds : Nat := 19

end Sys2Proof
end

