-- ==== Sys2Proof/Syntax.lean ====
section
/-! DEFINITION. The 19 commands, one constructor per row of spec/opcode_table.json. Both operand bytes of the packet
are kept in every constructor (30_encoding.md R81): a getter and RESET_PIN do not use V as an input, but no bit of the
request is dropped by decoding it. -/

namespace Sys2Proof

/-- A decoded request: the command that byte 0 names, with P (byte 1) and V (byte 2), each 0..255 (R81; 90_conflicts.md C4). -/
inductive Instr where
  | resetPin (pin value : Byte)
  | setLevel (pin value : Byte)
  | getLevel (pin value : Byte)
  | setMode (pin value : Byte)
  | getMode (pin value : Byte)
  | setPull (pin value : Byte)
  | getEvent (pin value : Byte)
  | setRedge (pin value : Byte)
  | getRedge (pin value : Byte)
  | setFedge (pin value : Byte)
  | getFedge (pin value : Byte)
  | setAredge (pin value : Byte)
  | getAredge (pin value : Byte)
  | setAfedge (pin value : Byte)
  | getAfedge (pin value : Byte)
  | setHdetect (pin value : Byte)
  | getHdetect (pin value : Byte)
  | setLdetect (pin value : Byte)
  | getLdetect (pin value : Byte)
  deriving DecidableEq, Repr

/-- Byte 1 of the request, P. -/
def Instr.pin : Instr → Byte
  | .resetPin p _ => p
  | .setLevel p _ => p
  | .getLevel p _ => p
  | .setMode p _ => p
  | .getMode p _ => p
  | .setPull p _ => p
  | .getEvent p _ => p
  | .setRedge p _ => p
  | .getRedge p _ => p
  | .setFedge p _ => p
  | .getFedge p _ => p
  | .setAredge p _ => p
  | .getAredge p _ => p
  | .setAfedge p _ => p
  | .getAfedge p _ => p
  | .setHdetect p _ => p
  | .getHdetect p _ => p
  | .setLdetect p _ => p
  | .getLdetect p _ => p

/-- Byte 2 of the request, V. -/
def Instr.value : Instr → Byte
  | .resetPin _ v => v
  | .setLevel _ v => v
  | .getLevel _ v => v
  | .setMode _ v => v
  | .getMode _ v => v
  | .setPull _ v => v
  | .getEvent _ v => v
  | .setRedge _ v => v
  | .getRedge _ v => v
  | .setFedge _ v => v
  | .getFedge _ v => v
  | .setAredge _ v => v
  | .getAredge _ v => v
  | .setAfedge _ v => v
  | .getAfedge _ v => v
  | .setHdetect _ v => v
  | .getHdetect _ v => v
  | .setLdetect _ v => v
  | .getLdetect _ v => v

/-- The getters are the commands that return a value in byte 2 (R14; 42_commands.md R151 lists their codes). -/
def Instr.isGetter : Instr → Bool
  | .resetPin _ _ => false
  | .setLevel _ _ => false
  | .getLevel _ _ => true
  | .setMode _ _ => false
  | .getMode _ _ => true
  | .setPull _ _ => false
  | .getEvent _ _ => true
  | .setRedge _ _ => false
  | .getRedge _ _ => true
  | .setFedge _ _ => false
  | .getFedge _ _ => true
  | .setAredge _ _ => false
  | .getAredge _ _ => true
  | .setAfedge _ _ => false
  | .getAfedge _ _ => true
  | .setHdetect _ _ => false
  | .getHdetect _ _ => true
  | .setLdetect _ _ => false
  | .getLdetect _ _ => true

end Sys2Proof
end

