-- ==== Sys2Proof/WellFormed.lean ====
section
/-! DEFINITION. The checks the spec makes on what it is given: valid operands (30_encoding.md R82), a packet's length
(R63), and the conditions on the parameters (20_memory.md R53, 30_encoding.md R83). An ill-formed operand is not an
illegal encoding (R87): the request still decodes and runs, without a register access. -/

namespace Sys2Proof

/-- `pin <= 53` (R82). -/
def pinValid (pin : Byte) : Bool := decide (pin.toNat ≤ Config.pinMax)

/-- `mode <= 7` (R82). -/
def modeValid (mode : Byte) : Bool := decide (mode.toNat ≤ Config.modeMax)

/-- `pull <= 2` (R82). -/
def pullValid (pull : Byte) : Bool := decide (pull.toNat ≤ Config.pullMax)

/-- Every operand the command uses is valid (R82): the pin for all, the mode for set-mode, the pull for set-pull. It is
also the range check of the ClientProxy (43_framer.md R193). -/
def Instr.wellFormed : Instr → Bool
  | .resetPin p _ => pinValid p
  | .setLevel p _ => pinValid p
  | .getLevel p _ => pinValid p
  | .setMode p v => pinValid p && modeValid v
  | .getMode p _ => pinValid p
  | .setPull p v => pinValid p && pullValid v
  | .getEvent p _ => pinValid p
  | .setRedge p _ => pinValid p
  | .getRedge p _ => pinValid p
  | .setFedge p _ => pinValid p
  | .getFedge p _ => pinValid p
  | .setAredge p _ => pinValid p
  | .getAredge p _ => pinValid p
  | .setAfedge p _ => pinValid p
  | .getAfedge p _ => pinValid p
  | .setHdetect p _ => pinValid p
  | .getHdetect p _ => pinValid p
  | .setLdetect p _ => pinValid p
  | .getLdetect p _ => pinValid p

/-- Every transport operation moves exactly 3 bytes (20_memory.md R63). -/
def packetLengthValid (n : Nat) : Bool := decide (n = Config.packetBytes)

/-- No value stands twice in a list. -/
def distinct {α : Type} [BEq α] : List α → Bool
  | [] => true
  | a :: rest => !rest.elem a && distinct rest

/-- The two words of a pair, bank 0 first. -/
def BankPair.toList (b : BankPair) : List Nat := [b.bank0, b.bank1]

/-- The 29 family words (10_state.md R28: 11 x 2 + 6 + 1). -/
def WordMap.all (m : WordMap) : List Nat :=
  m.set.toList ++ m.clr.toList ++ m.lev.toList ++ m.pudclk.toList ++ m.eds.toList ++ m.ren.toList ++ m.fen.toList ++
    m.aren.toList ++ m.afen.toList ++ m.hen.toList ++ m.len.toList ++
    [m.fsel0, m.fsel1, m.fsel2, m.fsel3, m.fsel4, m.fsel5, m.pud]

/-- R53: "The 29 values must be pairwise distinct and below NWORDS". -/
def WordMap.wellFormed (m : WordMap) (nwords : Nat) : Bool :=
  distinct m.all && m.all.all fun i => Nat.blt i nwords

/-- The 19 codes, in the order of the table. -/
def CodeMap.all (m : CodeMap) : List Byte :=
  [m.resetPin, m.setLevel, m.getLevel, m.setMode, m.getMode, m.setPull, m.getEvent, m.setRedge, m.getRedge, m.setFedge,
    m.getFedge, m.setAredge, m.getAredge, m.setAfedge, m.getAfedge, m.setHdetect, m.getHdetect, m.setLdetect,
    m.getLdetect]

/-- R8, R84: `CMD_CODE` maps the 19 commands one-to-one to 0..18. -/
def CodeMap.wellFormed (m : CodeMap) : Bool :=
  distinct m.all && m.all.all fun c => Nat.blt c.toNat Config.ncmds

/-- The conditions R8, R53 and R84 put on the parameters that `Params` holds: all but `NCLIENTS >= 1`. -/
def Params.wellFormed (p : Params) : Bool := p.words.wellFormed p.nwords && p.codes.wellFormed

/-- All the conditions on the parameters, `NCLIENTS >= 1` of R8 with them. -/
def Params.conditionsHold (p : Params) (nclients : Nat) : Bool := p.wellFormed && Nat.blt 0 nclients

end Sys2Proof
end

