-- ==== Sys2Proof/Decode.lean ====
section
/-! DEFINITION. 30_encoding.md: the packet as a request (R80, R81, R85), and the encoder, both over the parameter
`CMD_CODE`; the default code map of R83; the opcode table's packed form (R89). -/

namespace Sys2Proof

/-- The default `CMD_CODE` (R83). Codes 1, 2 and 3 are confirmed by the source; the others are decision D2 (log 3). -/
def defaultCodes : CodeMap where
  resetPin := 0
  setLevel := 1
  getLevel := 2
  setMode := 3
  getMode := 4
  setPull := 5
  getEvent := 6
  setRedge := 7
  getRedge := 8
  setFedge := 9
  getFedge := 10
  setAredge := 11
  getAredge := 12
  setAfedge := 13
  getAfedge := 14
  setHdetect := 15
  getHdetect := 16
  setLdetect := 17
  getLdetect := 18

/-- What a 3-byte packet asks for (R85). -/
inductive Request where
  /-- One of the 19 commands. -/
  | instr (i : Instr)
  /-- `UNRECOGNIZED` (R86): accepted, answered, and without effect. -/
  | unrecognized (code pin value : Byte)
  deriving DecidableEq, Repr

/-- What any string of bytes is to the decoder. -/
inductive Decoded where
  | request (r : Request)
  /-- Not a packet: its length is not 3 (R63, R88), so it is no operation of the model. -/
  | notAPacket (length : Nat)
  deriving DecidableEq, Repr

/-- A row of the code map (R83): a command's code, and the command with its operands still to come. -/
structure CodeRow where
  code : Byte
  command : Byte → Byte → Instr

/-- The rows of R83 under a code map. -/
def codeRows (m : CodeMap) : List CodeRow :=
  [⟨m.resetPin, .resetPin⟩, ⟨m.setLevel, .setLevel⟩, ⟨m.getLevel, .getLevel⟩,
    ⟨m.setMode, .setMode⟩, ⟨m.getMode, .getMode⟩, ⟨m.setPull, .setPull⟩,
    ⟨m.getEvent, .getEvent⟩, ⟨m.setRedge, .setRedge⟩, ⟨m.getRedge, .getRedge⟩,
    ⟨m.setFedge, .setFedge⟩, ⟨m.getFedge, .getFedge⟩, ⟨m.setAredge, .setAredge⟩,
    ⟨m.getAredge, .getAredge⟩, ⟨m.setAfedge, .setAfedge⟩, ⟨m.getAfedge, .getAfedge⟩,
    ⟨m.setHdetect, .setHdetect⟩, ⟨m.getHdetect, .getHdetect⟩, ⟨m.setLdetect, .setLdetect⟩,
    ⟨m.getLdetect, .getLdetect⟩]

/-- The first row with a code. -/
def findRow (c : Byte) : List CodeRow → Option CodeRow
  | [] => none
  | r :: rest => if c = r.code then some r else findRow c rest

/-- R85: the code alone selects the command; P and V are its operands (R81). -/
def decodeRequest (m : CodeMap) (c p v : Byte) : Request :=
  match findRow c (codeRows m) with
  | some r => .instr (r.command p v)
  | none => .unrecognized c p v

/-- Total on every string of bytes: a packet is exactly three of them, in transfer order (R59, R80, R88). -/
def decode (m : CodeMap) : List Byte → Decoded
  | [c, p, v] => .request (decodeRequest m c p v)
  | bytes => .notAPacket bytes.length

/-- `CMD_CODE(op)` (R83). -/
def CodeMap.code (m : CodeMap) : Instr → Byte
  | .resetPin _ _ => m.resetPin
  | .setLevel _ _ => m.setLevel
  | .getLevel _ _ => m.getLevel
  | .setMode _ _ => m.setMode
  | .getMode _ _ => m.getMode
  | .setPull _ _ => m.setPull
  | .getEvent _ _ => m.getEvent
  | .setRedge _ _ => m.setRedge
  | .getRedge _ _ => m.getRedge
  | .setFedge _ _ => m.setFedge
  | .getFedge _ _ => m.getFedge
  | .setAredge _ _ => m.setAredge
  | .getAredge _ _ => m.getAredge
  | .setAfedge _ _ => m.setAfedge
  | .getAfedge _ _ => m.getAfedge
  | .setHdetect _ _ => m.setHdetect
  | .getHdetect _ _ => m.getHdetect
  | .setLdetect _ _ => m.setLdetect
  | .getLdetect _ _ => m.getLdetect

/-- The packet of a request: `[CMD_CODE(op), P, V]` (R80, R90). -/
def encode (m : CodeMap) (i : Instr) : List Byte := [m.code i, i.pin, i.value]

/-- The packed value of R89, `Pk = b0 | (b1 << 8) | (b2 << 16)`, as its three bytes. -/
def unpack (pk : Nat) : List Byte :=
  [BitVec.ofNat 8 pk, BitVec.ofNat 8 (pk / 256), BitVec.ofNat 8 (pk / 65536)]

/-- What the decoder reads, under the default `CMD_CODE`, from a packet whose bits are `w` in the numbering of
spec/opcode_table.json (R89); bits of the packet above `nbits` are 0, and a number that does not fit a packet is none. -/
def decodeTableWord (nbits w : Nat) : Option Instr :=
  let pk := w % 2 ^ nbits
  if pk < 2 ^ 24 then
    match decode defaultCodes (unpack pk) with
    | .request (.instr i) => some i
    | .request (.unrecognized _ _ _) => none
    | .notAPacket _ => none
  else none

end Sys2Proof
end

