-- ==== Sys2Proof/Machine/Defaults.lean ====
section
/-! DEFINITION. The default values offered for the open parameters (00_scope.md R8): the word map of 20_memory.md R54,
which is general knowledge and not the source's (93 G2; log 4), NWORDS = 40, the code map of R83, the general
peripheral model, and a wait policy no rule depends on (log 7). -/

namespace Sys2Proof.Machine

/-- The default `WORD_INDEX` of R54. -/
def defaultWords : WordMap where
  fsel0 := 0
  fsel1 := 1
  fsel2 := 2
  fsel3 := 3
  fsel4 := 4
  fsel5 := 5
  set := ⟨7, 8⟩
  clr := ⟨10, 11⟩
  lev := ⟨13, 14⟩
  eds := ⟨16, 17⟩
  ren := ⟨19, 20⟩
  fen := ⟨22, 23⟩
  hen := ⟨25, 26⟩
  len := ⟨28, 29⟩
  aren := ⟨31, 32⟩
  afen := ⟨34, 35⟩
  pud := 37
  pudclk := ⟨38, 39⟩

/-- The parameters State.reset takes. -/
def defaultParams : Params where
  words := defaultWords
  nwords := 40
  codes := defaultCodes
  waitPolicy := .spin
  periph := .general

end Sys2Proof.Machine
end

