-- ==== Sys2Proof/Machine/PublicOp.lean ====
section
/-! DEFINITION. The 19 public operations of the ClientProxy as data (43_framer.md R196-R214): the range check of each
(R193), the request it sends (R194), and how it reads the response (R195). -/

namespace Sys2Proof.Machine

/-- A call of a public operation, with its arguments. DESIGN CHOICE (log 35): a pin, mode or pull is a byte, as in the
packet (30_encoding.md R81), because R193 and R196-R214 give no width; a larger argument, which the range check would
turn away, has no form. -/
inductive PublicOp where
  | resetPin (pin : Byte)
  | setLevel (pin : Byte) (level : Bool)
  | getLevel (pin : Byte)
  | setMode (pin mode : Byte)
  | getMode (pin : Byte)
  | setPull (pin pull : Byte)
  | eventDetected (pin : Byte)
  | setRedgeEnable (pin : Byte) (en : Bool)
  | getRedgeEnable (pin : Byte)
  | setFedgeEnable (pin : Byte) (en : Bool)
  | getFedgeEnable (pin : Byte)
  | setAsyncRedgeEnable (pin : Byte) (en : Bool)
  | getAsyncRedgeEnable (pin : Byte)
  | setAsyncFedgeEnable (pin : Byte) (en : Bool)
  | getAsyncFedgeEnable (pin : Byte)
  | setHighDetectEnable (pin : Byte) (en : Bool)
  | getHighDetectEnable (pin : Byte)
  | setLowDetectEnable (pin : Byte) (en : Bool)
  | getLowDetectEnable (pin : Byte)
  deriving DecidableEq, Repr

/-- What a call of the ClientProxy returns to its caller. -/
inductive OpResult where
  /-- A void operation returned. -/
  | void
  /-- A boolean getter returned. -/
  | bool (b : Bool)
  /-- `get_mode` returned the raw mode code. -/
  | code (mode : Byte)
  /-- `init` succeeded (R190). -/
  | opened
  /-- `init` found the transport unavailable (R190, R231). -/
  | transportUnavailable
  deriving DecidableEq, Repr

/-- 1 for true and 0 for false, in a packet byte (00_scope.md R13). -/
def boolByte (b : Bool) : Byte := if b then 1 else 0

/-- The range check a public operation makes before anything else (R193). -/
def PublicOp.inRange : PublicOp → Bool
  | .resetPin p => pinValid p
  | .setLevel p _ => pinValid p
  | .getLevel p => pinValid p
  | .setMode p m => pinValid p && modeValid m
  | .getMode p => pinValid p
  | .setPull p u => pinValid p && pullValid u
  | .eventDetected p => pinValid p
  | .setRedgeEnable p _ => pinValid p
  | .getRedgeEnable p => pinValid p
  | .setFedgeEnable p _ => pinValid p
  | .getFedgeEnable p => pinValid p
  | .setAsyncRedgeEnable p _ => pinValid p
  | .getAsyncRedgeEnable p => pinValid p
  | .setAsyncFedgeEnable p _ => pinValid p
  | .getAsyncFedgeEnable p => pinValid p
  | .setHighDetectEnable p _ => pinValid p
  | .getHighDetectEnable p => pinValid p
  | .setLowDetectEnable p _ => pinValid p
  | .getLowDetectEnable p => pinValid p

/-- The request a public operation sends (R194, R196-R214): byte 2 is 1 or 0 for a boolean, the code for a mode or a
pull, and 0 for `reset_pin` and every getter. -/
def PublicOp.request : PublicOp → Instr
  | .resetPin p => .resetPin p 0
  | .setLevel p b => .setLevel p (boolByte b)
  | .getLevel p => .getLevel p 0
  | .setMode p m => .setMode p m
  | .getMode p => .getMode p 0
  | .setPull p u => .setPull p u
  | .eventDetected p => .getEvent p 0
  | .setRedgeEnable p b => .setRedge p (boolByte b)
  | .getRedgeEnable p => .getRedge p 0
  | .setFedgeEnable p b => .setFedge p (boolByte b)
  | .getFedgeEnable p => .getFedge p 0
  | .setAsyncRedgeEnable p b => .setAredge p (boolByte b)
  | .getAsyncRedgeEnable p => .getAredge p 0
  | .setAsyncFedgeEnable p b => .setAfedge p (boolByte b)
  | .getAsyncFedgeEnable p => .getAfedge p 0
  | .setHighDetectEnable p b => .setHdetect p (boolByte b)
  | .getHighDetectEnable p => .getHdetect p 0
  | .setLowDetectEnable p b => .setLdetect p (boolByte b)
  | .getLowDetectEnable p => .getLdetect p 0

/-- What the caller gets from byte 2 of the response (R195): a boolean getter tests it against 0, `get_mode` returns it,
a void operation discards it. -/
def PublicOp.decodeResponse (op : PublicOp) (b2 : Byte) : OpResult :=
  match op with
  | .resetPin _ => .void
  | .setLevel _ _ => .void
  | .getLevel _ => .bool (b2 != 0)
  | .setMode _ _ => .void
  | .getMode _ => .code b2
  | .setPull _ _ => .void
  | .eventDetected _ => .bool (b2 != 0)
  | .setRedgeEnable _ _ => .void
  | .getRedgeEnable _ => .bool (b2 != 0)
  | .setFedgeEnable _ _ => .void
  | .getFedgeEnable _ => .bool (b2 != 0)
  | .setAsyncRedgeEnable _ _ => .void
  | .getAsyncRedgeEnable _ => .bool (b2 != 0)
  | .setAsyncFedgeEnable _ _ => .void
  | .getAsyncFedgeEnable _ => .bool (b2 != 0)
  | .setHighDetectEnable _ _ => .void
  | .getHighDetectEnable _ => .bool (b2 != 0)
  | .setLowDetectEnable _ _ => .void
  | .getLowDetectEnable _ => .bool (b2 != 0)

/-- What an operation returns when its range check fails (R193): nothing, false, or the mode code 0. -/
def PublicOp.defaultResult (op : PublicOp) : OpResult :=
  match op with
  | .resetPin _ => .void
  | .setLevel _ _ => .void
  | .getLevel _ => .bool false
  | .setMode _ _ => .void
  | .getMode _ => .code 0
  | .setPull _ _ => .void
  | .eventDetected _ => .bool false
  | .setRedgeEnable _ _ => .void
  | .getRedgeEnable _ => .bool false
  | .setFedgeEnable _ _ => .void
  | .getFedgeEnable _ => .bool false
  | .setAsyncRedgeEnable _ _ => .void
  | .getAsyncRedgeEnable _ => .bool false
  | .setAsyncFedgeEnable _ _ => .void
  | .getAsyncFedgeEnable _ => .bool false
  | .setHighDetectEnable _ _ => .void
  | .getHighDetectEnable _ => .bool false
  | .setLowDetectEnable _ _ => .void
  | .getLowDetectEnable _ => .bool false

end Sys2Proof.Machine
end

