-- ==== Sys2Proof/Machine/State.lean ====
section
/-! DEFINITION. All the state of 10_state.md R20, the model's own bookkeeping, the reasons a step can stop, and the
state after start-up (70_reset_and_hazards.md R260, R261, R264). -/

namespace Sys2Proof.Machine

/-- Why a step stops with a fault. The spec's own model faults (60_exceptions.md R236) are not here: they are state,
recorded in `State.faults`, and the run goes on (log 11). -/
inductive Fault where
  /-- Raised by `step` when the parameters break the condition of 20_memory.md R53, of R84 or of 00_scope.md R8
  (`NCLIENTS >= 1`): with them a word index could lie outside the register bank, or no client exist. Safe: no rule of the
  spec holds of such a machine. -/
  | parameterCondition
  deriving DecidableEq, Repr

/-- Why a step has no meaning. All but `notModelled` refuse a turn the spec gives no move for. -/
inductive Refusal where
  /-- An instruction without a meaning; raised by no arm of `exec` now. Safe. -/
  | notModelled (mnemonic : String)
  /-- A turn of a client that does not exist (00_scope.md R6: the clients are NCLIENTS). Raised by `takeTurn`. Safe. -/
  | noSuchClient (c : Nat)
  /-- A turn that has a client start something while it is inside a transaction (43_framer.md R191: the call has not
  returned; R6: another thread is another client). Raised by `takeTurn`. Safe. -/
  | clientBusy (c : Nat)
  /-- A transport operation whose length is not 3 (20_memory.md R63, U11). Raised by the raw transfers. Safe. -/
  | wrongLength (n : Nat)
  /-- Shutdown with a request outstanding (70_reset_and_hazards.md R263, U10: no move). Raised by the shutdown turn.
  Unsafe: the source only assumes it does not happen (D26; log 15). -/
  | shutdownWhileOutstanding
  /-- A harness event outside the loopback model or inside a transaction (20_memory.md R58: "between transactions").
  Raised by the harness turn. Safe. -/
  | harnessEventNotAllowed
  deriving DecidableEq, Repr

/-- A 3-byte buffer (30_encoding.md R80). -/
structure Packet where
  b0 : Byte
  b1 : Byte
  b2 : Byte
  deriving DecidableEq, Repr

/-- A word of the register bank at its index (20_memory.md R51: the bank has no smaller unit; log 10). -/
abbrev WordCell := Nat × Word

/-- The stored words of the register bank, in canonical form (`Memory.wf`). -/
abbrev Memory := List WordCell

/-- An event of the access history (20_memory.md R61). -/
inductive RegEvent where
  | rd (i : Nat) (v : Word)
  | wr (i : Nat) (v : Word)
  deriving DecidableEq, Repr

/-- The far side of the register port, and the history of accesses to it. -/
structure Port where
  /-- The register bank (10_state.md R29), and `M` of the loopback mock (R58). -/
  mem : Memory
  /-- `OUT[0]` and `OUT[1]` of the loopback mock (20_memory.md R58). -/
  out0 : Word
  out1 : Word
  /-- MODEL'S OWN: how many free words have been drawn (log 8). -/
  draws : Nat
  /-- The access history, oldest first (R61). -/
  history : List RegEvent
  deriving DecidableEq, Repr

/-- The servicing position (10_state.md R23): the index of the next register access of the command, and the values
already read. -/
structure Position where
  index : Nat
  values : List Word
  deriving DecidableEq, Repr

/-- The Dispatcher's control state (10_state.md R22); the position exists only while servicing (R23). -/
inductive Control where
  | idle
  | servicing (pos : Position)
  deriving DecidableEq, Repr

/-- `phase_c` (10_state.md R27). -/
inductive Phase where
  | noTxn
  | awaiting (op : PublicOp)
  deriving DecidableEq, Repr

/-- One client (10_state.md R27). -/
structure Client where
  cbuf : Packet
  chanOpen : Bool
  phase : Phase
  /-- MODEL'S OWN: the transaction stopped at a raised fault (20_memory.md R64 "stop"; log 12). -/
  stopped : Bool
  /-- MODEL'S OWN: what the last call returned, none while it has not returned (43_framer.md R195; log 17). -/
  ret : Option OpResult
  deriving DecidableEq, Repr

/-- The kinds of model fault (60_exceptions.md R236). -/
inductive FaultKind where
  | interleavedTransaction
  | notInitialised
  | afterShutdown
  deriving DecidableEq, Repr

/-- `faults` (10_state.md R35): the set of model faults raised so far. -/
structure FaultSet where
  interleavedTransaction : Bool
  notInitialised : Bool
  afterShutdown : Bool
  deriving DecidableEq, Repr

/-- One step of one agent, or of the world outside (00_scope.md R6, 20_memory.md R67; log 13). -/
inductive Turn where
  /-- The Dispatcher services the loaded request in one step (20_memory.md R62). -/
  | dispatcher
  /-- The Dispatcher makes one register access of the loaded request, or its commit (10_state.md R23). -/
  | dispatcherAccess
  /-- Client c calls `init` (43_framer.md R190). -/
  | init (c : Nat)
  /-- Client c calls a public operation (R196-R214), up to and including its RequestWrite (R191). -/
  | call (c : Nat) (op : PublicOp)
  /-- One iteration of client c's poll loop (R192). -/
  | poll (c : Nat)
  /-- Client c bypasses its proxy and writes bytes to the transport (20_memory.md R63, R64). -/
  | rawWrite (c : Nat) (bytes : List Byte)
  /-- Client c bypasses its proxy and reads n bytes from the transport (R63, R65). -/
  | rawRead (c : Nat) (n : Nat)
  /-- The privileged layer shuts down (70_reset_and_hazards.md R263). -/
  | shutdown
  /-- The loopback test harness latches events: it sets the bits of a mask in an EDS word (20_memory.md R58). -/
  | harnessEvent (bank : Bank) (mask : Word)
  deriving DecidableEq, Repr

/-- The state of the machine (10_state.md R20). -/
structure State where
  /-- The open parameters (00_scope.md R8): no step changes them (R36; log 2). -/
  params : Params
  /-- The register bank behind the port, and the access history. -/
  port : Port
  /-- `buf[0..2]` (R21). -/
  buf : Packet
  /-- `state` and the servicing position (R22, R23). -/
  control : Control
  /-- `owner` (R34). -/
  owner : Option Nat
  /-- The clients, client c at place c; NCLIENTS is their number (R8, R27). -/
  clients : List Client
  /-- `faults` (R35). -/
  faults : FaultSet
  /-- `shutdown` (70_reset_and_hazards.md R263). -/
  shutdown : Bool
  /-- MODEL'S OWN: how many opens of the transport have been tried (log 9). -/
  opens : Nat
  /-- MODEL'S OWN: the agents' steps to come, the outside world's input (log 13). -/
  turns : List Turn
  /-- MODEL'S OWN: the agents' steps that follow over and over once `turns` is used up, the outside world's input too. A
  schedule is so without end, and one that leaves the Dispatcher out is the hang of 43_framer.md R192 (log 13). -/
  again : List Turn
  deriving DecidableEq, Repr

/-- The position at the first access of a command (20_memory.md R64). -/
def Position.start : Position where
  index := 0
  values := []

/-- A buffer whose contents the spec leaves unspecified at start-up (R21, R27): DESIGN CHOICE zero (log 5). -/
def Packet.reset : Packet where
  b0 := 0
  b1 := 0
  b2 := 0

/-- A client at its start (70_reset_and_hazards.md R261). -/
def Client.reset : Client where
  cbuf := Packet.reset
  chanOpen := false
  phase := .noTxn
  stopped := false
  ret := none

/-- The register side at start-up: no word listed, so every word reads as `unlistedWord` (DESIGN CHOICE, log 6), both
latches zero (R58), the history empty (R260). -/
def Port.reset : Port where
  mem := []
  out0 := 0
  out1 := 0
  draws := 0
  history := []

/-- The empty fault set. -/
def FaultSet.empty : FaultSet where
  interleavedTransaction := false
  notInitialised := false
  afterShutdown := false

/-- The state after start-up (R260, R264), with one client (R8) and nothing scheduled. -/
def State.reset : State where
  params := defaultParams
  port := Port.reset
  buf := Packet.reset
  control := .idle
  owner := none
  clients := [Client.reset]
  faults := FaultSet.empty
  shutdown := false
  opens := 0
  turns := []
  again := []

end Sys2Proof.Machine
end

