-- ==== Sys2Proof/Machine/Flags.lean ====
section
/-! DEFINITION. The block's only status flag, the sentinel in byte 0 (10_state.md R26), and the response the commit
leaves in the buffer (42_commands.md R151). -/

namespace Sys2Proof.Machine

/-- R26: the buffer shows "response-ready". -/
def Packet.responseReady (p : Packet) : Bool := p.b0 == Config.sentinel

/-- R151: byte 2 takes `trunc_8` of a getter's result and is otherwise kept, byte 1 is kept, byte 0 is the sentinel. -/
def Packet.respond (p : Packet) (result : Option Word) : Packet where
  b0 := Config.sentinel
  b1 := p.b1
  b2 := match result with
    | some r => trunc8 r
    | none => p.b2

end Sys2Proof.Machine
end

