-- ==== Sys2Proof/Machine/Ops.lean ====
section
/-! DEFINITION. The named operations over the register bank and the shared state: stored words, the register port of
20_memory.md R50-R58, raising a model fault, and the response commit. -/

namespace Sys2Proof

/-- The word of a two-bank family (20_memory.md R53). -/
def BankPair.word (b : BankPair) : Bank → Nat
  | .bank0 => b.bank0
  | .bank1 => b.bank1

/-- The pair of words of a two-bank family. -/
def WordMap.pair (m : WordMap) : BankFamily → BankPair
  | .set => m.set
  | .clr => m.clr
  | .lev => m.lev
  | .pudclk => m.pudclk
  | .eds => m.eds
  | .ren => m.ren
  | .fen => m.fen
  | .aren => m.aren
  | .afen => m.afen
  | .hen => m.hen
  | .len => m.len

/-- `W(F, k)` for a two-bank family (R53). -/
def WordMap.bankWord (m : WordMap) (f : BankFamily) (k : Bank) : Nat := BankPair.word (m.pair f) k

/-- `W(FSEL, k)`, k in 0..5 (R53). -/
def WordMap.fselWord (m : WordMap) : Nat → Nat
  | 0 => m.fsel0
  | 1 => m.fsel1
  | 2 => m.fsel2
  | 3 => m.fsel3
  | 4 => m.fsel4
  | _ => m.fsel5

/-- `i = W(F, k)` for some bank k. -/
def WordMap.isOf (m : WordMap) (f : BankFamily) (i : Nat) : Bool :=
  decide (i = m.bankWord f .bank0) || decide (i = m.bankWord f .bank1)

/-- The volatile words of R56(b). -/
def WordMap.isVolatile (m : WordMap) (i : Nat) : Bool := m.isOf .lev i || m.isOf .eds i

/-- The command words of R56(c). -/
def WordMap.isCommand (m : WordMap) (i : Nat) : Bool := m.isOf .set i || m.isOf .clr i

end Sys2Proof

namespace Sys2Proof.Machine

/-- What a word of the bank that no cell lists holds (DESIGN CHOICE zero, log 6). -/
def unlistedWord : Word := 0

/-- The stored word at an index. -/
def Memory.read : Memory → Nat → Word
  | [], _ => unlistedWord
  | (b, w) :: rest, a => if a = b then w else Memory.read rest a

/-- Puts a cell in front, unless it says what an unlisted index holds anyway. -/
def Memory.cons (a : Nat) (v : Word) (rest : Memory) : Memory :=
  if v = unlistedWord then rest else (a, v) :: rest

/-- Stores a word at an index, keeping the canonical form. -/
def Memory.write : Memory → Nat → Word → Memory
  | [], a, v => Memory.cons a v []
  | (b, w) :: rest, a, v =>
    if a < b then Memory.cons a v ((b, w) :: rest)
    else if a = b then Memory.cons a v rest
    else (b, w) :: Memory.write rest a v

/-- Every listed index is at least `lo`, indices rise strictly, and no cell says what an unlisted index holds. -/
def Memory.wfFrom : Memory → Nat → Bool
  | [], _ => true
  | (b, w) :: rest, lo => decide (lo ≤ b) && decide (w ≠ unlistedWord) && Memory.wfFrom rest (b + 1)

/-- The canonical form of the register bank. -/
def Memory.wf (m : Memory) : Bool := m.wfFrom 0

/-- `OUT[k]` of the loopback mock (R58), k the bank of word i in family f. -/
def Port.outOf (q : Port) (m : WordMap) (f : BankFamily) (i : Nat) : Word :=
  if i = m.bankWord f .bank0 then q.out0 else q.out1

/-- `OUT[k] <- g OUT[k]`, k the bank of word i in family f. -/
def Port.setOut (q : Port) (m : WordMap) (f : BankFamily) (i : Nat) (g : Word → Word) : Port :=
  if i = m.bankWord f .bank0 then { q with out0 := g q.out0 } else { q with out1 := g q.out1 }

/-- What the peripheral answers to a read (R56, R58), and the port after it. A volatile or command word of the general
model gives a free value and uses up one draw (log 8). -/
def Port.answer (ps : Params) (i : Nat) (q : Port) : Word × Port :=
  match ps.periph with
  | .general =>
    if ps.words.isVolatile i || ps.words.isCommand i then (Config.freeWord q.draws, { q with draws := q.draws + 1 })
    else (q.mem.read i, q)
  | .loopback =>
    if ps.words.isOf .lev i then (q.outOf ps.words .lev i, q)
    else if ps.words.isCommand i then (0, q)
    else (q.mem.read i, q)

/-- What the peripheral does with a write (R56, R57, R58). In the general model a volatile or command word stores
nothing: the write shows in the history alone (log 25). -/
def Port.deliver (ps : Params) (i : Nat) (v : Word) (q : Port) : Port :=
  match ps.periph with
  | .general =>
    if ps.words.isVolatile i || ps.words.isCommand i then q else { q with mem := q.mem.write i v }
  | .loopback =>
    if ps.words.isOf .set i then q.setOut ps.words .set i (· ||| v)
    else if ps.words.isOf .clr i then q.setOut ps.words .clr i (· &&& ~~~ v)
    else if ps.words.isOf .lev i then q
    else { q with mem := q.mem.write i v }

/-- Appends an event to the access history (R61). -/
def Port.record (e : RegEvent) (q : Port) : Port := { q with history := q.history ++ [e] }

/-- `RegRead(i)` (R52). -/
def Port.regRead (ps : Params) (i : Nat) (q : Port) : Word × Port :=
  let r := q.answer ps i
  (r.1, r.2.record (.rd i r.1))

/-- `RegWrite(i, v)` (R52). -/
def Port.regWrite (ps : Params) (i : Nat) (v : Word) (q : Port) : Port := (q.deliver ps i v).record (.wr i v)

/-- Adds a kind to the fault set; nothing ever takes one out (10_state.md R35). -/
def FaultSet.add (f : FaultSet) : FaultKind → FaultSet
  | .interleavedTransaction => { f with interleavedTransaction := true }
  | .notInitialised => { f with notInitialised := true }
  | .afterShutdown => { f with afterShutdown := true }

/-- Whether a kind has been raised. -/
def FaultSet.has (f : FaultSet) : FaultKind → Bool
  | .interleavedTransaction => f.interleavedTransaction
  | .notInitialised => f.notInitialised
  | .afterShutdown => f.afterShutdown

/-- `raise Fault(kind)` (00_scope.md R11): the one way a model fault enters the state. The block has no other exception
entry, and no return from one (60_exceptions.md R239). -/
def State.raise (s : State) (k : FaultKind) : State := { s with faults := s.faults.add k }

/-- The response commit (42_commands.md R151): one step that answers in place and frees the Dispatcher. -/
def State.commit (s : State) (result : Option Word) : State :=
  { s with buf := s.buf.respond result, control := .idle }

/-- Replaces the register side. -/
def State.withPort (s : State) (q : Port) : State := { s with port := q }

/-- Moves the Dispatcher to another servicing position. -/
def State.atPosition (s : State) (pos : Position) : State := { s with control := .servicing pos }

/-- Replaces client c. -/
def State.setClient (s : State) (c : Nat) (cl : Client) : State := { s with clients := s.clients.set c cl }

end Sys2Proof.Machine
end

