-- ==== Sys2Proof/Machine/Access.lean ====
section
/-! DEFINITION. A command as the sequence of register accesses it makes (00_scope.md R12, 20_memory.md R60), run at
once (R62) or from a servicing position (10_state.md R23), and the Dispatcher's servicing (42_commands.md R150). -/

namespace Sys2Proof.Machine

/-- A pseudocode block of the engine: register accesses in order, then a result. What comes after a read may depend
on the word read. -/
inductive Accesses (α : Type) where
  | done (a : α)
  | read (i : Nat) (next : Word → Accesses α)
  | write (i : Nat) (v : Word) (next : Accesses α)

/-- One block after another, the second taking the first one's result (R12). -/
def Accesses.bind {α β : Type} : Accesses α → (α → Accesses β) → Accesses β
  | .done a, f => f a
  | .read i next, f => .read i fun x => (next x).bind f
  | .write i v next, f => .write i v (next.bind f)

/-- Performs a block on the register port, each access before the next (R60). -/
def Accesses.run {α : Type} (ps : Params) : Accesses α → Port → α × Port
  | .done a, q => (a, q)
  | .read i next, q => (next (q.regRead ps i).1).run ps (q.regRead ps i).2
  | .write i v next, q => next.run ps (q.regWrite ps i v)

/-- What is left of a block after its first `n` accesses, `xs` being the words read in them (10_state.md R23). -/
def Accesses.after {α : Type} : Accesses α → List Word → Nat → Accesses α
  | p, _, 0 => p
  | .done a, _, _ + 1 => .done a
  | .read _ next, x :: xs, n + 1 => (next x).after xs n
  | .read i next, [], _ + 1 => .read i next
  | .write _ _ next, xs, n + 1 => next.after xs n

/-- What is left of a block at a servicing position. -/
def Accesses.rest {α : Type} (p : Accesses α) (pos : Position) : Accesses α := p.after pos.values pos.index

/-- Servicing in one step: every access of the command in order, then the response commit (R150, R62). -/
def State.service (s : State) (command : Accesses (Option Word)) : Host.Outcome State Fault Refusal :=
  let r := command.run s.params s.port
  .next ((s.withPort r.2).commit r.1)

/-- Servicing access by access: the next access of the command at its position, or the commit when none is left
(R23, R150, D27). -/
def State.serviceAccess (s : State) (command : Accesses (Option Word)) (pos : Position) : State :=
  match command.rest pos with
  | .done r => s.commit r
  | .read i _ =>
    let r := s.port.regRead s.params i
    (s.withPort r.2).atPosition ⟨pos.index + 1, pos.values ++ [r.1]⟩
  | .write i v _ => (s.withPort (s.port.regWrite s.params i v)).atPosition ⟨pos.index + 1, pos.values⟩

end Sys2Proof.Machine
end

