-- ==== Sys2Proof/Machine/Mapper.lean ====
section
/-! DEFINITION. The PinRegisterMap (40_mapper.md): pure arithmetic from a pin and a family to a word and a bit. -/

namespace Sys2Proof.Machine

/-- The bank of a valid pin (R101): bank 0 exactly when `pin < 32`. -/
def pinBank (pin : Byte) : Bank := if pin.toNat < 32 then .bank0 else .bank1

/-- The bit offset of a valid pin in a two-bank family (R101): `pin & 31`. -/
def pinBit (pin : Byte) : Nat := (pin &&& 31).toNat

/-- The function-select bucket of a valid pin (R103): `pin / 10`. -/
def pinBucket (pin : Byte) : Nat := pin.toNat / 10

/-- The function-select bit offset of a valid pin (R103): `3 * (pin % 10)`. -/
def pinFieldOffset (pin : Byte) : Nat := 3 * (pin.toNat % 10)

/-- `locate(pin, F)` (R100, R105): the word index and the bit of a valid pin, none for pins 54..255. -/
def locate (m : WordMap) (pin : Byte) (f : PinFamily) : Option (Nat × Nat) :=
  if 53 < pin.toNat then none
  else match f with
    | .fsel => some (m.fselWord (pinBucket pin), pinFieldOffset pin)
    | .bank f => some (m.bankWord f (pinBank pin), pinBit pin)

/-- `1 << b` (00_scope.md R9). -/
def bitWord (b : Nat) : Word := 1#32 <<< b

/-- `7 << off` (R103). -/
def fieldWord (off : Nat) : Word := 7#32 <<< off

/-- `bitmask(pin)` (R102). DESIGN CHOICE (log 34): R102 defines it for `pin <= 53` alone and R106 calls it total; the
model takes the same formula for pins 54..255, where no operation uses it. -/
def bitmask (pin : Byte) : Word := bitWord (pinBit pin)

/-- `fmask(pin)` (R103), the same formula for pins 54..255 as a DESIGN CHOICE (log 34), where no operation uses it. -/
def fmask (pin : Byte) : Word := fieldWord (pinFieldOffset pin)

end Sys2Proof.Machine
end

