-- ==== Sys2Proof/Machine/Operands.lean ====
section
/-! DEFINITION. What an operand byte means (30_encoding.md R82, 00_scope.md R13), and the mode and pull codes by name
(10_state.md R32, R33). -/

namespace Sys2Proof.Machine

/-- R13: a packet byte read as a boolean is true exactly when it is nonzero. -/
def byteBool (v : Byte) : Bool := v != 0

/-- R13: a boolean result is 1 for true and 0 for false (before `trunc_8` puts it into byte 2). -/
def boolWord (b : Bool) : Word := if b then 1 else 0

/-- The eight pin modes (R32). -/
inductive PinMode where
  | input | output | alt0 | alt1 | alt2 | alt3 | alt4 | alt5
  deriving DecidableEq, Repr

/-- R32: "alternate functions 0–3 map to codes 4–7 in order", 4 and 5 to codes 3 and 2. -/
def PinMode.code : PinMode → Byte
  | .input => 0
  | .output => 1
  | .alt5 => 2
  | .alt4 => 3
  | .alt0 => 4
  | .alt1 => 5
  | .alt2 => 6
  | .alt3 => 7

/-- The three pull modes (R33). -/
inductive PullMode where
  | noPull | pullDown | pullUp
  deriving DecidableEq, Repr

/-- The pull codes of R33. -/
def PullMode.code : PullMode → Byte
  | .noPull => 0
  | .pullDown => 1
  | .pullUp => 2

end Sys2Proof.Machine
end

