-- ==== Sys2Proof/Machine/Engine.lean ====
section
/-! DEFINITION. The RegisterBank engine (41_register_engine.md): its ten primitives and no others (R132), each as the
accesses it makes. A pin above 53 makes none (R130). -/

namespace Sys2Proof.Machine

/-- R120. -/
def readWord (i : Nat) : Accesses Word := .read i .done

/-- R121. -/
def writeWord (i : Nat) (v : Word) : Accesses Unit := .write i v (.done ())

/-- R122, `set_bit(SET, pin)`: one write of a single-bit mask, no read. -/
def setBit (m : WordMap) (pin : Byte) : Accesses Unit :=
  match locate m pin (.bank .set) with
  | some (w, b) => writeWord w (bitWord b)
  | none => .done ()

/-- R123, `clear_bit(CLR, pin)`: one write of a single-bit mask, no read. -/
def clearBit (m : WordMap) (pin : Byte) : Accesses Unit :=
  match locate m pin (.bank .clr) with
  | some (w, b) => writeWord w (bitWord b)
  | none => .done ()

/-- Bit b of a word, `(x >> b) & 1` as a boolean (R124, R129; 00_scope.md R13). -/
def wordBit (x : Word) (b : Nat) : Bool := (x >>> b) &&& 1#32 == 1#32

/-- R124, `read_bit(F, pin)`. -/
def readBit (m : WordMap) (f : BankFamily) (pin : Byte) : Accesses Bool :=
  match locate m pin (.bank f) with
  | some (w, b) => (readWord w).bind fun x => .done (wordBit x b)
  | none => .done false

/-- The 3-bit field at an offset, `(x >> off) & 7` (R125). -/
def wordField (x : Word) (off : Nat) : Word := (x >>> off) &&& 7#32

/-- R125, `read_field(FSEL, pin)`. -/
def readField (m : WordMap) (pin : Byte) : Accesses Word :=
  match locate m pin .fsel with
  | some (w, off) => (readWord w).bind fun x => .done (wordField x off)
  | none => .done 0

/-- The word with its 3-bit field replaced: `(x & ~(7 << off)) | (value << off)` (R126). -/
def updateWord (x : Word) (off : Nat) (value : Byte) : Word := (x &&& ~~~ fieldWord off) ||| (zext32 value <<< off)

/-- R126, `update_field(FSEL, pin, value)`: a read and a write, always both, unless the value or the pin is out of
range (R131, R130). -/
def updateField (m : WordMap) (pin value : Byte) : Accesses Unit :=
  if 7 < value.toNat then .done ()
  else match locate m pin .fsel with
    | some (w, off) => (readWord w).bind fun x => writeWord w (updateWord x off value)
    | none => .done ()

/-- The word with bit b set or cleared (R127). -/
def assignBit (x : Word) (b : Nat) (en : Bool) : Word := if en then x ||| bitWord b else x &&& ~~~ bitWord b

/-- R127, `write_bit(F, pin, en)`: a read and a write, always both. -/
def writeBit (m : WordMap) (f : BankFamily) (pin : Byte) (en : Bool) : Accesses Unit :=
  match locate m pin (.bank f) with
  | some (w, b) => (readWord w).bind fun x => writeWord w (assignBit x b en)
  | none => .done ()

/-- R128, `set_pull(pin, pull)`: the enable value, then the clock pulse; a pull above 2 makes no access (R131). -/
def setPull (m : WordMap) (pin pull : Byte) : Accesses Unit :=
  if 2 < pull.toNat then .done ()
  else match locate m pin (.bank .pudclk) with
    | some (w, b) => (writeWord m.pud (zext32 pull)).bind fun _ => writeWord w (bitWord b)
    | none => .done ()

/-- R129, `event_detected(pin)`: the word read is written back as it was read when the pin's bit is set. -/
def eventDetected (m : WordMap) (pin : Byte) : Accesses Bool :=
  match locate m pin (.bank .eds) with
  | some (w, b) =>
    (readWord w).bind fun x =>
      if wordBit x b then (writeWord w x).bind fun _ => .done true else .done false
  | none => .done false

/-- A command with no result: its commit keeps byte 2 (42_commands.md R151). -/
def Accesses.void (p : Accesses Unit) : Accesses (Option Word) := p.bind fun _ => .done none

/-- A getter with a boolean result (R151; 00_scope.md R13). -/
def Accesses.boolResult (p : Accesses Bool) : Accesses (Option Word) := p.bind fun b => .done (some (boolWord b))

/-- A getter whose result is a word (R151). -/
def Accesses.wordResult (p : Accesses Word) : Accesses (Option Word) := p.bind fun x => .done (some x)

end Sys2Proof.Machine
end

