-- ==== Sys2Proof/Machine/Detect.lean ====
section
/-! DEFINITION. The twelve detect-enable commands (42_commands.md R159-R170). -/

namespace Sys2Proof.Machine

/-- R159, SET_REDGE: `write_bit` on REN, enabled by a nonzero V. -/
def commandSetRedge (m : WordMap) (pin value : Byte) : Accesses (Option Word) :=
  (writeBit m .ren pin (byteBool value)).void

/-- R159, run as one servicing step. -/
def execSetRedge (pin value : Byte) (s : State) : Host.Outcome State Fault Refusal :=
  s.service (commandSetRedge s.params.words pin value)

/-- R160, GET_REDGE: `read_bit` of REN; V is ignored. -/
def commandGetRedge (m : WordMap) (pin _value : Byte) : Accesses (Option Word) :=
  (readBit m .ren pin).boolResult

/-- R160, run as one servicing step. -/
def execGetRedge (pin value : Byte) (s : State) : Host.Outcome State Fault Refusal :=
  s.service (commandGetRedge s.params.words pin value)

/-- R161, SET_FEDGE: `write_bit` on FEN, enabled by a nonzero V. -/
def commandSetFedge (m : WordMap) (pin value : Byte) : Accesses (Option Word) :=
  (writeBit m .fen pin (byteBool value)).void

/-- R161, run as one servicing step. -/
def execSetFedge (pin value : Byte) (s : State) : Host.Outcome State Fault Refusal :=
  s.service (commandSetFedge s.params.words pin value)

/-- R162, GET_FEDGE: `read_bit` of FEN; V is ignored. -/
def commandGetFedge (m : WordMap) (pin _value : Byte) : Accesses (Option Word) :=
  (readBit m .fen pin).boolResult

/-- R162, run as one servicing step. -/
def execGetFedge (pin value : Byte) (s : State) : Host.Outcome State Fault Refusal :=
  s.service (commandGetFedge s.params.words pin value)

/-- R163, SET_AREDGE: `write_bit` on AREN, enabled by a nonzero V. -/
def commandSetAredge (m : WordMap) (pin value : Byte) : Accesses (Option Word) :=
  (writeBit m .aren pin (byteBool value)).void

/-- R163, run as one servicing step. -/
def execSetAredge (pin value : Byte) (s : State) : Host.Outcome State Fault Refusal :=
  s.service (commandSetAredge s.params.words pin value)

/-- R164, GET_AREDGE: `read_bit` of AREN; V is ignored. -/
def commandGetAredge (m : WordMap) (pin _value : Byte) : Accesses (Option Word) :=
  (readBit m .aren pin).boolResult

/-- R164, run as one servicing step. -/
def execGetAredge (pin value : Byte) (s : State) : Host.Outcome State Fault Refusal :=
  s.service (commandGetAredge s.params.words pin value)

/-- R165, SET_AFEDGE: `write_bit` on AFEN, enabled by a nonzero V. -/
def commandSetAfedge (m : WordMap) (pin value : Byte) : Accesses (Option Word) :=
  (writeBit m .afen pin (byteBool value)).void

/-- R165, run as one servicing step. -/
def execSetAfedge (pin value : Byte) (s : State) : Host.Outcome State Fault Refusal :=
  s.service (commandSetAfedge s.params.words pin value)

/-- R166, GET_AFEDGE: `read_bit` of AFEN; V is ignored. -/
def commandGetAfedge (m : WordMap) (pin _value : Byte) : Accesses (Option Word) :=
  (readBit m .afen pin).boolResult

/-- R166, run as one servicing step. -/
def execGetAfedge (pin value : Byte) (s : State) : Host.Outcome State Fault Refusal :=
  s.service (commandGetAfedge s.params.words pin value)

/-- R167, SET_HDETECT: `write_bit` on HEN, enabled by a nonzero V. -/
def commandSetHdetect (m : WordMap) (pin value : Byte) : Accesses (Option Word) :=
  (writeBit m .hen pin (byteBool value)).void

/-- R167, run as one servicing step. -/
def execSetHdetect (pin value : Byte) (s : State) : Host.Outcome State Fault Refusal :=
  s.service (commandSetHdetect s.params.words pin value)

/-- R168, GET_HDETECT: `read_bit` of HEN; V is ignored. -/
def commandGetHdetect (m : WordMap) (pin _value : Byte) : Accesses (Option Word) :=
  (readBit m .hen pin).boolResult

/-- R168, run as one servicing step. -/
def execGetHdetect (pin value : Byte) (s : State) : Host.Outcome State Fault Refusal :=
  s.service (commandGetHdetect s.params.words pin value)

/-- R169, SET_LDETECT: `write_bit` on LEN, enabled by a nonzero V. -/
def commandSetLdetect (m : WordMap) (pin value : Byte) : Accesses (Option Word) :=
  (writeBit m .len pin (byteBool value)).void

/-- R169, run as one servicing step. -/
def execSetLdetect (pin value : Byte) (s : State) : Host.Outcome State Fault Refusal :=
  s.service (commandSetLdetect s.params.words pin value)

/-- R170, GET_LDETECT: `read_bit` of LEN; V is ignored. -/
def commandGetLdetect (m : WordMap) (pin _value : Byte) : Accesses (Option Word) :=
  (readBit m .len pin).boolResult

/-- R170, run as one servicing step. -/
def execGetLdetect (pin value : Byte) (s : State) : Host.Outcome State Fault Refusal :=
  s.service (commandGetLdetect s.params.words pin value)

end Sys2Proof.Machine
end

