-- ==== Sys2Proof/Machine/Event.lean ====
section
/-! DEFINITION. Event status: GET_EVENT (42_commands.md R158). -/

namespace Sys2Proof.Machine

/-- R158, GET_EVENT: the pin's bit of EDS, with the write-back that does not acknowledge it; V is ignored. -/
def commandGetEvent (m : WordMap) (pin _value : Byte) : Accesses (Option Word) :=
  (eventDetected m pin).boolResult

/-- R158, run as one servicing step. -/
def execGetEvent (pin value : Byte) (s : State) : Host.Outcome State Fault Refusal :=
  s.service (commandGetEvent s.params.words pin value)

end Sys2Proof.Machine
end

