-- ==== Sys2Proof/Machine/Level.lean ====
section
/-! DEFINITION. Level: SET_LEVEL and GET_LEVEL (42_commands.md R153, R154). -/

namespace Sys2Proof.Machine

/-- R153, SET_LEVEL: one mask write to SET for a nonzero V, to CLR for 0. -/
def commandSetLevel (m : WordMap) (pin value : Byte) : Accesses (Option Word) :=
  (if byteBool value then setBit m pin else clearBit m pin).void

/-- R153, run as one servicing step. -/
def execSetLevel (pin value : Byte) (s : State) : Host.Outcome State Fault Refusal :=
  s.service (commandSetLevel s.params.words pin value)

/-- R154, GET_LEVEL: the pin's bit of LEV; V is ignored. -/
def commandGetLevel (m : WordMap) (pin _value : Byte) : Accesses (Option Word) :=
  (readBit m .lev pin).boolResult

/-- R154, run as one servicing step. -/
def execGetLevel (pin value : Byte) (s : State) : Host.Outcome State Fault Refusal :=
  s.service (commandGetLevel s.params.words pin value)

end Sys2Proof.Machine
end

