-- ==== Sys2Proof/Machine/Lifecycle.lean ====
section
/-! DEFINITION. Pin lifecycle: RESET_PIN (42_commands.md R152). -/

namespace Sys2Proof.Machine

/-- R152, RESET_PIN: six detect disables, NOPULL, INPUT, and last the event acknowledge attempt, whose result is
discarded (90_conflicts.md C3); V is ignored. -/
def commandResetPin (m : WordMap) (pin _value : Byte) : Accesses (Option Word) :=
  (writeBit m .hen pin false).bind fun _ =>
  (writeBit m .len pin false).bind fun _ =>
  (writeBit m .ren pin false).bind fun _ =>
  (writeBit m .fen pin false).bind fun _ =>
  (writeBit m .aren pin false).bind fun _ =>
  (writeBit m .afen pin false).bind fun _ =>
  (setPull m pin PullMode.noPull.code).bind fun _ =>
  (updateField m pin PinMode.input.code).bind fun _ =>
  (eventDetected m pin).bind fun _ =>
  .done none

/-- R152, run as one servicing step. -/
def execResetPin (pin value : Byte) (s : State) : Host.Outcome State Fault Refusal :=
  s.service (commandResetPin s.params.words pin value)

end Sys2Proof.Machine
end

