-- ==== Sys2Proof/Machine/Mode.lean ====
section
/-! DEFINITION. Mode: SET_MODE and GET_MODE (42_commands.md R155, R156). -/

namespace Sys2Proof.Machine

/-- R155, SET_MODE: a read-modify-write of the 3-bit field; V > 7 makes no access. -/
def commandSetMode (m : WordMap) (pin value : Byte) : Accesses (Option Word) :=
  (updateField m pin value).void

/-- R155, run as one servicing step. -/
def execSetMode (pin value : Byte) (s : State) : Host.Outcome State Fault Refusal :=
  s.service (commandSetMode s.params.words pin value)

/-- R156, GET_MODE: the raw 3-bit code; V is ignored. -/
def commandGetMode (m : WordMap) (pin _value : Byte) : Accesses (Option Word) :=
  (readField m pin).wordResult

/-- R156, run as one servicing step. -/
def execGetMode (pin value : Byte) (s : State) : Host.Outcome State Fault Refusal :=
  s.service (commandGetMode s.params.words pin value)

end Sys2Proof.Machine
end

