-- ==== Sys2Proof/Machine/Pull.lean ====
section
/-! DEFINITION. Pull: SET_PULL (42_commands.md R157). -/

namespace Sys2Proof.Machine

/-- R157, SET_PULL: PUD, then PUDCLK, with nothing between or after; V > 2 makes no access. -/
def commandSetPull (m : WordMap) (pin value : Byte) : Accesses (Option Word) :=
  (setPull m pin value).void

/-- R157, run as one servicing step. -/
def execSetPull (pin value : Byte) (s : State) : Host.Outcome State Fault Refusal :=
  s.service (commandSetPull s.params.words pin value)

end Sys2Proof.Machine
end

