-- ==== Sys2Proof/Machine/Unrecognized.lean ====
section
/-! DEFINITION. Codes the map does not name: UNRECOGNIZED (42_commands.md R171). -/

namespace Sys2Proof.Machine

/-- R171, UNRECOGNIZED: no access, no result. -/
def commandUnrecognized : Accesses (Option Word) := .done none

/-- R171, run as one servicing step: the response commit alone, bytes 1 and 2 kept. -/
def execUnrecognized (s : State) : Host.Outcome State Fault Refusal := s.service commandUnrecognized

end Sys2Proof.Machine
end

