-- ==== Sys2Proof/Machine/Command.lean ====
section
/-! DEFINITION. The accesses of each command, for servicing access by access (10_state.md R23, 42_commands.md R150):
the same sequence that the command's meaning runs at once. -/

namespace Sys2Proof.Machine

/-- The rule of op with operands (p, v) (R150). -/
def commandOf (m : WordMap) : Instr → Accesses (Option Word)
  | .resetPin pin value => commandResetPin m pin value
  | .setLevel pin value => commandSetLevel m pin value
  | .getLevel pin value => commandGetLevel m pin value
  | .setMode pin value => commandSetMode m pin value
  | .getMode pin value => commandGetMode m pin value
  | .setPull pin value => commandSetPull m pin value
  | .getEvent pin value => commandGetEvent m pin value
  | .setRedge pin value => commandSetRedge m pin value
  | .getRedge pin value => commandGetRedge m pin value
  | .setFedge pin value => commandSetFedge m pin value
  | .getFedge pin value => commandGetFedge m pin value
  | .setAredge pin value => commandSetAredge m pin value
  | .getAredge pin value => commandGetAredge m pin value
  | .setAfedge pin value => commandSetAfedge m pin value
  | .getAfedge pin value => commandGetAfedge m pin value
  | .setHdetect pin value => commandSetHdetect m pin value
  | .getHdetect pin value => commandGetHdetect m pin value
  | .setLdetect pin value => commandSetLdetect m pin value
  | .getLdetect pin value => commandGetLdetect m pin value

/-- The rule a request runs (R150, R171). -/
def requestCommand (m : WordMap) : Request → Accesses (Option Word)
  | .instr i => commandOf m i
  | .unrecognized _ _ _ => commandUnrecognized

end Sys2Proof.Machine
end

