-- ==== Sys2Proof/Machine/Dispatch.lean ====
section
/-! DEFINITION. The dispatch table keyed by the 19 commands (42_commands.md R150), one arm per constructor of Instr. -/

namespace Sys2Proof.Machine

def exec (i : Instr) (s : State) : Host.Outcome State Fault Refusal :=
  match i with
  | .resetPin pin value => Sys2Proof.Machine.execResetPin pin value s
  | .setLevel pin value => Sys2Proof.Machine.execSetLevel pin value s
  | .getLevel pin value => Sys2Proof.Machine.execGetLevel pin value s
  | .setMode pin value => Sys2Proof.Machine.execSetMode pin value s
  | .getMode pin value => Sys2Proof.Machine.execGetMode pin value s
  | .setPull pin value => Sys2Proof.Machine.execSetPull pin value s
  | .getEvent pin value => Sys2Proof.Machine.execGetEvent pin value s
  | .setRedge pin value => Sys2Proof.Machine.execSetRedge pin value s
  | .getRedge pin value => Sys2Proof.Machine.execGetRedge pin value s
  | .setFedge pin value => Sys2Proof.Machine.execSetFedge pin value s
  | .getFedge pin value => Sys2Proof.Machine.execGetFedge pin value s
  | .setAredge pin value => Sys2Proof.Machine.execSetAredge pin value s
  | .getAredge pin value => Sys2Proof.Machine.execGetAredge pin value s
  | .setAfedge pin value => Sys2Proof.Machine.execSetAfedge pin value s
  | .getAfedge pin value => Sys2Proof.Machine.execGetAfedge pin value s
  | .setHdetect pin value => Sys2Proof.Machine.execSetHdetect pin value s
  | .getHdetect pin value => Sys2Proof.Machine.execGetHdetect pin value s
  | .setLdetect pin value => Sys2Proof.Machine.execSetLdetect pin value s
  | .getLdetect pin value => Sys2Proof.Machine.execGetLdetect pin value s

end Sys2Proof.Machine
end

