-- ==== Sys2Proof/Machine/Transport.lean ====
section
/-! DEFINITION. The transport's two atomic operations, RequestWrite and ResponseRead (20_memory.md R64, R65). -/

namespace Sys2Proof.Machine

/-- `state = SERVICING`. -/
def Control.isServicing : Control → Bool
  | .idle => false
  | .servicing _ => true

/-- The model fault a RequestWrite by client c raises, if it raises one (R64, R233). -/
def State.requestFault (s : State) (c : Nat) : Option FaultKind :=
  if s.shutdown then some .afterShutdown
  else if s.owner ≠ none ∧ (s.control.isServicing = true ∨ s.owner ≠ some c) then some .interleavedTransaction
  else none

/-- Loads a request of client c: the whole buffer is written, c owns the transaction, and servicing starts (R64). -/
def State.load (s : State) (c : Nat) (p : Packet) : State :=
  { s with buf := p, owner := some c, control := .servicing Position.start }

/-- `RequestWrite(c, b0, b1, b2)` (R64). -/
def State.requestWrite (s : State) (c : Nat) (p : Packet) : State :=
  match s.requestFault c with
  | some k => s.raise k
  | none => s.load c p

/-- The owner after client c reads: c's transaction ends when the Dispatcher is IDLE (R65). -/
def State.ownerAfterRead (s : State) (c : Nat) : Option Nat :=
  if s.control = .idle ∧ s.owner = some c then none else s.owner

/-- `ResponseRead(c)` (R65): client c's buffer takes the whole of `buf`; nothing but `owner` may change besides. -/
def State.responseRead (s : State) (c : Nat) : State :=
  match s.clients[c]? with
  | some cl => { s.setClient c { cl with cbuf := s.buf } with owner := s.ownerAfterRead c }
  | none => s

end Sys2Proof.Machine
end

