-- ==== Sys2Proof/Machine/Proxy.lean ====
section
/-! DEFINITION. The ClientProxy (43_framer.md): init, the call of a public operation up to its RequestWrite, and one
iteration of the poll loop. -/

namespace Sys2Proof.Machine

/-- The packet a public operation sends (R194), `[CMD_CODE(op), pin, a]`. -/
def PublicOp.packet (m : CodeMap) (op : PublicOp) : Packet where
  b0 := m.code op.request
  b1 := op.request.pin
  b2 := op.request.value

/-- The client is inside a transaction: its call has not returned (R191). -/
def Client.busy (cl : Client) : Bool :=
  match cl.phase with
  | .noTxn => false
  | .awaiting _ => true

/-- `init(c)` (R190): whether the open succeeds is a free value (log 9). A failed open leaves the channel as it was. -/
def State.initClient (s : State) (c : Nat) (cl : Client) : State :=
  let s' := { s with opens := s.opens + 1 }
  if Config.freeOpen s.opens then s'.setClient c { cl with chanOpen := true, ret := some .opened }
  else s'.setClient c { cl with ret := some .transportUnavailable }

/-- The call of a public operation up to and including its RequestWrite: the range check comes first (R193), then the
channel (R191), then phase, client buffer and RequestWrite. A fault at the RequestWrite stops the transaction there. -/
def State.callOp (s : State) (c : Nat) (cl : Client) (op : PublicOp) : State :=
  if op.inRange = false then s.setClient c { cl with ret := some op.defaultResult }
  else if cl.chanOpen = false then (s.setClient c { cl with ret := none }).raise .notInitialised
  else
    let packet := op.packet s.params.codes
    let stopped := (s.requestFault c).isSome
    (s.setClient c { cl with phase := .awaiting op, cbuf := packet, stopped := stopped, ret := none }).requestWrite c packet

/-- Ends the transaction of client c when the buffer it has just read shows the sentinel (R191, R195, R215). -/
def Client.afterRead (cl : Client) (op : PublicOp) : Client :=
  if cl.cbuf.responseReady then { cl with phase := .noTxn, ret := some (op.decodeResponse cl.cbuf.b2) } else cl

/-- One iteration of client c's poll loop (R192): a ResponseRead, and the test of byte 0. A client that is in no
transaction, or whose transaction stopped at a fault, has no iteration to make. -/
def State.pollClient (s : State) (c : Nat) (cl : Client) : State :=
  match cl.phase with
  | .noTxn => s
  | .awaiting op =>
    if cl.stopped then s
    else
      let read := s.responseRead c
      match read.clients[c]? with
      | some cl' => read.setClient c (cl'.afterRead op)
      | none => read

end Sys2Proof.Machine
end

