-- ==== Sys2Proof/Machine/Schedule.lean ====
section
/-! DEFINITION. Whose step comes next (20_memory.md R67) and what that agent does. -/

namespace Sys2Proof.Machine

/-- The request in the buffer (42_commands.md R150, 30_encoding.md R85). -/
def State.request (s : State) : Request := decodeRequest s.params.codes s.buf.b0 s.buf.b1 s.buf.b2

/-- R150: the rule of the request in the buffer, run in one step. -/
def serviceWhole (s : State) : Host.Outcome State Fault Refusal :=
  match s.request with
  | .instr i => exec i s
  | .unrecognized _ _ _ => execUnrecognized s

/-- R150, access by access: the next access of the request in the buffer, or its commit (10_state.md R23). -/
def serviceNext (pos : Position) (s : State) : State := s.serviceAccess (requestCommand s.params.words s.request) pos

/-- The Dispatcher's step. It has none while IDLE, nor after shutdown (70_reset_and_hazards.md R263). A command that has
begun access by access goes on access by access. -/
def dispatcherTurn (s : State) : Host.Outcome State Fault Refusal :=
  if s.shutdown then .next s
  else match s.control with
    | .idle => .next s
    | .servicing pos => if pos = Position.start then serviceWhole s else .next (serviceNext pos s)

/-- The Dispatcher's step at the granularity of one register access (10_state.md R23, D27). -/
def dispatcherAccessTurn (s : State) : State :=
  if s.shutdown then s
  else match s.control with
    | .idle => s
    | .servicing pos => serviceNext pos s

/-- A step of client c: refused where there is no such client. -/
def withClient (c : Nat) (s : State) (step : Client → Host.Outcome State Fault Refusal) :
    Host.Outcome State Fault Refusal :=
  match s.clients[c]? with
  | some cl => step cl
  | none => .refused (.noSuchClient c)

/-- Something client c can only start outside a transaction. -/
def withFreeClient (c : Nat) (s : State) (step : Client → Host.Outcome State Fault Refusal) :
    Host.Outcome State Fault Refusal :=
  withClient c s fun cl => if cl.busy then .refused (.clientBusy c) else step cl

/-- A raw RequestWrite (20_memory.md R63, R64): three bytes, or no operation of the model. -/
def rawWriteTurn (c : Nat) (bytes : List Byte) (s : State) : Host.Outcome State Fault Refusal :=
  match bytes with
  | [b0, b1, b2] => .next (s.requestWrite c ⟨b0, b1, b2⟩)
  | _ => .refused (.wrongLength bytes.length)

/-- A raw ResponseRead (R63, R65): three bytes, or no operation of the model. -/
def rawReadTurn (c : Nat) (n : Nat) (s : State) : Host.Outcome State Fault Refusal :=
  if packetLengthValid n then .next (s.responseRead c) else .refused (.wrongLength n)

/-- Shutdown (70_reset_and_hazards.md R263): enabled only while IDLE with no owner. -/
def shutdownTurn (s : State) : Host.Outcome State Fault Refusal :=
  if s.control = .idle ∧ s.owner = none then .next { s with shutdown := true } else .refused .shutdownWhileOutstanding

/-- The loopback harness sets bits of an EDS word between transactions (20_memory.md R58). -/
def harnessTurn (bank : Bank) (mask : Word) (s : State) : Host.Outcome State Fault Refusal :=
  if s.params.periph = .loopback ∧ s.control = .idle ∧ s.owner = none then
    let i := s.params.words.bankWord .eds bank
    .next (s.withPort { s.port with mem := s.port.mem.write i (s.port.mem.read i ||| mask) })
  else .refused .harnessEventNotAllowed

/-- What one turn does. -/
def takeTurn (t : Turn) (s : State) : Host.Outcome State Fault Refusal :=
  match t with
  | .dispatcher => dispatcherTurn s
  | .dispatcherAccess => .next (dispatcherAccessTurn s)
  | .init c => withFreeClient c s fun cl => .next (s.initClient c cl)
  | .call c op => withFreeClient c s fun cl => .next (s.callOp c cl op)
  | .poll c => withClient c s fun cl => .next (s.pollClient c cl)
  | .rawWrite c bytes => withFreeClient c s fun _ => rawWriteTurn c bytes s
  | .rawRead c n => withFreeClient c s fun _ => rawReadTurn c n s
  | .shutdown => shutdownTurn s
  | .harnessEvent bank mask => harnessTurn bank mask s

/-- A client that has an iteration of its poll loop to make (43_framer.md R192). -/
def Client.polls (cl : Client) : Bool := cl.busy && !cl.stopped

/-- The turn taken when none is listed, to come or over and over: a loaded request is serviced first (weak fairness of
the Dispatcher, 43_framer.md R192), else the first polling client polls, else no agent has a step (log 13). -/
def State.defaultTurn (s : State) : Option Turn :=
  if s.control.isServicing && !s.shutdown then some .dispatcher
  else (s.clients.findIdx? Client.polls).map .poll

/-- The turns listed: those to come, or another round of those that follow over and over when none is left. Weak fairness
of the Dispatcher (43_framer.md R192) is a property of `again`, not of the machine: without a Dispatcher turn in it the
run can go on for ever and never commit (93_implementation_defined.md U8). -/
def State.listedTurns (s : State) : List Turn :=
  match s.turns with
  | [] => s.again
  | t :: rest => t :: rest

/-- The next turn, and the state with that turn taken off the schedule. -/
def State.nextTurn (s : State) : Option Turn × State :=
  match s.listedTurns with
  | t :: rest => (some t, { s with turns := rest })
  | [] => (s.defaultTurn, s)

/-- The next agent's step; where no agent has one the state stays as it is. -/
def runNextTurn (s : State) : Host.Outcome State Fault Refusal :=
  match s.nextTurn with
  | (some t, s') => takeTurn t s'
  | (none, s') => .next s'

/-- Loads a packet as a RequestWrite of the owner (client 0 where there is none) would, with the Dispatcher's turn next
(log 14). -/
def State.place (s : State) (bytes : List Byte) : State :=
  { s with
    buf := ⟨bytes.getD 0 0, bytes.getD 1 0, bytes.getD 2 0⟩
    control := .servicing Position.start
    owner := some (s.owner.getD 0)
    shutdown := false
    turns := .dispatcher :: s.turns }

end Sys2Proof.Machine
end

