-- ==== Sys2Proof/Machine/Step.lean ====
section
/-! DEFINITION. One step of the machine: one turn of one agent (20_memory.md R67). -/

namespace Sys2Proof.Machine

/-- One step. Parameters that break their conditions (R53, R84, 00_scope.md R8) are no machine of the spec. -/
def step (s : State) : Host.Outcome State Fault Refusal :=
  if s.params.conditionsHold s.clients.length then runNextTurn s else .fault .parameterCondition

/-- The state with the packet of an opcode-table word (30_encoding.md R89) loaded and the Dispatcher's turn next, so that
the next step services it (log 14). -/
def State.withFetchWord (s : State) (nbits w : Nat) : State := s.place (unpack (w % 2 ^ nbits))

end Sys2Proof.Machine
end

