-- ==== Sys2Proof/Machine/Assembler.lean ====
section
/-! DEFINITION. The spec's assembly syntax (30_encoding.md R90), as its line forms and not as text. -/

namespace Sys2Proof.Machine

/-- The mnemonics written with a pin alone: RESET_PIN and the getters. -/
inductive PinMnemonic where
  | resetPin | getLevel | getMode | getEvent | getRedge | getFedge | getAredge | getAfedge | getHdetect | getLdetect
  deriving DecidableEq, Repr

/-- The mnemonics written with a pin and a value: the setters. -/
inductive ValueMnemonic where
  | setLevel | setMode | setPull | setRedge | setFedge | setAredge | setAfedge | setHdetect | setLdetect
  deriving DecidableEq, Repr

/-- A value operand: a number, or a name that stands for its code. -/
inductive AsmValue where
  | number (v : Byte)
  | mode (m : PinMode)
  | pull (p : PullMode)
  | bool (b : Bool)
  deriving DecidableEq, Repr

/-- A line of R90. -/
inductive AsmLine where
  | pinForm (mn : PinMnemonic) (pin : Byte)
  | valueForm (mn : ValueMnemonic) (pin : Byte) (v : AsmValue)
  | pkt (b0 b1 b2 : Byte)
  deriving DecidableEq, Repr

/-- The command of a line with a pin alone; the byte it sends in place of a value is 0. -/
def PinMnemonic.instr (pin : Byte) : PinMnemonic → Instr
  | .resetPin => .resetPin pin 0
  | .getLevel => .getLevel pin 0
  | .getMode => .getMode pin 0
  | .getEvent => .getEvent pin 0
  | .getRedge => .getRedge pin 0
  | .getFedge => .getFedge pin 0
  | .getAredge => .getAredge pin 0
  | .getAfedge => .getAfedge pin 0
  | .getHdetect => .getHdetect pin 0
  | .getLdetect => .getLdetect pin 0

/-- The command of a line with a pin and a value. -/
def ValueMnemonic.instr (pin v : Byte) : ValueMnemonic → Instr
  | .setLevel => .setLevel pin v
  | .setMode => .setMode pin v
  | .setPull => .setPull pin v
  | .setRedge => .setRedge pin v
  | .setFedge => .setFedge pin v
  | .setAredge => .setAredge pin v
  | .setAfedge => .setAfedge pin v
  | .setHdetect => .setHdetect pin v
  | .setLdetect => .setLdetect pin v

/-- The byte a value operand stands for: mode names for SET_MODE, pull names for SET_PULL, true and false for the rest. -/
def ValueMnemonic.operand : ValueMnemonic → AsmValue → Option Byte
  | _, .number v => some v
  | .setMode, .mode m => some m.code
  | .setPull, .pull p => some p.code
  | .setLevel, .bool b => some (boolByte b)
  | .setRedge, .bool b => some (boolByte b)
  | .setFedge, .bool b => some (boolByte b)
  | .setAredge, .bool b => some (boolByte b)
  | .setAfedge, .bool b => some (boolByte b)
  | .setHdetect, .bool b => some (boolByte b)
  | .setLdetect, .bool b => some (boolByte b)
  | _, _ => none

/-- The packet a line assembles to (R90); none where a name does not fit its mnemonic. -/
def assemble (m : CodeMap) : AsmLine → Option (List Byte)
  | .pinForm mn pin => some (encode m (mn.instr pin))
  | .valueForm mn pin v => (mn.operand v).map fun b => encode m (mn.instr pin b)
  | .pkt b0 b1 b2 => some [b0, b1, b2]

end Sys2Proof.Machine
end

