-- ==== Sys2Proof/Safety.lean ====
section
/-! DEFINITION. What claims are stated in: what a served request changes and leaves, which words each command may reach,
when a run has ended, servicing access by access as a run of its own, and the invariant that holds from start-up on. -/

namespace Sys2Proof

open Machine

/-- Everything a command never touches: all of the state but the register side, `buf` and the control state. -/
def Untouched (s t : State) : Prop :=
  t.params = s.params ∧ t.owner = s.owner ∧ t.clients = s.clients ∧ t.faults = s.faults ∧ t.shutdown = s.shutdown ∧
    t.opens = s.opens ∧ t.turns = s.turns ∧ t.again = s.again

/-- The request of s has been answered in t with byte 2 being `b2` (42_commands.md R151): byte 0 is 0xFF, byte 1 is
unchanged, the Dispatcher is IDLE, and nothing but the register side may differ besides. -/
def Answered (s t : State) (b2 : Byte) : Prop :=
  t.buf = ⟨0xFF, s.buf.b1, b2⟩ ∧ t.control = .idle ∧ Untouched s t

/-- From s to t exactly the accesses `l` were made, in that order (20_memory.md R60, R61). -/
def Accessed (s t : State) (l : List RegEvent) : Prop := t.port.history = s.port.history ++ l

/-- Every stored word outside `ws` reads in t as it read in s. -/
def WordsKeptOutside (s t : State) (ws : List Nat) : Prop := ∀ a, a ∉ ws → t.port.mem.read a = s.port.mem.read a

/-- The stored words of t differ from those of s at most at `w`, which holds `x`. -/
def StoredOnly (s t : State) (w : Nat) (x : Word) : Prop :=
  t.port.mem.read w = x ∧ WordsKeptOutside s t [w]

/-- The latches of the loopback mock are as they were. -/
def LatchesKept (s t : State) : Prop := t.port.out0 = s.port.out0 ∧ t.port.out1 = s.port.out1

/-- What a read of a volatile word gives in s: a free value in the general model (20_memory.md R56(b)), what the mock
holds there in the loopback model (R58). -/
def volatileRead (s : State) (mock : Word) : Word :=
  match s.params.periph with
  | .general => Config.freeWord s.port.draws
  | .loopback => mock

/-- How many free words have been drawn after one read of a volatile word in s: one more in the general model, where every
read is a fresh draw (20_memory.md R56(b)), and no more in the loopback model (R58). -/
def drawsAfterVolatileRead (s : State) : Nat :=
  match s.params.periph with
  | .general => s.port.draws + 1
  | .loopback => s.port.draws

/-- 1 for true and 0 for false in byte 2 (00_scope.md R13). -/
def flagByte (b : Bool) : Byte := if b then 1 else 0

/-- The word of a two-bank family that holds a pin, read off 10_state.md R28(a): pins 0..31 in bank 0, 32..53 in
bank 1. -/
def wordOf (m : WordMap) (f : BankFamily) (pin : Byte) : Nat :=
  if pin.toNat < 32 then m.bankWord f .bank0 else m.bankWord f .bank1

/-- The bit of a pin in a two-bank family, read off R28(a): "selected bit = pin mod 32". -/
def bitOf (pin : Byte) : Nat := pin.toNat % 32

/-- The word with only the pin's bit set (40_mapper.md R102). -/
def maskOf (pin : Byte) : Word := 1#32 <<< bitOf pin

/-- The two words of a two-bank family. -/
def pairWords (m : WordMap) (f : BankFamily) : List Nat := [m.bankWord f .bank0, m.bankWord f .bank1]

/-- The function-select words. -/
def fselWords (m : WordMap) : List Nat := [m.fsel0, m.fsel1, m.fsel2, m.fsel3, m.fsel4, m.fsel5]

/-- The function-select word that holds a pin: bucket `pin / 10` (R28(b), R14). -/
def fieldWordOf (m : WordMap) (pin : Byte) : Nat := (fselWords m).getD (pin.toNat / 10) 0

/-- The offset of a pin's 3-bit field (40_mapper.md R103). -/
def offsetOf (pin : Byte) : Nat := 3 * (pin.toNat % 10)

/-- The words of the families a command reaches (10_state.md R30, column "commands"). -/
def Instr.familyWords (m : WordMap) : Instr → List Nat
  | .resetPin _ _ =>
    fselWords m ++ [m.pud] ++ pairWords m .pudclk ++ pairWords m .eds ++ pairWords m .ren ++ pairWords m .fen ++
      pairWords m .aren ++ pairWords m .afen ++ pairWords m .hen ++ pairWords m .len
  | .setLevel _ _ => pairWords m .set ++ pairWords m .clr
  | .getLevel _ _ => pairWords m .lev
  | .setMode _ _ => fselWords m
  | .getMode _ _ => fselWords m
  | .setPull _ _ => m.pud :: pairWords m .pudclk
  | .getEvent _ _ => pairWords m .eds
  | .setRedge _ _ => pairWords m .ren
  | .getRedge _ _ => pairWords m .ren
  | .setFedge _ _ => pairWords m .fen
  | .getFedge _ _ => pairWords m .fen
  | .setAredge _ _ => pairWords m .aren
  | .getAredge _ _ => pairWords m .aren
  | .setAfedge _ _ => pairWords m .afen
  | .getAfedge _ _ => pairWords m .afen
  | .setHdetect _ _ => pairWords m .hen
  | .getHdetect _ _ => pairWords m .hen
  | .setLdetect _ _ => pairWords m .len
  | .getLdetect _ _ => pairWords m .len

/-- The word a register event accesses. -/
def eventWord : RegEvent → Nat
  | .rd i _ => i
  | .wr i _ => i

/-- The register words a run can compare: what they hold, and the mock's latches, but not the history nor the count
of draws. -/
def registerState (q : Port) : Memory × Word × Word := (q.mem, q.out0, q.out1)

/-- No model fault has been recorded. -/
def noFaults (s : State) : Bool := decide (s.faults = FaultSet.empty)

/-- 43_framer.md R216: every client is in no transaction, the Dispatcher is IDLE, nobody owns a transaction, and no
fault is recorded. -/
def isFinal (s : State) : Bool :=
  s.clients.all (fun cl => !cl.busy) && decide (s.control = .idle) && decide (s.owner = none) && noFaults s

/-- n Dispatcher turns of one register access each (10_state.md R23). -/
def accessTurns : Nat → State → State
  | 0, s => s
  | n + 1, s => accessTurns n (dispatcherAccessTurn s)

/-- The turn is the Dispatcher's. -/
def turnIsDispatchers : Turn → Bool
  | .dispatcher => true
  | .dispatcherAccess => true
  | .init _ => false
  | .call _ _ => false
  | .poll _ => false
  | .rawWrite _ _ => false
  | .rawRead _ _ => false
  | .shutdown => false
  | .harnessEvent _ _ => false

/-- The turn is the loopback test harness's. -/
def turnIsHarness : Turn → Bool
  | .dispatcher => false
  | .dispatcherAccess => false
  | .init _ => false
  | .call _ _ => false
  | .poll _ => false
  | .rawWrite _ _ => false
  | .rawRead _ _ => false
  | .shutdown => false
  | .harnessEvent _ _ => true

/-- The client a turn has write a request, if it has one do so. -/
def turnRequester : Turn → Option Nat
  | .dispatcher => none
  | .dispatcherAccess => none
  | .init _ => none
  | .call c _ => some c
  | .poll _ => none
  | .rawWrite c _ => some c
  | .rawRead _ _ => none
  | .shutdown => none
  | .harnessEvent _ _ => none

/-- What holds of a client inside a transaction that has not stopped at a fault (43_framer.md R191, R215): it owns the
transaction, and while its request is being serviced the buffer holds the packet it sent. -/
def ClientInv (s : State) (c : Nat) (cl : Client) : Prop :=
  ∀ op, cl.phase = .awaiting op → cl.stopped = false →
    s.owner = some c ∧ (s.control.isServicing = true → s.buf = op.packet s.params.codes)

/-- The invariant of every run: the parameters meet their conditions (20_memory.md R53, 30_encoding.md R84, 00_scope.md
R8); the bank's
words are canonical and lie in the bank; a request being serviced has an owner; an owner is a client; after shutdown
nothing is outstanding (70_reset_and_hazards.md R263); an answered request shows the sentinel (42_commands.md R172); and
every client is in step with the Dispatcher. -/
def Inv (s : State) : Prop :=
  s.params.conditionsHold s.clients.length = true ∧
  s.port.mem.wf = true ∧
  (∀ cell ∈ s.port.mem, cell.1 < s.params.nwords) ∧
  (s.control.isServicing = true → s.owner ≠ none) ∧
  (∀ c, s.owner = some c → c < s.clients.length) ∧
  (s.shutdown = true → s.control = .idle ∧ s.owner = none) ∧
  (s.control = .idle → s.owner ≠ none → s.buf.b0 = 0xFF) ∧
  (∀ c cl, s.clients[c]? = some cl → ClientInv s c cl)

/-- The outcome with the wait policy of its state replaced. -/
def withWaitPolicy (w : WaitPolicy) (s : State) : State := { s with params := { s.params with waitPolicy := w } }

/-- `withWaitPolicy` on the state of an outcome. -/
def outcomeWithWaitPolicy (w : WaitPolicy) :
    Host.Outcome State Fault Refusal → Host.Outcome State Fault Refusal
  | .next t => .next (withWaitPolicy w t)
  | .fault r => .fault r
  | .refused r => .refused r

end Sys2Proof
end

