-- ==== Sys2Proof/Certificates/Slice0/Obligations.lean ====
section
/-! DEFINITION. The statements for the provers, from the numbered rules of spec/. A hypothesis names only the state and
the operands. Statements about a next state conclude that there is one. -/

open Sys2Proof Sys2Proof.Machine

/-- stated R85. For every code map that meets its condition: the code of a command with any P and V decodes to that
command with those operands; a code that no command has decodes to UNRECOGNIZED; and changing P and V never changes
which command a code selects. -/
def Obligations.DecodeFollowsTheCodeMap : Prop :=
    ∀ m : CodeMap, m.wellFormed = true →
    (∀ i : Instr, decodeRequest m (m.code i) i.pin i.value = .instr i) ∧
    (∀ c p v : Byte, (∀ i : Instr, m.code i ≠ c) → decodeRequest m c p v = .unrecognized c p v) ∧
    (∀ (i : Instr) (p v : Byte), ∃ j : Instr,
      decodeRequest m (m.code i) p v = .instr j ∧ m.code j = m.code i ∧ j.pin = p ∧ j.value = v)

/-- derived R80, R81, R85, 30_encoding.md section 2. For every code map that meets its condition and every instruction,
with every operand byte: the bytes the encoder writes decode to that instruction. -/
def Obligations.DecodeEncodeRoundTrip : Prop :=
    ∀ m : CodeMap, m.wellFormed = true → ∀ i : Instr, decode m (encode m i) = .request (.instr i)

/-- derived R80, R81, 30_encoding.md section 1. For every code map and every string of bytes that decodes to an
instruction, encoding the instruction gives those bytes. -/
def Obligations.EncodeDecodeRoundTrip : Prop :=
    ∀ (m : CodeMap) (bytes : List Byte) (i : Instr), decode m bytes = .request (.instr i) → encode m i = bytes

/-- derived R86, 30_encoding.md R83 (log 3: the default CMD_CODE). Under the default code map, a model's choice named in
log 3, a code decodes to UNRECOGNIZED exactly when it is 19 or more. -/
def Obligations.UnrecognizedUnderTheDefaultMap : Prop :=
    ∀ c p v : Byte, decodeRequest defaultCodes c p v = .unrecognized c p v ↔ 19 ≤ c.toNat

/-- derived R83, R89, spec/opcode_table.json (log 3: the default CMD_CODE), log 31 (none for a code of no command), log 32
(operands out of range decode). Under the default code map (log 3): seven packed words, one of each family, decode to
the instruction of their row with the operands their bytes hold. -/
def Obligations.OpcodeTableWordsDecode : Prop :=
    decodeTableWord 24 0x09C800 = some (.resetPin 200 9) ∧
    decodeTableWord 24 0x021F01 = some (.setLevel 31 2) ∧
    decodeTableWord 24 0x010D03 = some (.setMode 13 1) ∧
    decodeTableWord 24 0x020405 = some (.setPull 4 2) ∧
    decodeTableWord 24 0x000406 = some (.getEvent 4 0) ∧
    decodeTableWord 24 0xFF200B = some (.setAredge 32 255) ∧
    decodeTableWord 24 0x002A12 = some (.getLdetect 42 0) ∧
    decodeTableWord 24 0x2A0513 = none

/-- derived R63, R88, 92_eei_decisions.md D15: other lengths are refused (log 23). For every code map, a string of bytes
is refused as no packet of length n exactly when its length is n and n is not 3. -/
def Obligations.OtherLengthsAreNoPacket : Prop :=
    ∀ (m : CodeMap) (bytes : List Byte) (n : Nat), decode m bytes = .notAPacket n ↔ bytes.length = n ∧ n ≠ 3

/-- derived R90, R32, R33, 30_encoding.md section 3, log 33 (lines as data). For every code map and pin: each of the ten
mnemonics with a pin alone assembles to [CMD_CODE, pin, 0]; each of the nine with a value assembles any number v to
[CMD_CODE, pin, v]; a mode name stands for its code of R32 in SET_MODE, a pull name for its code of R33 in SET_PULL,
and true and false for 1 and 0 in the other seven setters; a raw line gives its three bytes. When the code map meets
its condition, each mnemonic's packet decodes to its command, with those operands. Lines are data and not text (log
33). -/
def Obligations.AssembledLinesDecode : Prop :=
    ∀ (m : CodeMap) (pin : Byte),
    (∀ row ∈ [(PinMnemonic.resetPin, m.resetPin), (.getLevel, m.getLevel), (.getMode, m.getMode),
        (.getEvent, m.getEvent), (.getRedge, m.getRedge), (.getFedge, m.getFedge),
        (.getAredge, m.getAredge), (.getAfedge, m.getAfedge), (.getHdetect, m.getHdetect),
        (.getLdetect, m.getLdetect)],
      assemble m (.pinForm row.1 pin) = some [row.2, pin, 0]) ∧
    (∀ row ∈ [(ValueMnemonic.setLevel, m.setLevel), (.setMode, m.setMode), (.setPull, m.setPull),
        (.setRedge, m.setRedge), (.setFedge, m.setFedge), (.setAredge, m.setAredge),
        (.setAfedge, m.setAfedge), (.setHdetect, m.setHdetect), (.setLdetect, m.setLdetect)],
      ∀ v : Byte, assemble m (.valueForm row.1 pin (.number v)) = some [row.2, pin, v]) ∧
    (∀ row ∈ [(PinMode.input, (0 : Byte)), (.output, 1), (.alt5, 2), (.alt4, 3), (.alt0, 4), (.alt1, 5), (.alt2, 6), (.alt3, 7)],
      assemble m (.valueForm .setMode pin (.mode row.1)) = some [m.setMode, pin, row.2]) ∧
    (∀ row ∈ [(PullMode.noPull, (0 : Byte)), (.pullDown, 1), (.pullUp, 2)],
      assemble m (.valueForm .setPull pin (.pull row.1)) = some [m.setPull, pin, row.2]) ∧
    (∀ row ∈ [(ValueMnemonic.setLevel, m.setLevel), (.setRedge, m.setRedge), (.setFedge, m.setFedge),
        (.setAredge, m.setAredge), (.setAfedge, m.setAfedge), (.setHdetect, m.setHdetect),
        (.setLdetect, m.setLdetect)],
      assemble m (.valueForm row.1 pin (.bool true)) = some [row.2, pin, 1] ∧
      assemble m (.valueForm row.1 pin (.bool false)) = some [row.2, pin, 0]) ∧
    (∀ b0 b1 b2 : Byte, assemble m (.pkt b0 b1 b2) = some [b0, b1, b2]) ∧
    (m.wellFormed = true →
      (∀ mn : PinMnemonic, ∃ bytes, assemble m (.pinForm mn pin) = some bytes ∧
        decode m bytes = .request (.instr (mn.instr pin)) ∧ (mn.instr pin).pin = pin ∧ (mn.instr pin).value = 0) ∧
      (∀ (mn : ValueMnemonic) (x : AsmValue) (bytes : List Byte), assemble m (.valueForm mn pin x) = some bytes →
        ∃ v, mn.operand x = some v ∧ decode m bytes = .request (.instr (mn.instr pin v)) ∧
          (mn.instr pin v).pin = pin ∧ (mn.instr pin v).value = v))

/-- stated R101. For every two-bank family and pin 0..53: locate gives the bank-0 word for pin < 32 and the bank-1 word
otherwise, with bit offset pin & 31; that offset is pin mod 32; and a bank-1 offset is at most 21. -/
def Obligations.SingleBitMapping : Prop :=
    ∀ (m : WordMap) (f : BankFamily) (pin : Byte), pin.toNat ≤ 53 →
    locate m pin (.bank f) =
      some (if pin.toNat < 32 then m.bankWord f .bank0 else m.bankWord f .bank1, (pin &&& 31).toNat) ∧
    (pin &&& 31).toNat = pin.toNat % 32 ∧
    (32 ≤ pin.toNat → (pin &&& 31).toNat ≤ 21)

/-- stated R103. For every pin 0..53: locate in FSEL gives the word of bucket pin / 10 (0..5) and the offset 3 * (pin %
10), which is at most 27 and a multiple of 3, and the field mask is 7 shifted there. -/
def Obligations.FunctionSelectMapping : Prop :=
    ∀ (m : WordMap) (pin : Byte), pin.toNat ≤ 53 →
    ∃ w, [m.fsel0, m.fsel1, m.fsel2, m.fsel3, m.fsel4, m.fsel5][pin.toNat / 10]? = some w ∧
      locate m pin .fsel = some (w, 3 * (pin.toNat % 10)) ∧
      3 * (pin.toNat % 10) ≤ 27 ∧
      fmask pin = 7#32 <<< (3 * (pin.toNat % 10))

/-- stated R105, R130. For every pin 54..255: locate gives none for every per-pin family, and each engine primitive that
takes a pin is the empty sequence of accesses, with the result 0 or false where it returns one. -/
def Obligations.InvalidPinMakesNoAccess : Prop :=
    ∀ (m : WordMap) (pin : Byte), 53 < pin.toNat →
    (∀ f : PinFamily, locate m pin f = none) ∧
    setBit m pin = .done () ∧ clearBit m pin = .done () ∧
    (∀ f : BankFamily, readBit m f pin = .done false) ∧ readField m pin = .done 0 ∧
    (∀ v : Byte, updateField m pin v = .done ()) ∧
    (∀ (f : BankFamily) (en : Bool), writeBit m f pin en = .done ()) ∧
    (∀ v : Byte, setPull m pin v = .done ()) ∧ eventDetected m pin = .done false

/-- stated R104. Every pin 0..53 lies in bucket pin / 10, buckets 0..4 holding pins 10k..10k+9 and bucket 5 pins 50..53;
two distinct valid pins have different (bucket, offset) and different (bank, bit); and so, for every word map that
meets its condition, they are located at different places in every family. -/
def Obligations.DistinctPinsShareNoPlace : Prop :=
    (∀ pin : Byte, pin.toNat ≤ 53 →
      pinBucket pin ≤ 5 ∧ 10 * pinBucket pin ≤ pin.toNat ∧ pin.toNat ≤ 10 * pinBucket pin + 9) ∧
    (∀ p q : Byte, p.toNat ≤ 53 → q.toNat ≤ 53 → p ≠ q →
      (pinBucket p, pinFieldOffset p) ≠ (pinBucket q, pinFieldOffset q) ∧ (pinBank p, pinBit p) ≠ (pinBank q, pinBit q)) ∧
    (∀ (m : WordMap) (nwords : Nat) (p q : Byte) (f : PinFamily), m.wellFormed nwords = true → p.toNat ≤ 53 →
      q.toNat ≤ 53 → p ≠ q → locate m p f ≠ locate m q f)

/-- derived R107, R125, R126, 40_mapper.md section 2, log 34 (offsets of pins above 53), 92_eei_decisions.md D8: how
enables are written and fields read (log 21). For every word x, pin and value 0..7, with j the pin's place 0..9 in its
bucket: the field read is the j-th base-8 digit of x, and the updated word is x with that digit replaced by the value,
as an equation between natural numbers. R107 speaks of pins 0..53; that the offset of a pin above 53 is given by the
same formula is the model's choice (log 34). -/
def Obligations.FieldArithmeticIsExact : Prop :=
    ∀ (x : Word) (pin value : Byte), value.toNat ≤ 7 →
    let j := pin.toNat % 10
    (wordField x (pinFieldOffset pin)).toNat = x.toNat / 8 ^ j % 8 ∧
    (updateWord x (pinFieldOffset pin) value).toNat =
      x.toNat / 8 ^ (j + 1) * 8 ^ (j + 1) + value.toNat * 8 ^ j + x.toNat % 8 ^ j

/-- derived R275, R31, 10_state.md section 4, 92_eei_decisions.md D8: how enables are written and fields read (log 21).
For bank-1 pins 32..53 the single-bit mask has no bit in 22..31, and assigning the pin's bit keeps bits 22..31 of the
word; for every valid pin and value 0..7 a field update keeps bits 30 and 31, and for pins 50..53 bits 12..31. Rests
on choices of the spec or of the model: a derivation of the spec. -/
def Obligations.UnusedBitsAreSpared : Prop :=
    (∀ pin : Byte, 32 ≤ pin.toNat → pin.toNat ≤ 53 → ∀ j, 22 ≤ j →
      (bitmask pin).getLsbD j = false ∧
      ∀ (x : Word) (en : Bool), (assignBit x (pinBit pin) en).getLsbD j = x.getLsbD j) ∧
    (∀ (pin value : Byte) (x : Word), pin.toNat ≤ 53 → value.toNat ≤ 7 → ∀ j, (30 ≤ j ∨ 50 ≤ pin.toNat ∧ 12 ≤ j) →
      (updateWord x (pinFieldOffset pin) value).getLsbD j = x.getLsbD j)

/-- derived R126, R31, 41_register_engine.md section 4, 92_eei_decisions.md D8: how enables are written and fields read
(log 21). For valid pins p and q and a value 0..7: after the field of p is updated with the value, the field of p
reads as the value, and the field of q, when its offset differs, reads as before. -/
def Obligations.FieldUpdateKeepsOtherPins : Prop :=
    ∀ (p q value : Byte) (x : Word), p.toNat ≤ 53 → q.toNat ≤ 53 → value.toNat ≤ 7 →
    wordField (updateWord x (pinFieldOffset p) value) (pinFieldOffset q) =
      if pinFieldOffset q = pinFieldOffset p then zext32 value else wordField x (pinFieldOffset q)

/-- derived R127, R31, 41_register_engine.md section 4, 92_eei_decisions.md D8: how enables are written and fields read
(log 21). For bits b and j below 32: after bit b of a word is assigned, bit b reads as assigned and every other bit as
before. -/
def Obligations.BitAssignmentKeepsOtherBits : Prop :=
    ∀ (x : Word) (b j : Nat) (en : Bool), b < 32 → j < 32 →
    wordBit (assignBit x b en) j = if j = b then en else wordBit x j

/-- derived R152, R128, R129, 42_commands.md section 2; order of the steps: log 22, 92_eei_decisions.md D8: how enables
are written and fields read (log 21), 92_eei_decisions.md D9: the whole word is written back (log 21), log 8 (the EDS
word a free value), 92_eei_decisions.md D11: exactly two writes (log 22), 92_eei_decisions.md D12, D14: stored words,
sole writer, order (log 23), log 16 (the latches of the mock, D13), log 25 (writes to LEV, EDS, SET, CLR store
nothing), log 1 (servicing in one step). RESET_PIN answers with bytes 1 and 2 kept. On a valid pin it makes exactly
the accesses of its nine steps in their order (the spec's own choice where the source is silent, log 22): six read-
modify-writes that clear the pin's enable bits, PUD 0, the PUDCLK mask, the function-select field cleared, a read of
EDS, and its write-back when the pin's bit is set; the words end so and every other stored word and the latches are
kept. On pins 54..255 the register side is unchanged. The word read from EDS is a free value in the general model,
where the read uses up one draw, and the stored word in the loopback model, where it uses up none. Rests on choices of
the spec or of the model: 92 D8, D9, D10, D11, logs 21, 22; EDS a free value: log 8. -/
def Obligations.ResetPinRunsItsNineSteps : Prop :=
    ∀ (s : State) (pin value : Byte), s.params.wellFormed = true → s.port.mem.wf = true →
    ∃ t, exec (.resetPin pin value) s = .next t ∧ Answered s t s.buf.b2 ∧
      (53 < pin.toNat → t.port = s.port) ∧
      (pin.toNat ≤ 53 →
        let m := s.params.words
        let r := s.port.mem.read
        let cleared := fun f => r (wordOf m f pin) &&& ~~~ maskOf pin
        let field := r (fieldWordOf m pin) &&& ~~~ (7#32 <<< offsetOf pin)
        let eds := volatileRead s (r (wordOf m .eds pin))
        Accessed s t
          ([.rd (wordOf m .hen pin) (r (wordOf m .hen pin)), .wr (wordOf m .hen pin) (cleared .hen),
            .rd (wordOf m .len pin) (r (wordOf m .len pin)), .wr (wordOf m .len pin) (cleared .len),
            .rd (wordOf m .ren pin) (r (wordOf m .ren pin)), .wr (wordOf m .ren pin) (cleared .ren),
            .rd (wordOf m .fen pin) (r (wordOf m .fen pin)), .wr (wordOf m .fen pin) (cleared .fen),
            .rd (wordOf m .aren pin) (r (wordOf m .aren pin)), .wr (wordOf m .aren pin) (cleared .aren),
            .rd (wordOf m .afen pin) (r (wordOf m .afen pin)), .wr (wordOf m .afen pin) (cleared .afen),
            .wr m.pud 0, .wr (wordOf m .pudclk pin) (maskOf pin),
            .rd (fieldWordOf m pin) (r (fieldWordOf m pin)), .wr (fieldWordOf m pin) field,
            .rd (wordOf m .eds pin) eds] ++
           if eds.getLsbD (bitOf pin) then [.wr (wordOf m .eds pin) eds] else []) ∧
        (∀ f ∈ [BankFamily.hen, .len, .ren, .fen, .aren, .afen], t.port.mem.read (wordOf m f pin) = cleared f) ∧
        t.port.mem.read m.pud = 0 ∧ t.port.mem.read (wordOf m .pudclk pin) = maskOf pin ∧
        t.port.mem.read (fieldWordOf m pin) = field ∧
        WordsKeptOutside s t
          [wordOf m .hen pin, wordOf m .len pin, wordOf m .ren pin, wordOf m .fen pin, wordOf m .aren pin,
           wordOf m .afen pin, m.pud, wordOf m .pudclk pin, fieldWordOf m pin] ∧
        LatchesKept s t ∧ t.port.draws = drawsAfterVolatileRead s)

/-- derived R153, R122, R123, 92_eei_decisions.md D4: V = 2..255 counts as true (log 19), log 16 (the latches of the mock,
D13), log 25 (writes to LEV, EDS, SET, CLR store nothing), log 1 (servicing in one step). SET_LEVEL answers with bytes
1 and 2 kept. On a valid pin it makes exactly one access, the write of the pin's mask, to the pin's SET word when V is
nonzero and to its CLR word when V is 0, and no stored word changes; in the general model the latches are kept too. On
pins 54..255 the register side is unchanged. Rests on choices of the spec or of the model: 92 D4, log 19. -/
def Obligations.SetLevelWritesOneMask : Prop :=
    ∀ (s : State) (pin value : Byte),
    ∃ t, exec (.setLevel pin value) s = .next t ∧ Answered s t s.buf.b2 ∧
      (53 < pin.toNat → t.port = s.port) ∧
      (pin.toNat ≤ 53 →
        Accessed s t [.wr (wordOf s.params.words (if value = 0 then .clr else .set) pin) (maskOf pin)] ∧
        t.port.draws = s.port.draws ∧
        (s.params.wellFormed = true → t.port.mem = s.port.mem) ∧
        (s.params.wellFormed = true → s.params.periph = .general → LatchesKept s t))

/-- derived R58, R153, R57, 92_eei_decisions.md D4: V = 2..255 counts as true (log 19), 92_eei_decisions.md D13: the mock
is the spec's own definition (log 16), log 1 (servicing in one step). In the loopback model, on a valid pin: SET_LEVEL
with V nonzero ors the pin's mask into the latch of the pin's bank, with V = 0 clears it there; the other latch is
kept. Rests on choices of the spec or of the model: 92 D4, D13, logs 16, 19. -/
def Obligations.LoopbackSetLevelDrivesTheLatch : Prop :=
    ∀ (s : State) (pin value : Byte), s.params.wellFormed = true → s.params.periph = .loopback → pin.toNat ≤ 53 →
    ∃ t, exec (.setLevel pin value) s = .next t ∧
      let drive := fun x : Word => if value = 0 then x &&& ~~~ maskOf pin else x ||| maskOf pin
      t.port.out0 = (if pin.toNat < 32 then drive s.port.out0 else s.port.out0) ∧
      t.port.out1 = (if pin.toNat < 32 then s.port.out1 else drive s.port.out1)

/-- derived R154, R124, 92_eei_decisions.md D5: a boolean result is 1 or 0 (log 19), 92_eei_decisions.md D6: a getter on
pins 54..255 writes 0 (log 20), log 8 (the LEV word a free value), log 16 (the latches of the mock, D13), log 1
(servicing in one step). GET_LEVEL answers with byte 2 being 1 or 0 for the pin's bit of the word it read. On a valid
pin it makes exactly one access, the read of the pin's LEV word, whose value is a free value in the general model,
where it uses up one draw, and the latch of the pin's bank in the loopback model, where it uses up none; stored words
and latches are kept. On pins 54..255 the register side is unchanged and byte 2 is 0. Rests on choices of the spec or
of the model: 92 D5, D6, logs 19, 20; LEV a free value: log 8. -/
def Obligations.GetLevelReadsThePinsBit : Prop :=
    ∀ (s : State) (pin value : Byte), s.params.wellFormed = true →
    ∃ t, exec (.getLevel pin value) s = .next t ∧
      (53 < pin.toNat → Answered s t 0 ∧ t.port = s.port) ∧
      (pin.toNat ≤ 53 →
        let x := volatileRead s (if pin.toNat < 32 then s.port.out0 else s.port.out1)
        Answered s t (flagByte (x.getLsbD (bitOf pin))) ∧
        Accessed s t [.rd (wordOf s.params.words .lev pin) x] ∧ t.port.mem = s.port.mem ∧ LatchesKept s t ∧
        t.port.draws = drawsAfterVolatileRead s)

/-- derived R155, R126, 92_eei_decisions.md D7: the engine checks the value too (log 20), 92_eei_decisions.md D9: the
whole word is written back (log 21), 92_eei_decisions.md D12, D14: stored words, sole writer, order (log 23), log 16
(the latches of the mock, D13), log 1 (servicing in one step). SET_MODE answers with bytes 1 and 2 kept. On a valid
pin and a mode 0..7 it makes exactly two accesses, the read of the pin's function-select word and the write of that
word with its field replaced by the mode, stores it, and keeps every other stored word and the latches. No free value
is drawn. On pins 54..255 or modes 8..255 the register side is unchanged, as it is for SET_PULL with a pull 3..255.
Rests on choices of the spec or of the model: 92 D7, log 20. -/
def Obligations.SetModeUpdatesTheField : Prop :=
    ∀ (s : State) (pin value : Byte), s.params.wellFormed = true → s.port.mem.wf = true →
    (∃ t, exec (.setMode pin value) s = .next t ∧ Answered s t s.buf.b2 ∧
      (53 < pin.toNat ∨ 7 < value.toNat → t.port = s.port) ∧
      (pin.toNat ≤ 53 → value.toNat ≤ 7 →
        let w := fieldWordOf s.params.words pin
        let x := s.port.mem.read w
        let x' := (x &&& ~~~ (7#32 <<< offsetOf pin)) ||| (value.setWidth 32 <<< offsetOf pin)
        Accessed s t [.rd w x, .wr w x'] ∧ StoredOnly s t w x' ∧ LatchesKept s t ∧ t.port.draws = s.port.draws)) ∧
    (2 < value.toNat → ∃ t, exec (.setPull pin value) s = .next t ∧ t.port = s.port)

/-- derived R156, R125, 92_eei_decisions.md D6: a getter on pins 54..255 writes 0 (log 20), 92_eei_decisions.md D8: how
enables are written and fields read (log 21), 92_eei_decisions.md D12, D14: stored words, sole writer, order (log 23),
log 16 (the latches of the mock, D13), log 1 (servicing in one step). GET_MODE answers with byte 2 being the raw 3-bit
code 0..7 of the pin's field. On a valid pin it makes exactly one access, the read of the pin's function-select word,
and stored words and latches are kept. No free value is drawn. On pins 54..255 the register side is unchanged and byte
2 is 0. Rests on choices of the spec or of the model: 92 D6, D8, logs 20, 21. -/
def Obligations.GetModeReadsTheField : Prop :=
    ∀ (s : State) (pin value : Byte), s.params.wellFormed = true →
    ∃ t, exec (.getMode pin value) s = .next t ∧
      (53 < pin.toNat → Answered s t 0 ∧ t.port = s.port) ∧
      (pin.toNat ≤ 53 →
        let w := fieldWordOf s.params.words pin
        let x := s.port.mem.read w
        Answered s t ((x.extractLsb' (offsetOf pin) 3).setWidth 8) ∧
        Accessed s t [.rd w x] ∧ t.port.mem = s.port.mem ∧ LatchesKept s t ∧ t.port.draws = s.port.draws)

/-- derived R157, R128, 92_eei_decisions.md D7: the engine checks the value too (log 20), 92_eei_decisions.md D11: exactly
two writes (log 22), 92_eei_decisions.md D12, D14: stored words, sole writer, order (log 23), log 16 (the latches of
the mock, D13), log 1 (servicing in one step). SET_PULL answers with bytes 1 and 2 kept. On a valid pin and a pull
0..2 it makes exactly two accesses, the write of the pull code to PUD and then the write of the pin's mask to its
PUDCLK word, both stored whole, and keeps every other stored word and the latches. No free value is drawn. On pins
54..255 or pulls 3..255 the register side is unchanged, PUD included. Rests on choices of the spec or of the model: 92
D7, D11, logs 20, 22. -/
def Obligations.SetPullWritesPudThenPudclk : Prop :=
    ∀ (s : State) (pin value : Byte), s.params.wellFormed = true → s.port.mem.wf = true →
    ∃ t, exec (.setPull pin value) s = .next t ∧ Answered s t s.buf.b2 ∧
      (53 < pin.toNat ∨ 2 < value.toNat → t.port = s.port) ∧
      (pin.toNat ≤ 53 → value.toNat ≤ 2 →
        let clk := wordOf s.params.words .pudclk pin
        Accessed s t [.wr s.params.words.pud (value.setWidth 32), .wr clk (maskOf pin)] ∧
        t.port.mem.read s.params.words.pud = value.setWidth 32 ∧ t.port.mem.read clk = maskOf pin ∧
        WordsKeptOutside s t [s.params.words.pud, clk] ∧ LatchesKept s t ∧ t.port.draws = s.port.draws)

/-- derived R158, R129, 92_eei_decisions.md D5: a boolean result is 1 or 0 (log 19), 92_eei_decisions.md D6: a getter on
pins 54..255 writes 0 (log 20), 92_eei_decisions.md D9: the whole word is written back (log 21), log 8 (the EDS word a
free value), log 16 (the latches of the mock, D13), log 25 (writes to LEV, EDS, SET, CLR store nothing), log 1
(servicing in one step). GET_EVENT answers with byte 2 being 1 or 0 for the pin's bit of the EDS word read. On a valid
pin it reads the pin's EDS word (a free value in the general model, using up one draw; the stored word in the loopback
model, using up none) and, exactly when the pin's bit is 1, writes back the word just read; the stored words and the
latches are kept. On pins 54..255 the register side is unchanged and byte 2 is 0. Rests on choices of the spec or of
the model: 92 D5, D6, D9, logs 19, 20, 21; EDS a free value: log 8. -/
def Obligations.GetEventWritesBackTheWordRead : Prop :=
    ∀ (s : State) (pin value : Byte), s.params.wellFormed = true → s.port.mem.wf = true →
    ∃ t, exec (.getEvent pin value) s = .next t ∧
      (53 < pin.toNat → Answered s t 0 ∧ t.port = s.port) ∧
      (pin.toNat ≤ 53 →
        let w := wordOf s.params.words .eds pin
        let x := volatileRead s (s.port.mem.read w)
        Answered s t (flagByte (x.getLsbD (bitOf pin))) ∧
        Accessed s t (if x.getLsbD (bitOf pin) then [.rd w x, .wr w x] else [.rd w x]) ∧
        WordsKeptOutside s t [] ∧ LatchesKept s t ∧ t.port.draws = drawsAfterVolatileRead s)

/-- derived R159, R161, R163, R165, R167, R169, R127, 92_eei_decisions.md D4: V = 2..255 counts as true (log 19),
92_eei_decisions.md D8: how enables are written and fields read (log 21), 92_eei_decisions.md D9: the whole word is
written back (log 21), 92_eei_decisions.md D12, D14: stored words, sole writer, order (log 23), log 16 (the latches of
the mock, D13). Each of SET_REDGE, SET_FEDGE, SET_AREDGE, SET_AFEDGE, SET_HDETECT and SET_LDETECT answers with bytes 1
and 2 kept. On a valid pin it makes exactly two accesses, the read of the pin's word of its own family and the write
of that word with the pin's bit set when V is nonzero and cleared when V is 0, stores it, and keeps every other stored
word and the latches. No free value is drawn. On pins 54..255 the register side is unchanged. Rests on choices of the
spec or of the model: 92 D4, D8, logs 19, 21. Log 1 (servicing in one step). -/
def Obligations.DetectSettersAssignTheirBit : Prop :=
    ∀ (s : State) (pin value : Byte), s.params.wellFormed = true → s.port.mem.wf = true →
    ∀ fc ∈ [(BankFamily.ren, Instr.setRedge), (.fen, .setFedge), (.aren, .setAredge), (.afen, .setAfedge),
        (.hen, .setHdetect), (.len, .setLdetect)],
      ∃ t, exec (fc.2 pin value) s = .next t ∧ Answered s t s.buf.b2 ∧
        (53 < pin.toNat → t.port = s.port) ∧
        (pin.toNat ≤ 53 →
          let w := wordOf s.params.words fc.1 pin
          let x := s.port.mem.read w
          let x' := if value = 0 then x &&& ~~~ maskOf pin else x ||| maskOf pin
          Accessed s t [.rd w x, .wr w x'] ∧ StoredOnly s t w x' ∧ LatchesKept s t ∧ t.port.draws = s.port.draws)

/-- derived R160, R162, R164, R166, R168, R170, R124, 92_eei_decisions.md D5: a boolean result is 1 or 0 (log 19),
92_eei_decisions.md D6: a getter on pins 54..255 writes 0 (log 20), 92_eei_decisions.md D8: how enables are written
and fields read (log 21), 92_eei_decisions.md D12, D14: stored words, sole writer, order (log 23), log 16 (the latches
of the mock, D13). Each of GET_REDGE, GET_FEDGE, GET_AREDGE, GET_AFEDGE, GET_HDETECT and GET_LDETECT answers with byte
2 being 1 or 0 for the pin's bit of its own family. On a valid pin it makes exactly one access, the read of the pin's
word of that family, and stored words and latches are kept. No free value is drawn. On pins 54..255 the register side
is unchanged and byte 2 is 0. Rests on choices of the spec or of the model: 92 D5, D6, D8, logs 19, 20, 21. Log 1
(servicing in one step). -/
def Obligations.DetectGettersReadTheirBit : Prop :=
    ∀ (s : State) (pin value : Byte), s.params.wellFormed = true →
    ∀ fc ∈ [(BankFamily.ren, Instr.getRedge), (.fen, .getFedge), (.aren, .getAredge), (.afen, .getAfedge),
        (.hen, .getHdetect), (.len, .getLdetect)],
      ∃ t, exec (fc.2 pin value) s = .next t ∧
        (53 < pin.toNat → Answered s t 0 ∧ t.port = s.port) ∧
        (pin.toNat ≤ 53 →
          let w := wordOf s.params.words fc.1 pin
          let x := s.port.mem.read w
          Answered s t (flagByte (x.getLsbD (bitOf pin))) ∧
          Accessed s t [.rd w x] ∧ t.port.mem = s.port.mem ∧ LatchesKept s t ∧ t.port.draws = s.port.draws)

/-- derived R232, R151, R172, 92_eei_decisions.md D5: a boolean result is 1 or 0 (log 19), 92_eei_decisions.md D6: a
getter on pins 54..255 writes 0 (log 20), 92_eei_decisions.md D8: how enables are written and fields read (log 21),
92_eei_decisions.md D15: the commit is one step (log 23), 92_eei_decisions.md D28: code 0xFF is unrecognized (log 26),
log 1 (a command in one step). From every state every one of the 19 commands answers a next state in which byte 0 is
0xFF, byte 1 is unchanged, the Dispatcher is IDLE and everything outside the register side is untouched; byte 2 is
unchanged unless the command is a getter, whose result is 0 or 1, or 0..7 for GET_MODE; and whatever the buffer holds,
the Dispatcher's service of it answers in the same way, with byte 2 unchanged when the request is unrecognized. Rests
on choices of the spec or of the model: 92 D5, D6, D8, D15, D28, logs 1, 19, 20, 21, 23, 26. -/
def Obligations.EveryCommandCommitsItsResponse : Prop :=
    ∀ s : State,
    (∃ t b2, serviceWhole s = .next t ∧ Answered s t b2) ∧
    (∀ i : Instr, ∃ t b2, exec i s = .next t ∧ Answered s t b2 ∧ (i.isGetter = false → b2 = s.buf.b2) ∧
      (i.isGetter = true → b2.toNat ≤ 7 ∧ ((∀ p v, i ≠ .getMode p v) → b2.toNat ≤ 1))) ∧
    (∀ c p v, decodeRequest s.params.codes s.buf.b0 s.buf.b1 s.buf.b2 = .unrecognized c p v →
      ∃ t, serviceWhole s = .next t ∧ Answered s t s.buf.b2)

/-- derived R130, R234, R235, 92_eei_decisions.md D6: a getter on pins 54..255 writes 0 (log 20), 92_eei_decisions.md D28:
code 0xFF is unrecognized (log 26), 92_eei_decisions.md D30: the check order, log 1 (servicing in one step). Every one
of the 19 commands on a pin 54..255 leaves the register side unchanged and is answered, a getter with byte 2 = 0 and
any other with byte 2 kept; an unrecognized code in the buffer is answered with byte 2 kept and the register side
unchanged, whatever the pin. Rests on choices of the spec or of the model: 92 D6, log 20. -/
def Obligations.InvalidPinIsAnsweredWithoutAccess : Prop :=
    ∀ s : State,
    (∀ i : Instr, 53 < i.pin.toNat →
      ∃ t, exec i s = .next t ∧ t.port = s.port ∧ Answered s t (if i.isGetter then 0 else s.buf.b2)) ∧
    (∀ c p v, decodeRequest s.params.codes s.buf.b0 s.buf.b1 s.buf.b2 = .unrecognized c p v →
      ∃ t, serviceWhole s = .next t ∧ t.port = s.port ∧ Answered s t s.buf.b2)

/-- derived R173, R30, 42_commands.md section 9, 92_eei_decisions.md D8: how enables are written and fields read (log 21),
log 1 (servicing in one step). From every state with a canonical bank, every command makes only accesses to words of
its own families as the family table lists them, appended to the history, and leaves every stored word outside them as
it was. -/
def Obligations.CommandsStayInTheirFamilies : Prop :=
    ∀ (i : Instr) (s : State), s.port.mem.wf = true →
    ∃ t l, exec i s = .next t ∧ Accessed s t l ∧ (∀ e ∈ l, eventWord e ∈ i.familyWords s.params.words) ∧
      WordsKeptOutside s t (i.familyWords s.params.words)

/-- derived R155, R156, 95_test_vectors.md E6, 92_eei_decisions.md D8: how enables are written and fields read (log 21),
92_eei_decisions.md D12, D14: stored words, sole writer, order (log 23), log 1 (servicing in one step). For every
valid pin and mode 0..7, in both peripheral models: GET_MODE right after SET_MODE answers with the mode in byte 2.
Rests on choices of the spec or of the model: 92 D8, log 21. -/
def Obligations.ModeRoundTrip : Prop :=
    ∀ (s : State) (pin value v : Byte), s.params.wellFormed = true → s.port.mem.wf = true → pin.toNat ≤ 53 → value.toNat ≤ 7 →
    ∃ t u, exec (.setMode pin value) s = .next t ∧ exec (.getMode pin v) t = .next u ∧ u.buf.b2 = value

/-- derived R159, R160, R127, 42_commands.md section 7, 92_eei_decisions.md D4: V = 2..255 counts as true (log 19),
92_eei_decisions.md D5: a boolean result is 1 or 0 (log 19), 92_eei_decisions.md D8: how enables are written and
fields read (log 21), 92_eei_decisions.md D12, D14: stored words, sole writer, order (log 23), log 1 (servicing in one
step). For each of the six detect families, valid pins p and q, in both peripheral models: after the setter on p the
getter on q answers whether V was nonzero when q is p, and otherwise what it answered before. Rests on choices of the
spec or of the model: 92 D4, D5, D8, logs 19, 21. -/
def Obligations.EnableRoundTrip : Prop :=
    ∀ (s : State) (p q value v : Byte), s.params.wellFormed = true → s.port.mem.wf = true → p.toNat ≤ 53 → q.toNat ≤ 53 →
    ∀ fc ∈ [(Instr.setRedge, Instr.getRedge), (.setFedge, .getFedge), (.setAredge, .getAredge), (.setAfedge, .getAfedge),
        (.setHdetect, .getHdetect), (.setLdetect, .getLdetect)],
      ∃ t u r, exec (fc.1 p value) s = .next t ∧ exec (fc.2 q v) t = .next u ∧ exec (fc.2 q v) s = .next r ∧
        u.buf.b2 = if q = p then flagByte (value != 0) else r.buf.b2

/-- derived R58, R153, R154, 95_test_vectors.md E5, 92_eei_decisions.md D4: V = 2..255 counts as true (log 19),
92_eei_decisions.md D5: a boolean result is 1 or 0 (log 19), 92_eei_decisions.md D13: the mock is the spec's own
definition (log 16), log 1 (servicing in one step). In the loopback model, for every valid pin: GET_LEVEL right after
SET_LEVEL answers whether V was nonzero. Rests on choices of the spec or of the model: 92 D4, D5, D13, logs 16, 19. -/
def Obligations.LoopbackLevelRoundTrip : Prop :=
    ∀ (s : State) (pin value v : Byte), s.params.wellFormed = true → s.params.periph = .loopback → pin.toNat ≤ 53 →
    ∃ t u, exec (.setLevel pin value) s = .next t ∧ exec (.getLevel pin v) t = .next u ∧
      u.buf.b2 = flagByte (value != 0)

/-- derived R152, R265, 95_test_vectors.md E4, 92_eei_decisions.md D8: how enables are written and fields read (log 21),
92_eei_decisions.md D9: the whole word is written back (log 21), 92_eei_decisions.md D11: exactly two writes (log 22),
92_eei_decisions.md D13: the mock is the spec's own definition (log 16), 92_eei_decisions.md D12, D14: stored words,
sole writer, order (log 23), log 8 (the EDS word a free value), log 25 (writes to LEV, EDS, SET, CLR store nothing),
log 1 (servicing in one step). For every pin and in both peripheral models: the stored words and latches after
RESET_PIN twice in a row are those after RESET_PIN once. -/
def Obligations.ResetPinIsIdempotent : Prop :=
    ∀ (s : State) (pin v v' : Byte), s.params.wellFormed = true → s.port.mem.wf = true →
    ∃ t u, exec (.resetPin pin v) s = .next t ∧ exec (.resetPin pin v') t = .next u ∧
      registerState u.port = registerState t.port

/-- derived R129, R158, R271, 92_eei_decisions.md D5: a boolean result is 1 or 0 (log 19), 92_eei_decisions.md D9: the
whole word is written back (log 21), 92_eei_decisions.md D13: the mock is the spec's own definition (log 16), log 1
(servicing in one step). In the loopback model, when the pin's bit of the stored EDS word is set: GET_EVENT answers 1,
leaves the stored words and latches as they were, and a second GET_EVENT answers 1 again. Rests on choices of the spec
or of the model: 92 D5, D9, D13, logs 16, 19, 21. -/
def Obligations.LoopbackEventIsNotAcknowledged : Prop :=
    ∀ (s : State) (pin v : Byte), s.params.wellFormed = true → s.port.mem.wf = true → s.params.periph = .loopback → pin.toNat ≤ 53 →
    (s.port.mem.read (wordOf s.params.words .eds pin)).getLsbD (bitOf pin) = true →
    ∃ t u, exec (.getEvent pin v) s = .next t ∧ t.buf.b2 = 1 ∧ registerState t.port = registerState s.port ∧
      exec (.getEvent pin v) t = .next u ∧ u.buf.b2 = 1

/-- derived R150, R85, log 13 (turns), log 1 (servicing in one step). When the parameters meet their conditions, the
Dispatcher is at the start of servicing, has not shut down, and the buffer decodes to an instruction: a step is the
meaning of that instruction, at the same state with the Dispatcher's turn taken off the schedule where it was listed,
or listed first to come round again with none left before it, or with no turn listed at all (turns are the model's
schedule, log 13). -/
def Obligations.StepRunsTheDecodedInstruction : Prop :=
    ∀ (s : State) (i : Instr), s.params.conditionsHold s.clients.length = true → s.shutdown = false →
    s.control = .servicing ⟨0, []⟩ → decodeRequest s.params.codes s.buf.b0 s.buf.b1 s.buf.b2 = .instr i →
    (∀ rest, s.turns = .dispatcher :: rest → step s = exec i { s with turns := rest }) ∧
    (∀ rest, s.turns = [] → s.again = .dispatcher :: rest → step s = exec i { s with turns := rest }) ∧
    (s.turns = [] → s.again = [] → step s = exec i s)

/-- derived R171, R86, 92_eei_decisions.md D28: code 0xFF is one of them (log 26), log 13 (turns are the schedule), log 1
(servicing in one step). When the parameters meet their conditions, the Dispatcher is at the start of servicing, has
not shut down, and the code in the buffer is none of the 19: a step of the Dispatcher makes no access and answers with
bytes 1 and 2 unchanged. Rests on choices of the spec or of the model: 92 D28, log 26. -/
def Obligations.StepAnswersAnUnrecognizedRequest : Prop :=
    ∀ (s : State) (rest : List Turn), s.params.conditionsHold s.clients.length = true → s.shutdown = false →
    s.control = .servicing ⟨0, []⟩ → (∀ i : Instr, s.params.codes.code i ≠ s.buf.b0) → s.turns = .dispatcher :: rest →
    ∃ t, step s = .next t ∧ t.port = s.port ∧ Answered { s with turns := rest } t s.buf.b2

/-- derived R22, R263, log 13 (turns), log 1 (the two Dispatcher turns), log 24 (after shutdown). When the Dispatcher is
IDLE, or the privileged layer has shut down, either Dispatcher turn only leaves the schedule. -/
def Obligations.DispatcherRestsWhenIdleOrShutDown : Prop :=
    ∀ (s : State) (turn : Turn) (rest : List Turn), s.params.conditionsHold s.clients.length = true → s.shutdown = true ∨ s.control = .idle →
    turnIsDispatchers turn = true → s.turns = turn :: rest → step s = .next { s with turns := rest }

/-- derived R62, R150, R23, 10_state.md section 2, 92_eei_decisions.md D27 (log 1), log 8 (a word read in the general
model is a free value). From every state at the start of servicing that has not shut down, for whatever request the
buffer holds: servicing in one step makes some n accesses, and n + 1 turns of one access each reach exactly the same
state, the Dispatcher still servicing after each of the first n. -/
def Obligations.AccessByAccessIsOneStep : Prop :=
    ∀ s : State, s.shutdown = false → s.control = .servicing ⟨0, []⟩ →
    ∃ t l, serviceWhole s = .next t ∧ Accessed s t l ∧ accessTurns (l.length + 1) s = t ∧
      ∀ k, k ≤ l.length → (accessTurns k s).control.isServicing = true

/-- derived R53, R64, R65, R172, R215, R263, 20_memory.md section 5, log 10 (the bank as cells), log 12 (what stop means),
log 13 (turns are the schedule), log 15 (no shutdown while outstanding), 92_eei_decisions.md D15: transfers and the
commit are atomic (log 23). From every state that meets the invariant (parameters, canonical bank inside NWORDS, an
owner while servicing, owners are clients, nothing outstanding after shutdown, the sentinel shown once answered,
clients in step with the Dispatcher), whatever the turn: if a step answers a next state, that state meets the
invariant. -/
def Obligations.InvariantIsKeptByEveryStep : Prop :=
    ∀ s t : State, Inv s → step s = .next t → Inv t

/-- derived R260, R264, logs 5, 6, 7 (reset values the spec leaves open), logs 3, 4 (the default code map and word map),
log 30 (start-up is a state). The invariant holds of the state after start-up, with the values the model chose for
what the spec leaves unspecified (logs 5, 6, 7). -/
def Obligations.StartUpMeetsTheInvariant : Prop :=
    Inv State.reset

/-- derived R260, R261, R264, 70_reset_and_hazards.md section 1, 92_eei_decisions.md D17: start-up (log 30), log 7 (the
number of clients). After start-up the Dispatcher is IDLE, nobody owns a transaction, no fault is recorded, the access
history is empty, the layer is not shut down, and every client has a closed channel and is in no transaction. -/
def Obligations.StartUpState : Prop :=
    State.reset.control = .idle ∧ State.reset.owner = none ∧ State.reset.faults = ⟨false, false, false⟩ ∧
    State.reset.port.history = [] ∧ State.reset.shutdown = false ∧
    ∀ cl ∈ State.reset.clients, cl.chanOpen = false ∧ cl.phase = .noTxn

/-- derived R35, 92_eei_decisions.md D29: model faults are sticky (log 11). A fault kind recorded in a state is recorded
in every next state, and none is recorded after start-up. Rests on choices of the spec or of the model: 92 D29, log
11. -/
def Obligations.FaultsAreNeverCleared : Prop :=
    (∀ (s t : State) (k : FaultKind), step s = .next t → s.faults.has k = true → t.faults.has k = true) ∧
    ∀ k : FaultKind, State.reset.faults.has k = false

/-- derived R216, R236, 92_eei_decisions.md D29, D31: sticky faults and the end of a run (log 11). A state is final
exactly when every client is in no transaction, the Dispatcher is IDLE, nobody owns a transaction and none of the
three faults is recorded; and from a state with a recorded fault no step reaches a final state. -/
def Obligations.AFaultedRunNeverEnds : Prop :=
    (∀ s : State, isFinal s = true ↔
      (∀ cl ∈ s.clients, cl.phase = .noTxn) ∧ s.control = .idle ∧ s.owner = none ∧ s.faults = ⟨false, false, false⟩) ∧
    (∀ (s t : State) (k : FaultKind), s.faults.has k = true → step s = .next t → isFinal t = false)

/-- derived R61, 20_memory.md section 4, log 13 (turns are the schedule), 92_eei_decisions.md D12, D14: stored words, sole
writer, order (log 23). Whatever the turn, the history of a next state is the history before with some events
appended; with no Dispatcher turn none is. -/
def Obligations.HistoryOnlyGrows : Prop :=
    ∀ s t : State, step s = .next t →
    ∃ l, t.port.history = s.port.history ++ l ∧
      ((∀ turn, s.nextTurn.1 = some turn → turnIsDispatchers turn = false) → l = [])

/-- derived R36, R8, 10_state.md section 5, log 2 (the parameters ride in State). Every next state has the parameters and
the number of clients of the state before. -/
def Obligations.ParametersNeverChange : Prop :=
    ∀ s t : State, step s = .next t → t.params = s.params ∧ t.clients.length = s.clients.length

/-- derived R50, R240, R58, 60_exceptions.md section 4, log 29 (what between transactions means), 92_eei_decisions.md D13:
the mock is the spec's own definition (log 16), log 13 (turns are the schedule). A step whose turn is neither the
Dispatcher's nor the loopback harness's leaves the whole register side as it was; a harness turn answers only in the
loopback model between transactions, read as: IDLE with no owner (log 29), and changes nothing but stored words of EDS
and the schedule: latches, draws, history, buffer, control, owner, clients, faults, the shutdown flag, the count of
opens and the parameters are kept. -/
def Obligations.OnlyTheDispatcherReachesTheBank : Prop :=
    ∀ s t : State, step s = .next t →
    ((∀ turn, s.nextTurn.1 = some turn → turnIsDispatchers turn = false ∧ turnIsHarness turn = false) → t.port = s.port) ∧
    (∀ turn, s.nextTurn.1 = some turn → turnIsHarness turn = true → s.port.mem.wf = true →
      s.params.periph = .loopback ∧ s.control = .idle ∧ s.owner = none ∧
      WordsKeptOutside s t (pairWords s.params.words .eds) ∧
      t = { s.nextTurn.2 with port := { s.port with mem := t.port.mem } } ∧
      s.nextTurn.2 = { s with turns := s.nextTurn.2.turns })

/-- derived R21, R151, R64, 10_state.md section 2, 92_eei_decisions.md D15: transfers and the commit are atomic (log 23),
log 13 (turns are the schedule), log 18 (a call is one step). When a step changes the buffer, either it was a
Dispatcher turn that ended servicing, byte 1 kept and byte 0 now 0xFF, or a client's call or raw write that loaded its
request: that client owns the transaction and servicing is at its start. -/
def Obligations.TheBufferHasTwoWriters : Prop :=
    ∀ s t : State, step s = .next t → t.buf ≠ s.buf →
    ∃ turn, s.nextTurn.1 = some turn ∧
      ((turnIsDispatchers turn = true ∧ s.control.isServicing = true ∧ t.control = .idle ∧ t.buf.b0 = 0xFF ∧
          t.buf.b1 = s.buf.b1) ∨
       ∃ c, turnRequester turn = some c ∧ t.owner = some c ∧ t.control = .servicing ⟨0, []⟩)

/-- derived R22, 10_state.md section 2, 92_eei_decisions.md D15: transfers and the commit are atomic (log 23), log 13
(turns are the schedule), log 18 (a call is one step). A step from IDLE to SERVICING is a client's request that then
owns the transaction; a step from SERVICING to IDLE is a Dispatcher turn that leaves byte 0 = 0xFF and byte 1 as it
was. -/
def Obligations.ControlHasTwoTransitions : Prop :=
    ∀ s t : State, step s = .next t →
    (s.control = .idle → t.control.isServicing = true →
      ∃ turn c, s.nextTurn.1 = some turn ∧ turnRequester turn = some c ∧ t.owner = some c) ∧
    (s.control.isServicing = true → t.control = .idle →
      ∃ turn, s.nextTurn.1 = some turn ∧ turnIsDispatchers turn = true ∧ t.buf.b0 = 0xFF ∧ t.buf.b1 = s.buf.b1)

/-- derived R192, R8, 43_framer.md section 1, 92_eei_decisions.md D21: no rule depends on it, log 2 (the parameters ride
in State). Replacing the wait policy of a state and then taking a step gives the outcome of the step with the wait
policy replaced there. -/
def Obligations.WaitPolicyNeverMatters : Prop :=
    ∀ (s : State) (w : WaitPolicy), step (withWaitPolicy w s) = outcomeWithWaitPolicy w (step s)

/-- derived R64, 92_eei_decisions.md D15, D16, D26 (logs 11, 23), log 12 (what stop means), log 13 (turns are the
schedule). A raw 3-byte request of a client that is in no transaction: after shutdown it records AfterShutdown;
otherwise, with an owner and either servicing or another owner, it records InterleavedTransaction; in both cases
nothing else changes; otherwise all three bytes are loaded, the client owns the transaction and servicing is at its
start. The step writes no register. Rests on choices of the spec or of the model: 92 D15, D16, D26, logs 11, 23. -/
def Obligations.RequestWriteLoadsOrFaults : Prop :=
    ∀ (s : State) (c : Nat) (cl : Client) (b0 b1 b2 : Byte) (rest : List Turn), s.params.wellFormed = true →
    s.clients[c]? = some cl → cl.phase = .noTxn → s.turns = .rawWrite c [b0, b1, b2] :: rest →
    (s.shutdown = true →
      step s = .next { s with faults := { s.faults with afterShutdown := true }, turns := rest }) ∧
    (s.shutdown = false → (s.owner ≠ none ∧ (s.control.isServicing = true ∨ s.owner ≠ some c)) →
      step s = .next { s with faults := { s.faults with interleavedTransaction := true }, turns := rest }) ∧
    (s.shutdown = false → ¬ (s.owner ≠ none ∧ (s.control.isServicing = true ∨ s.owner ≠ some c)) →
      step s = .next { s with buf := ⟨b0, b1, b2⟩, owner := some c, control := .servicing ⟨0, []⟩, turns := rest })

/-- derived R65, 92_eei_decisions.md D15 (log 23), log 24 (a ResponseRead after shutdown acts as before), log 13 (turns
are the schedule). A raw 3-byte read of a client that is in no transaction copies all three bytes into that client's
buffer and sets the owner to none exactly when the Dispatcher is IDLE and the client is the owner; nothing else
changes. Rests on choices of the spec or of the model: 92 D15, log 23; after shutdown too: log 24. -/
def Obligations.ResponseReadCopiesTheBuffer : Prop :=
    ∀ (s : State) (c : Nat) (cl : Client) (rest : List Turn), s.params.wellFormed = true →
    s.clients[c]? = some cl → cl.phase = .noTxn → s.turns = .rawRead c 3 :: rest →
    (s.control = .idle ∧ s.owner = some c →
      step s = .next { s with clients := s.clients.set c { cl with cbuf := s.buf }, owner := none, turns := rest }) ∧
    (¬ (s.control = .idle ∧ s.owner = some c) →
      step s = .next { s with clients := s.clients.set c { cl with cbuf := s.buf }, turns := rest })

/-- derived R63, 92_eei_decisions.md D15: other lengths are refused (log 23), log 27 (the named refusal), log 13 (turns
are the schedule). A raw write of other than 3 bytes, or a raw read of other than 3 bytes, by a client that is in no
transaction is refused by name. Rests on choices of the spec or of the model: 92 D15, log 23; the named refusal: log
27. -/
def Obligations.OtherLengthsAreRefused : Prop :=
    ∀ (s : State) (c : Nat) (cl : Client) (rest : List Turn), s.params.wellFormed = true → s.clients[c]? = some cl →
    cl.phase = .noTxn →
    (∀ bytes, bytes.length ≠ 3 → s.turns = .rawWrite c bytes :: rest → step s = .refused (.wrongLength bytes.length)) ∧
    (∀ n, n ≠ 3 → s.turns = .rawRead c n :: rest → step s = .refused (.wrongLength n))

/-- derived R193, 43_framer.md section 1, log 17 (the returned value), log 35 (arguments are bytes), 92_eei_decisions.md
D18: no transaction and no change, log 13 (turns are the schedule). An operation is out of range exactly when its pin
is above 53, or it is set_mode with a mode above 7, or set_pull with a pull above 2. A call whose operands are out of
range, on an open or a closed channel, changes nothing but what the client was returned (the model's bookkeeping, log
17): nothing, false, or the mode code 0. Arguments are bytes (log 35). -/
def Obligations.RangeCheckComesFirst : Prop :=
    (∀ op : PublicOp, op.request.wellFormed = false ↔
      53 < op.request.pin.toNat ∨ (∃ p v, op = .setMode p v ∧ 7 < v.toNat) ∨ (∃ p v, op = .setPull p v ∧ 2 < v.toNat)) ∧
    (∀ (s : State) (c : Nat) (cl : Client) (op : PublicOp) (rest : List Turn), s.params.wellFormed = true →
      s.clients[c]? = some cl → cl.phase = .noTxn → s.turns = .call c op :: rest → op.request.wellFormed = false →
      step s = .next { s with
        clients := s.clients.set c { cl with ret := some (op.decodeResponse 0) }, turns := rest })

/-- derived R191, R236, log 12 (what stop means), 92_eei_decisions.md D20: the call faults (log 11), log 17 (the returned
value), log 13 (turns are the schedule). A call in range by a client whose channel is not open records NotInitialised
and starts no transaction; the client has been returned nothing (log 12). -/
def Obligations.CallOnAClosedChannelFaults : Prop :=
    ∀ (s : State) (c : Nat) (cl : Client) (op : PublicOp) (rest : List Turn), s.params.wellFormed = true →
    s.clients[c]? = some cl → cl.phase = .noTxn → s.turns = .call c op :: rest → op.request.wellFormed = true →
    cl.chanOpen = false →
    step s = .next { s with
      clients := s.clients.set c { cl with ret := none }, faults := { s.faults with notInitialised := true },
      turns := rest }

/-- derived R191, R194, R195, R64, 43_framer.md section 2 (R196 to R214), 92_eei_decisions.md D19: byte 2 of the request
where the source shows none, log 12 (what stop means), log 35 (arguments are bytes), 92_eei_decisions.md D15, D16, D26
(logs 11, 23), log 17 (the returned value), log 18 (a call is one step), log 13 (turns are the schedule). A call in
range on an open channel puts its packet [CMD_CODE(op), pin, a] into the client's buffer and the client into
Awaiting(op). When the transport can take it, the packet is in the shared buffer, the client owns the transaction and
servicing is at its start. After shutdown, or when it interleaves, the fault is recorded, the shared buffer, the owner
and the control state are kept, and the client is marked stopped (log 12). For every code map, pin, boolean, mode and
pull, each of the 19 public operations sends [CMD_CODE of its command, pin, a], with a being 1 or 0 for a boolean, the
code for a mode or a pull, and 0 for reset_pin and every getter; and from byte 2 of the response a boolean getter
returns whether it is nonzero, get_mode returns it, and a void operation returns nothing. Arguments are bytes (log
35). Byte 2 of the requests the source does not show is the spec's own choice (92 D19). -/
def Obligations.CallSendsItsPacket : Prop :=
    (∀ (s : State) (c : Nat) (cl : Client) (op : PublicOp) (rest : List Turn), s.params.wellFormed = true →
      s.clients[c]? = some cl → cl.phase = .noTxn → s.turns = .call c op :: rest → op.request.wellFormed = true →
      cl.chanOpen = true →
      let packet : Packet := ⟨s.params.codes.code op.request, op.request.pin, op.request.value⟩
      let called := fun stopped =>
        s.clients.set c { cl with phase := .awaiting op, cbuf := packet, stopped := stopped, ret := none }
      (s.shutdown = true →
        step s = .next { s with
          clients := called true, faults := { s.faults with afterShutdown := true }, turns := rest }) ∧
      (s.shutdown = false → (s.owner ≠ none ∧ (s.control.isServicing = true ∨ s.owner ≠ some c)) →
        step s = .next { s with
          clients := called true, faults := { s.faults with interleavedTransaction := true }, turns := rest }) ∧
      (s.shutdown = false → ¬ (s.owner ≠ none ∧ (s.control.isServicing = true ∨ s.owner ≠ some c)) →
        step s = .next { s with
          clients := called false, buf := packet, owner := some c, control := .servicing ⟨0, []⟩, turns := rest })) ∧
    (∀ (m : CodeMap) (pin mode pull : Byte) (b : Bool),
      let a : Byte := if b then 1 else 0
      let void : Byte → OpResult := fun _ => .void
      let bool : Byte → OpResult := fun v => .bool (decide (v ≠ 0))
      ∀ row ∈ [(PublicOp.resetPin pin, (⟨m.resetPin, pin, 0⟩ : Packet), void),
          (.setLevel pin b, ⟨m.setLevel, pin, a⟩, void), (.getLevel pin, ⟨m.getLevel, pin, 0⟩, bool),
          (.setMode pin mode, ⟨m.setMode, pin, mode⟩, void), (.getMode pin, ⟨m.getMode, pin, 0⟩, OpResult.code),
          (.setPull pin pull, ⟨m.setPull, pin, pull⟩, void), (.eventDetected pin, ⟨m.getEvent, pin, 0⟩, bool),
          (.setRedgeEnable pin b, ⟨m.setRedge, pin, a⟩, void), (.getRedgeEnable pin, ⟨m.getRedge, pin, 0⟩, bool),
          (.setFedgeEnable pin b, ⟨m.setFedge, pin, a⟩, void), (.getFedgeEnable pin, ⟨m.getFedge, pin, 0⟩, bool),
          (.setAsyncRedgeEnable pin b, ⟨m.setAredge, pin, a⟩, void), (.getAsyncRedgeEnable pin, ⟨m.getAredge, pin, 0⟩, bool),
          (.setAsyncFedgeEnable pin b, ⟨m.setAfedge, pin, a⟩, void), (.getAsyncFedgeEnable pin, ⟨m.getAfedge, pin, 0⟩, bool),
          (.setHighDetectEnable pin b, ⟨m.setHdetect, pin, a⟩, void), (.getHighDetectEnable pin, ⟨m.getHdetect, pin, 0⟩, bool),
          (.setLowDetectEnable pin b, ⟨m.setLdetect, pin, a⟩, void), (.getLowDetectEnable pin, ⟨m.getLdetect, pin, 0⟩, bool)],
        (⟨m.code row.1.request, row.1.request.pin, row.1.request.value⟩ : Packet) = row.2.1 ∧
        ∀ v : Byte, row.1.decodeResponse v = row.2.2 v)

/-- derived R191, R192, R195, R215, 43_framer.md section 3, log 18 (what is one step), 92_eei_decisions.md D15: transfers
and the commit are atomic (log 23), log 12 (what stop means), log 17 (the returned value), log 13 (turns are the
schedule). In every state that meets the invariant, for a client awaiting an operation and not stopped at a fault: one
poll answers a next state in which the client's buffer is the shared buffer. If the Dispatcher is IDLE the transaction
ends: the client is in no transaction, was returned the decoding of byte 2, and nobody owns a transaction. If it is
servicing, byte 0 is not the sentinel and the client goes on awaiting, still the owner. -/
def Obligations.PollEndsExactlyAtTheSentinel : Prop :=
    ∀ (s : State) (c : Nat) (cl : Client) (op : PublicOp) (rest : List Turn), Inv s → s.clients[c]? = some cl →
    cl.phase = .awaiting op → cl.stopped = false → s.turns = .poll c :: rest →
    ∃ t cl', step s = .next t ∧ t.clients[c]? = some cl' ∧ cl'.cbuf = s.buf ∧ t.buf = s.buf ∧
      t.control = s.control ∧ t.port = s.port ∧
      (s.control = .idle →
        cl'.phase = .noTxn ∧ cl'.ret = some (op.decodeResponse s.buf.b2) ∧ t.owner = none) ∧
      (s.control.isServicing = true → s.buf.b0 ≠ 0xFF ∧ cl'.phase = .awaiting op ∧ t.owner = some c)

/-- derived R67, R191, R194, R195, R215, 43_framer.md section 1, log 18 (what is one step), 92_eei_decisions.md D15:
transfers and the commit are atomic (log 23), log 17 (the returned value), log 13 (turns are the schedule), log 1
(servicing in one step). From every state that meets the invariant, IDLE, with no owner and not shut down: when a
client with an open channel that is in no transaction calls an operation in range, and the Dispatcher and then the
client take their turns, the three steps succeed; the register side is what the command's meaning makes of it, the
client was returned the decoding of the byte 2 the command answered, is in no transaction, and nobody owns one. -/
def Obligations.TransactionReturnsItsOwnResponse : Prop :=
    ∀ (s : State) (c : Nat) (cl : Client) (op : PublicOp), Inv s → s.control = .idle → s.owner = none →
    s.shutdown = false → s.clients[c]? = some cl → cl.phase = .noTxn → cl.chanOpen = true →
    op.request.wellFormed = true → s.turns = [.call c op, .dispatcher, .poll c] →
    ∃ loaded served t cl', loaded.port = s.port ∧
      loaded.buf = ⟨s.params.codes.code op.request, op.request.pin, op.request.value⟩ ∧
      loaded.owner = some c ∧ loaded.params = s.params ∧
      exec op.request loaded = .next served ∧ Host.Core.run core 3 s = .next t ∧
      t.port = served.port ∧ t.control = .idle ∧ t.owner = none ∧ t.faults = s.faults ∧
      t.clients[c]? = some cl' ∧ cl'.phase = .noTxn ∧ cl'.cbuf = served.buf ∧
      cl'.ret = some (op.decodeResponse served.buf.b2)

/-- derived R190, R231, log 9 (the free value; a failed init on an open channel), log 24 (init after shutdown),
92_eei_decisions.md D20: whether the open succeeds is a draw, log 17 (the returned value), log 13 (turns are the
schedule). Init by a client that is in no transaction answers a next state that differs only in that client, the
schedule and the count of attempts; whether it succeeds is a free value (log 9): on success the channel is open and
success is returned, on failure the channel is as it was and transport unavailable is returned. R190 says only that a
closed channel stays closed: that an open one stays open is the model's choice (log 9), as is that init acts so after
shutdown too (log 24). -/
def Obligations.InitOpensOrReportsUnavailable : Prop :=
    ∀ (s : State) (c : Nat) (cl : Client) (rest : List Turn), s.params.wellFormed = true → s.clients[c]? = some cl →
    cl.phase = .noTxn → s.turns = .init c :: rest →
    step s = .next { s with
      clients := s.clients.set c
        (if Config.freeOpen s.opens then { cl with chanOpen := true, ret := some .opened }
         else { cl with ret := some .transportUnavailable }),
      opens := s.opens + 1, turns := rest }

/-- derived R263, log 15 (the refused move), 92_eei_decisions.md D26: the shutdown step, log 13 (turns are the schedule).
The shutdown turn sets the shutdown flag and nothing else when the Dispatcher is IDLE and nobody owns a transaction;
otherwise there is no such move and the step is refused by name (log 15). -/
def Obligations.ShutdownNeedsNothingOutstanding : Prop :=
    ∀ (s : State) (rest : List Turn), s.params.conditionsHold s.clients.length = true → s.turns = .shutdown :: rest →
    (s.control = .idle ∧ s.owner = none → step s = .next { s with shutdown := true, turns := rest }) ∧
    (¬ (s.control = .idle ∧ s.owner = none) → step s = .refused .shutdownWhileOutstanding)

/-- derived R58, log 29 (the harness turn), 92_eei_decisions.md D13: the mock is the spec's own definition (log 16), log
13 (turns are the schedule). In the loopback model between transactions, the harness's turn ors its mask into the
stored EDS word of its bank and keeps every other stored word (log 29). -/
def Obligations.HarnessSetsEventBits : Prop :=
    ∀ (s : State) (bank : Bank) (mask : Word) (rest : List Turn), s.params.conditionsHold s.clients.length = true → s.port.mem.wf = true →
    s.params.periph = .loopback → s.control = .idle → s.owner = none → s.turns = .harnessEvent bank mask :: rest →
    ∃ t, step s = .next t ∧
      let w := s.params.words.bankWord .eds bank
      StoredOnly s t w (s.port.mem.read w ||| mask) ∧ LatchesKept s t ∧ t.port.history = s.port.history

/-- derived R192, R191, R195, R215, R237, 93_implementation_defined.md U8, log 13 (turns, and turns that come round
again), log 18 (what is one step), 92_eei_decisions.md D15: transfers and the commit are atomic (log 23),
92_eei_decisions.md D31: the end of a run, log 12 (what stop means), log 17 (the returned value). From every state
that meets the invariant, with a request being serviced and a client awaiting it and not stopped at a fault. The hang:
when the schedule is that client's poll over and over (log 13), then after any number of steps the request, the
Dispatcher and the register side are as they were, the client still awaits, and the state is not final. The end: when
servicing is at its start, the client polls n times, the Dispatcher takes its turn and the client polls once more, the
n + 2 steps succeed, however large n is; the register side is what the command's meaning makes of it, the client was
returned the decoding of the byte 2 the command answered, is in no transaction, nobody owns one and no fault is added. -/
def Obligations.TheWaitLastsUntilTheDispatcherCommits : Prop :=
    (∀ (s : State) (c : Nat) (cl : Client) (op : PublicOp), Inv s → s.clients[c]? = some cl → cl.phase = .awaiting op →
      cl.stopped = false → s.control.isServicing = true → s.turns = [] → s.again = [.poll c] →
      ∀ n, ∃ t cl', Host.Core.run core n s = .next t ∧ t.clients[c]? = some cl' ∧ cl'.phase = .awaiting op ∧
        t.buf = s.buf ∧ t.control = s.control ∧ t.port = s.port ∧ isFinal t = false) ∧
    (∀ (s : State) (c : Nat) (cl : Client) (op : PublicOp) (n : Nat), Inv s → s.clients[c]? = some cl →
      cl.phase = .awaiting op → cl.stopped = false → s.control = .servicing ⟨0, []⟩ →
      s.turns = List.replicate n (.poll c) ++ [.dispatcher, .poll c] →
      ∃ served t cl', exec op.request s = .next served ∧ Host.Core.run core (n + 2) s = .next t ∧
        t.port = served.port ∧ t.control = .idle ∧ t.owner = none ∧ t.faults = s.faults ∧ t.turns = [] ∧
        t.clients[c]? = some cl' ∧ cl'.phase = .noTxn ∧ cl'.ret = some (op.decodeResponse served.buf.b2))
end

