-- ==== Sys2Proof/Laws/Memory.lean ====
section
/-! SUPPORT. The register bank as a store: read after write, and that a write keeps the canonical form. -/

namespace Sys2Proof.Machine

@[simp] theorem Memory.read_nil (a : Nat) : Memory.read [] a = unlistedWord := rfl

@[simp] theorem Memory.read_listed (b : Nat) (w : Word) (rest : Memory) (a : Nat) :
    Memory.read ((b, w) :: rest) a = if a = b then w else rest.read a := rfl

/-- Below its first index a canonical store lists nothing. -/
theorem Memory.read_below {m : Memory} {lo a : Nat} (h : m.wfFrom lo = true) (ha : a < lo) :
    m.read a = unlistedWord := by
  induction m generalizing lo with
  | nil => rfl
  | cons cell rest ih =>
    obtain ⟨b, w⟩ := cell
    simp only [Memory.wfFrom, Bool.and_eq_true, decide_eq_true_eq] at h
    rw [Memory.read_listed, if_neg (by omega), ih h.2 (by omega)]

theorem Memory.wfFrom_mono {m : Memory} {lo lo' : Nat} (h : m.wfFrom lo = true) (hl : lo' ≤ lo) :
    m.wfFrom lo' = true := by
  cases m with
  | nil => rfl
  | cons cell rest =>
    simp only [Memory.wfFrom, Bool.and_eq_true, decide_eq_true_eq] at h ⊢
    exact ⟨⟨by omega, h.1.2⟩, h.2⟩

theorem Memory.wfFrom_cons {rest : Memory} {a lo : Nat} (v : Word) (h : rest.wfFrom (a + 1) = true) (ha : lo ≤ a) :
    (Memory.cons a v rest).wfFrom lo = true := by
  unfold Memory.cons
  split
  · exact Memory.wfFrom_mono h (by omega)
  · simp_all [Memory.wfFrom]

theorem Memory.wfFrom_write {m : Memory} {lo a : Nat} (v : Word) (h : m.wfFrom lo = true) (ha : lo ≤ a) :
    (m.write a v).wfFrom lo = true := by
  induction m generalizing lo with
  | nil => exact Memory.wfFrom_cons v rfl ha
  | cons cell rest ih =>
    obtain ⟨b, w⟩ := cell
    simp only [Memory.wfFrom, Bool.and_eq_true, decide_eq_true_eq] at h
    simp only [Memory.write]
    split
    · exact Memory.wfFrom_cons v (by simp only [Memory.wfFrom, Bool.and_eq_true, decide_eq_true_eq]; exact ⟨⟨by omega, h.1.2⟩, h.2⟩) ha
    · split
      · next hab => exact Memory.wfFrom_cons v (hab ▸ h.2) ha
      · simp only [Memory.wfFrom, Bool.and_eq_true, decide_eq_true_eq]
        exact ⟨h.1, ih h.2 (by omega)⟩

/-- Every write keeps the canonical form. -/
theorem Memory.wf_write {m : Memory} (a : Nat) (v : Word) (h : m.wf = true) : (m.write a v).wf = true :=
  Memory.wfFrom_write v h (Nat.zero_le a)

/-- Reading an index in front of a canonical rest. -/
theorem Memory.read_cons {rest : Memory} {a : Nat} (v : Word) (h : rest.wfFrom (a + 1) = true) (j : Nat) :
    (Memory.cons a v rest).read j = if j = a then v else rest.read j := by
  unfold Memory.cons
  split
  · next hv =>
    split
    · next hj => rw [Memory.read_below h (by omega), hv]
    · rfl
  · rfl

theorem Memory.read_writeFrom {m : Memory} {lo : Nat} (a : Nat) (v : Word) (j : Nat) (h : m.wfFrom lo = true) :
    (m.write a v).read j = if j = a then v else m.read j := by
  induction m generalizing lo with
  | nil => exact Memory.read_cons v rfl j
  | cons cell rest ih =>
    obtain ⟨b, w⟩ := cell
    simp only [Memory.wfFrom, Bool.and_eq_true, decide_eq_true_eq] at h
    simp only [Memory.write]
    split
    · rw [Memory.read_cons v (by simp only [Memory.wfFrom, Bool.and_eq_true, decide_eq_true_eq]; exact ⟨⟨by omega, h.1.2⟩, h.2⟩)]
    · split
      · next hab =>
        rw [Memory.read_cons v (hab ▸ h.2), Memory.read_listed]
        split <;> simp_all
      · rw [Memory.read_listed, ih h.2, Memory.read_listed]
        split <;> split <;> first | rfl | omega

/-- Read after write, at the same index and at any other. -/
theorem Memory.read_write {m : Memory} (a : Nat) (v : Word) (j : Nat) (h : m.wf = true) :
    (m.write a v).read j = if j = a then v else m.read j := Memory.read_writeFrom a v j h

/-- What a write lists lies at the written index or was listed before. -/
theorem Memory.mem_write {m : Memory} {a : Nat} {v : Word} {cell : WordCell} (h : cell ∈ m.write a v) :
    cell.1 = a ∨ cell ∈ m := by
  have cons_mem : ∀ {rest : Memory}, cell ∈ Memory.cons a v rest → cell.1 = a ∨ cell ∈ rest := by
    intro rest hc
    unfold Memory.cons at hc
    split at hc
    · exact .inr hc
    · rcases List.mem_cons.mp hc with rfl | hc
      · exact .inl rfl
      · exact .inr hc
  induction m with
  | nil => exact cons_mem h
  | cons first rest ih =>
    obtain ⟨b, w⟩ := first
    simp only [Memory.write] at h
    split at h
    · exact cons_mem h
    · split at h
      · exact (cons_mem h).imp_right (List.mem_cons_of_mem _)
      · rcases List.mem_cons.mp h with rfl | h
        · exact .inr (List.mem_cons_self ..)
        · exact (ih h).imp_right (List.mem_cons_of_mem _)

/-- Canonical stores that read alike everywhere are the same store. -/
theorem Memory.extFrom {m m' : Memory} {lo : Nat} (h : m.wfFrom lo = true) (h' : m'.wfFrom lo = true)
    (e : ∀ a, m.read a = m'.read a) : m = m' := by
  induction m generalizing m' lo with
  | nil =>
    cases m' with
    | nil => rfl
    | cons cell' rest' =>
      obtain ⟨b', w'⟩ := cell'
      simp only [Memory.wfFrom, Bool.and_eq_true, decide_eq_true_eq] at h'
      exact absurd (by simpa using (e b').symm) h'.1.2
  | cons cell rest ih =>
    obtain ⟨b, w⟩ := cell
    have hr := h
    simp only [Memory.wfFrom, Bool.and_eq_true, decide_eq_true_eq] at h
    cases m' with
    | nil => exact absurd (by simpa using e b) h.1.2
    | cons cell' rest' =>
      obtain ⟨b', w'⟩ := cell'
      have hr' := h'
      simp only [Memory.wfFrom, Bool.and_eq_true, decide_eq_true_eq] at h'
      have hb : b = b' := by
        rcases Nat.lt_trichotomy b b' with hlt | heq | hgt
        · have := e b
          rw [Memory.read_listed, if_pos rfl, Memory.read_listed, if_neg (by omega),
            Memory.read_below h'.2 (by omega)] at this
          exact absurd this h.1.2
        · exact heq
        · have := e b'
          rw [Memory.read_listed b' w', if_pos rfl, Memory.read_listed, if_neg (by omega),
            Memory.read_below h.2 (by omega)] at this
          exact absurd this.symm h'.1.2
      subst hb
      have hw : w = w' := by simpa using e b
      subst hw
      refine congrArg _ (ih h.2 h'.2 fun a => ?_)
      have := e a
      simp only [Memory.read_listed] at this
      split at this
      · next hab => rw [Memory.read_below h.2 (by omega), Memory.read_below h'.2 (by omega)]
      · exact this

theorem Memory.ext {m m' : Memory} (h : m.wf = true) (h' : m'.wf = true) (e : ∀ a, m.read a = m'.read a) : m = m' :=
  Memory.extFrom h h' e

end Sys2Proof.Machine
end

