-- ==== Sys2Proof/Laws/State.lean ====
section
/-! SUPPORT. One lemma per field for each named update of the state and of the port, so that no proof unfolds a record
update; and that start-up has a canonical register bank. -/

namespace Sys2Proof.Machine

@[simp] theorem State.raise_params (s : State) (k : FaultKind) : (s.raise k).params = s.params := rfl
@[simp] theorem State.raise_port (s : State) (k : FaultKind) : (s.raise k).port = s.port := rfl
@[simp] theorem State.raise_buf (s : State) (k : FaultKind) : (s.raise k).buf = s.buf := rfl
@[simp] theorem State.raise_control (s : State) (k : FaultKind) : (s.raise k).control = s.control := rfl
@[simp] theorem State.raise_owner (s : State) (k : FaultKind) : (s.raise k).owner = s.owner := rfl
@[simp] theorem State.raise_clients (s : State) (k : FaultKind) : (s.raise k).clients = s.clients := rfl
@[simp] theorem State.raise_faults (s : State) (k : FaultKind) : (s.raise k).faults = s.faults.add k := rfl
@[simp] theorem State.raise_shutdown (s : State) (k : FaultKind) : (s.raise k).shutdown = s.shutdown := rfl
@[simp] theorem State.raise_opens (s : State) (k : FaultKind) : (s.raise k).opens = s.opens := rfl
@[simp] theorem State.raise_turns (s : State) (k : FaultKind) : (s.raise k).turns = s.turns := rfl
@[simp] theorem State.raise_again (s : State) (k : FaultKind) : (s.raise k).again = s.again := rfl

@[simp] theorem State.commit_params (s : State) (r : Option Word) : (s.commit r).params = s.params := rfl
@[simp] theorem State.commit_port (s : State) (r : Option Word) : (s.commit r).port = s.port := rfl
@[simp] theorem State.commit_buf (s : State) (r : Option Word) : (s.commit r).buf = s.buf.respond r := rfl
@[simp] theorem State.commit_control (s : State) (r : Option Word) : (s.commit r).control = .idle := rfl
@[simp] theorem State.commit_owner (s : State) (r : Option Word) : (s.commit r).owner = s.owner := rfl
@[simp] theorem State.commit_clients (s : State) (r : Option Word) : (s.commit r).clients = s.clients := rfl
@[simp] theorem State.commit_faults (s : State) (r : Option Word) : (s.commit r).faults = s.faults := rfl
@[simp] theorem State.commit_shutdown (s : State) (r : Option Word) : (s.commit r).shutdown = s.shutdown := rfl
@[simp] theorem State.commit_opens (s : State) (r : Option Word) : (s.commit r).opens = s.opens := rfl
@[simp] theorem State.commit_turns (s : State) (r : Option Word) : (s.commit r).turns = s.turns := rfl
@[simp] theorem State.commit_again (s : State) (r : Option Word) : (s.commit r).again = s.again := rfl

@[simp] theorem State.withPort_params (s : State) (q : Port) : (s.withPort q).params = s.params := rfl
@[simp] theorem State.withPort_port (s : State) (q : Port) : (s.withPort q).port = q := rfl
@[simp] theorem State.withPort_buf (s : State) (q : Port) : (s.withPort q).buf = s.buf := rfl
@[simp] theorem State.withPort_control (s : State) (q : Port) : (s.withPort q).control = s.control := rfl
@[simp] theorem State.withPort_owner (s : State) (q : Port) : (s.withPort q).owner = s.owner := rfl
@[simp] theorem State.withPort_clients (s : State) (q : Port) : (s.withPort q).clients = s.clients := rfl
@[simp] theorem State.withPort_faults (s : State) (q : Port) : (s.withPort q).faults = s.faults := rfl
@[simp] theorem State.withPort_shutdown (s : State) (q : Port) : (s.withPort q).shutdown = s.shutdown := rfl
@[simp] theorem State.withPort_opens (s : State) (q : Port) : (s.withPort q).opens = s.opens := rfl
@[simp] theorem State.withPort_turns (s : State) (q : Port) : (s.withPort q).turns = s.turns := rfl
@[simp] theorem State.withPort_again (s : State) (q : Port) : (s.withPort q).again = s.again := rfl

@[simp] theorem State.atPosition_params (s : State) (pos : Position) : (s.atPosition pos).params = s.params := rfl
@[simp] theorem State.atPosition_port (s : State) (pos : Position) : (s.atPosition pos).port = s.port := rfl
@[simp] theorem State.atPosition_buf (s : State) (pos : Position) : (s.atPosition pos).buf = s.buf := rfl
@[simp] theorem State.atPosition_control (s : State) (pos : Position) : (s.atPosition pos).control = .servicing pos := rfl
@[simp] theorem State.atPosition_owner (s : State) (pos : Position) : (s.atPosition pos).owner = s.owner := rfl
@[simp] theorem State.atPosition_clients (s : State) (pos : Position) : (s.atPosition pos).clients = s.clients := rfl
@[simp] theorem State.atPosition_faults (s : State) (pos : Position) : (s.atPosition pos).faults = s.faults := rfl
@[simp] theorem State.atPosition_shutdown (s : State) (pos : Position) : (s.atPosition pos).shutdown = s.shutdown := rfl
@[simp] theorem State.atPosition_opens (s : State) (pos : Position) : (s.atPosition pos).opens = s.opens := rfl
@[simp] theorem State.atPosition_turns (s : State) (pos : Position) : (s.atPosition pos).turns = s.turns := rfl
@[simp] theorem State.atPosition_again (s : State) (pos : Position) : (s.atPosition pos).again = s.again := rfl

@[simp] theorem State.setClient_params (s : State) (c : Nat) (cl : Client) : (s.setClient c cl).params = s.params := rfl
@[simp] theorem State.setClient_port (s : State) (c : Nat) (cl : Client) : (s.setClient c cl).port = s.port := rfl
@[simp] theorem State.setClient_buf (s : State) (c : Nat) (cl : Client) : (s.setClient c cl).buf = s.buf := rfl
@[simp] theorem State.setClient_control (s : State) (c : Nat) (cl : Client) : (s.setClient c cl).control = s.control := rfl
@[simp] theorem State.setClient_owner (s : State) (c : Nat) (cl : Client) : (s.setClient c cl).owner = s.owner := rfl
@[simp] theorem State.setClient_clients (s : State) (c : Nat) (cl : Client) : (s.setClient c cl).clients = s.clients.set c cl := rfl
@[simp] theorem State.setClient_faults (s : State) (c : Nat) (cl : Client) : (s.setClient c cl).faults = s.faults := rfl
@[simp] theorem State.setClient_shutdown (s : State) (c : Nat) (cl : Client) : (s.setClient c cl).shutdown = s.shutdown := rfl
@[simp] theorem State.setClient_opens (s : State) (c : Nat) (cl : Client) : (s.setClient c cl).opens = s.opens := rfl
@[simp] theorem State.setClient_turns (s : State) (c : Nat) (cl : Client) : (s.setClient c cl).turns = s.turns := rfl
@[simp] theorem State.setClient_again (s : State) (c : Nat) (cl : Client) : (s.setClient c cl).again = s.again := rfl

@[simp] theorem State.load_params (s : State) (c : Nat) (p : Packet) : (s.load c p).params = s.params := rfl
@[simp] theorem State.load_port (s : State) (c : Nat) (p : Packet) : (s.load c p).port = s.port := rfl
@[simp] theorem State.load_buf (s : State) (c : Nat) (p : Packet) : (s.load c p).buf = p := rfl
@[simp] theorem State.load_control (s : State) (c : Nat) (p : Packet) : (s.load c p).control = .servicing Position.start := rfl
@[simp] theorem State.load_owner (s : State) (c : Nat) (p : Packet) : (s.load c p).owner = some c := rfl
@[simp] theorem State.load_clients (s : State) (c : Nat) (p : Packet) : (s.load c p).clients = s.clients := rfl
@[simp] theorem State.load_faults (s : State) (c : Nat) (p : Packet) : (s.load c p).faults = s.faults := rfl
@[simp] theorem State.load_shutdown (s : State) (c : Nat) (p : Packet) : (s.load c p).shutdown = s.shutdown := rfl
@[simp] theorem State.load_opens (s : State) (c : Nat) (p : Packet) : (s.load c p).opens = s.opens := rfl
@[simp] theorem State.load_turns (s : State) (c : Nat) (p : Packet) : (s.load c p).turns = s.turns := rfl
@[simp] theorem State.load_again (s : State) (c : Nat) (p : Packet) : (s.load c p).again = s.again := rfl

@[simp] theorem State.place_params (s : State) (bs : List Byte) : (s.place bs).params = s.params := rfl
@[simp] theorem State.place_port (s : State) (bs : List Byte) : (s.place bs).port = s.port := rfl
@[simp] theorem State.place_buf (s : State) (bs : List Byte) : (s.place bs).buf = ⟨bs.getD 0 0, bs.getD 1 0, bs.getD 2 0⟩ := rfl
@[simp] theorem State.place_control (s : State) (bs : List Byte) : (s.place bs).control = .servicing Position.start := rfl
@[simp] theorem State.place_owner (s : State) (bs : List Byte) : (s.place bs).owner = some (s.owner.getD 0) := rfl
@[simp] theorem State.place_clients (s : State) (bs : List Byte) : (s.place bs).clients = s.clients := rfl
@[simp] theorem State.place_faults (s : State) (bs : List Byte) : (s.place bs).faults = s.faults := rfl
@[simp] theorem State.place_shutdown (s : State) (bs : List Byte) : (s.place bs).shutdown = false := rfl
@[simp] theorem State.place_opens (s : State) (bs : List Byte) : (s.place bs).opens = s.opens := rfl
@[simp] theorem State.place_turns (s : State) (bs : List Byte) : (s.place bs).turns = .dispatcher :: s.turns := rfl
@[simp] theorem State.place_again (s : State) (bs : List Byte) : (s.place bs).again = s.again := rfl

@[simp] theorem Port.record_mem (q : Port) (e : RegEvent) : (q.record e).mem = q.mem := rfl
@[simp] theorem Port.record_out0 (q : Port) (e : RegEvent) : (q.record e).out0 = q.out0 := rfl
@[simp] theorem Port.record_out1 (q : Port) (e : RegEvent) : (q.record e).out1 = q.out1 := rfl
@[simp] theorem Port.record_draws (q : Port) (e : RegEvent) : (q.record e).draws = q.draws := rfl
@[simp] theorem Port.record_history (q : Port) (e : RegEvent) : (q.record e).history = q.history ++ [e] := rfl

@[simp] theorem Packet.respond_b0 (p : Packet) (r : Option Word) : (p.respond r).b0 = Config.sentinel := rfl
@[simp] theorem Packet.respond_b1 (p : Packet) (r : Option Word) : (p.respond r).b1 = p.b1 := rfl
@[simp] theorem Packet.respond_none_b2 (p : Packet) : (p.respond none).b2 = p.b2 := rfl
@[simp] theorem Packet.respond_some_b2 (p : Packet) (r : Word) : (p.respond (some r)).b2 = trunc8 r := rfl

@[simp] theorem FaultSet.has_add (f : FaultSet) (k k' : FaultKind) :
    (f.add k).has k' = (decide (k = k') || f.has k') := by
  cases k <;> cases k' <;> rfl

theorem conditionsHold_iff {ps : Params} {n : Nat} :
    ps.conditionsHold n = true ↔ ps.wellFormed = true ∧ 0 < n := by
  simp [Params.conditionsHold]

/-- A client makes the one that `NCLIENTS >= 1` asks for. -/
theorem conditionsHold_of_client {s : State} {c : Nat} {cl : Client} (hw : s.params.wellFormed = true)
    (hc : s.clients[c]? = some cl) : s.params.conditionsHold s.clients.length = true :=
  conditionsHold_iff.mpr ⟨hw, Nat.zero_lt_of_lt (List.getElem?_eq_some_iff.mp hc).1⟩

theorem reset_memory_wf : State.reset.port.mem.wf = true := rfl

end Sys2Proof.Machine
end

