-- ==== Sys2Proof/Laws/Port.lean ====
section
/-! SUPPORT. What a register access can do: one lemma per field for RegRead and RegWrite, and what a storage word
answers. -/

namespace Sys2Proof.Machine

@[simp] theorem Port.answer_mem (ps : Params) (i : Nat) (q : Port) : (q.answer ps i).2.mem = q.mem := by
  unfold Port.answer; split <;> (repeat' split) <;> rfl
@[simp] theorem Port.answer_out0 (ps : Params) (i : Nat) (q : Port) : (q.answer ps i).2.out0 = q.out0 := by
  unfold Port.answer; split <;> (repeat' split) <;> rfl
@[simp] theorem Port.answer_out1 (ps : Params) (i : Nat) (q : Port) : (q.answer ps i).2.out1 = q.out1 := by
  unfold Port.answer; split <;> (repeat' split) <;> rfl
@[simp] theorem Port.answer_history (ps : Params) (i : Nat) (q : Port) : (q.answer ps i).2.history = q.history := by
  unfold Port.answer; split <;> (repeat' split) <;> rfl

@[simp] theorem Port.setOut_mem (q : Port) (m : WordMap) (f : BankFamily) (i : Nat) (g : Word → Word) :
    (q.setOut m f i g).mem = q.mem := by
  unfold Port.setOut; split <;> rfl
@[simp] theorem Port.setOut_draws (q : Port) (m : WordMap) (f : BankFamily) (i : Nat) (g : Word → Word) :
    (q.setOut m f i g).draws = q.draws := by
  unfold Port.setOut; split <;> rfl
@[simp] theorem Port.setOut_history (q : Port) (m : WordMap) (f : BankFamily) (i : Nat) (g : Word → Word) :
    (q.setOut m f i g).history = q.history := by
  unfold Port.setOut; split <;> rfl

@[simp] theorem Port.deliver_draws (ps : Params) (i : Nat) (v : Word) (q : Port) :
    (q.deliver ps i v).draws = q.draws := by
  unfold Port.deliver; split <;> (repeat' split) <;> simp
@[simp] theorem Port.deliver_history (ps : Params) (i : Nat) (v : Word) (q : Port) :
    (q.deliver ps i v).history = q.history := by
  unfold Port.deliver; split <;> (repeat' split) <;> simp

/-- A write stores at its own index or nowhere. -/
theorem Port.deliver_mem (ps : Params) (i : Nat) (v : Word) (q : Port) :
    (q.deliver ps i v).mem = q.mem ∨ (q.deliver ps i v).mem = q.mem.write i v := by
  unfold Port.deliver; split <;> (repeat' split) <;> simp

@[simp] theorem Port.regRead_fst (ps : Params) (i : Nat) (q : Port) : (q.regRead ps i).1 = (q.answer ps i).1 := rfl
@[simp] theorem Port.regRead_mem (ps : Params) (i : Nat) (q : Port) : (q.regRead ps i).2.mem = q.mem := by
  simp [Port.regRead]
@[simp] theorem Port.regRead_out0 (ps : Params) (i : Nat) (q : Port) : (q.regRead ps i).2.out0 = q.out0 := by
  simp [Port.regRead]
@[simp] theorem Port.regRead_out1 (ps : Params) (i : Nat) (q : Port) : (q.regRead ps i).2.out1 = q.out1 := by
  simp [Port.regRead]
@[simp] theorem Port.regRead_history (ps : Params) (i : Nat) (q : Port) :
    (q.regRead ps i).2.history = q.history ++ [.rd i (q.answer ps i).1] := by
  simp [Port.regRead]

@[simp] theorem Port.regWrite_draws (ps : Params) (i : Nat) (v : Word) (q : Port) :
    (q.regWrite ps i v).draws = q.draws := by
  simp [Port.regWrite]
@[simp] theorem Port.regWrite_history (ps : Params) (i : Nat) (v : Word) (q : Port) :
    (q.regWrite ps i v).history = q.history ++ [.wr i v] := by
  simp [Port.regWrite]
theorem Port.regWrite_mem (ps : Params) (i : Nat) (v : Word) (q : Port) :
    (q.regWrite ps i v).mem = q.mem ∨ (q.regWrite ps i v).mem = q.mem.write i v := Port.deliver_mem ps i v q

/-- A write keeps the canonical form of the bank. -/
theorem Port.regWrite_wf {ps : Params} {i : Nat} {v : Word} {q : Port} (h : q.mem.wf = true) :
    (q.regWrite ps i v).mem.wf = true := by
  rcases Port.regWrite_mem ps i v q with e | e <;> rw [e]
  · exact h
  · exact Memory.wf_write i v h

/-- A write leaves every other word alone. -/
theorem Port.regWrite_other {ps : Params} {i j : Nat} {v : Word} {q : Port} (h : q.mem.wf = true) (hj : j ≠ i) :
    (q.regWrite ps i v).mem.read j = q.mem.read j := by
  rcases Port.regWrite_mem ps i v q with e | e <;> rw [e]
  rw [Memory.read_write _ _ _ h, if_neg hj]

/-- A word that is neither volatile nor a command word (20_memory.md R56(a)). -/
def Params.isStorage (ps : Params) (i : Nat) : Prop := ps.words.isVolatile i = false ∧ ps.words.isCommand i = false

theorem Port.answer_storage {ps : Params} {i : Nat} (q : Port) (h : Params.isStorage ps i) :
    q.answer ps i = (q.mem.read i, q) := by
  obtain ⟨hv, hc⟩ := h
  have hl : ps.words.isOf .lev i = false := by simp_all [WordMap.isVolatile]
  unfold Port.answer
  split <;> simp [hv, hc, hl]

theorem Port.deliver_storage {ps : Params} {i : Nat} (v : Word) (q : Port) (h : Params.isStorage ps i) :
    q.deliver ps i v = { q with mem := q.mem.write i v } := by
  obtain ⟨hv, hc⟩ := h
  have hl : ps.words.isOf .lev i = false := by simp_all [WordMap.isVolatile]
  have hs : ps.words.isOf .set i = false ∧ ps.words.isOf .clr i = false := by simp_all [WordMap.isCommand]
  unfold Port.deliver
  split <;> simp [hv, hc, hl, hs]

end Sys2Proof.Machine
end

