-- ==== Sys2Proof/Laws/Access.lean ====
section
/-! SUPPORT. Running a command: composition, what every run leaves unchanged, and that every meaning is the run of its
command's accesses. -/

namespace Sys2Proof.Machine

@[simp] theorem Accesses.run_done {α : Type} (ps : Params) (a : α) (q : Port) :
    (Accesses.done a).run ps q = (a, q) := rfl
@[simp] theorem Accesses.run_read {α : Type} (ps : Params) (i : Nat) (next : Word → Accesses α) (q : Port) :
    (Accesses.read i next).run ps q = (next (q.answer ps i).1).run ps (q.regRead ps i).2 := rfl
@[simp] theorem Accesses.run_write {α : Type} (ps : Params) (i : Nat) (v : Word) (next : Accesses α) (q : Port) :
    (Accesses.write i v next).run ps q = next.run ps (q.regWrite ps i v) := rfl

/-- A sequence runs the first block, then the second from where the first left the port. -/
theorem Accesses.run_bind {α β : Type} (ps : Params) (p : Accesses α) (f : α → Accesses β) (q : Port) :
    (p.bind f).run ps q = (f (p.run ps q).1).run ps (p.run ps q).2 := by
  induction p generalizing q with
  | done a => rfl
  | read i next ih => exact ih _ _
  | write i v next ih => exact ih _

@[simp] theorem Accesses.bind_done {α β : Type} (a : α) (f : α → Accesses β) : (Accesses.done a).bind f = f a := rfl
@[simp] theorem Accesses.bind_read {α β : Type} (i : Nat) (next : Word → Accesses α) (f : α → Accesses β) :
    (Accesses.read i next).bind f = .read i fun x => (next x).bind f := rfl
@[simp] theorem Accesses.bind_write {α β : Type} (i : Nat) (v : Word) (next : Accesses α) (f : α → Accesses β) :
    (Accesses.write i v next).bind f = .write i v (next.bind f) := rfl

/-- Every access of a block is to one of the listed words. -/
def Accesses.Within {α : Type} (ws : List Nat) : Accesses α → Prop
  | .done _ => True
  | .read i next => i ∈ ws ∧ ∀ x, (next x).Within ws
  | .write i _ next => i ∈ ws ∧ next.Within ws

theorem Accesses.Within.bind {α β : Type} {ws : List Nat} {p : Accesses α} {f : α → Accesses β} (hp : p.Within ws)
    (hf : ∀ a, (f a).Within ws) : (p.bind f).Within ws := by
  induction p with
  | done a => exact hf a
  | read i next ih => exact ⟨hp.1, fun x => ih x (hp.2 x)⟩
  | write i v next ih => exact ⟨hp.1, ih hp.2⟩

theorem Accesses.Within.after {α : Type} {ws : List Nat} {p : Accesses α} (hp : p.Within ws) (xs : List Word) (n : Nat) :
    (p.after xs n).Within ws := by
  induction p generalizing xs n with
  | done a => cases n <;> exact hp
  | read i next ih =>
    cases n with
    | zero => exact hp
    | succ n =>
      cases xs with
      | nil => exact hp
      | cons x xs => exact ih x (hp.2 x) xs n
  | write i v next ih =>
    cases n with
    | zero => exact hp
    | succ n => exact ih hp.2 xs n

/-- A run keeps the canonical form of the bank. -/
theorem Accesses.run_wf {α : Type} (ps : Params) (p : Accesses α) {q : Port} (h : q.mem.wf = true) :
    (p.run ps q).2.mem.wf = true := by
  induction p generalizing q with
  | done a => exact h
  | read i next ih => exact ih _ (by simpa using h)
  | write i v next ih => exact ih (Port.regWrite_wf h)

/-- A run leaves every word outside its block's words alone. -/
theorem Accesses.run_outside {α : Type} (ps : Params) {ws : List Nat} {p : Accesses α} {q : Port} (hw : p.Within ws)
    (h : q.mem.wf = true) {j : Nat} (hj : j ∉ ws) : (p.run ps q).2.mem.read j = q.mem.read j := by
  induction p generalizing q with
  | done a => rfl
  | read i next ih => rw [Accesses.run_read, ih _ (hw.2 _) (by simpa using h)]; simp
  | write i v next ih =>
    rw [Accesses.run_write, ih hw.2 (Port.regWrite_wf h), Port.regWrite_other h fun e => hj (by rw [e]; exact hw.1)]

/-- A run appends to the history, and only accesses to its block's words. -/
theorem Accesses.run_history {α : Type} (ps : Params) {ws : List Nat} {p : Accesses α} (q : Port) (hw : p.Within ws) :
    ∃ l, (p.run ps q).2.history = q.history ++ l ∧
      ∀ e ∈ l, ∃ i ∈ ws, (∃ v, e = .rd i v) ∨ (∃ v, e = .wr i v) := by
  induction p generalizing q with
  | done a => exact ⟨[], by simp, by simp⟩
  | read i next ih =>
    obtain ⟨l, hl, hws⟩ := ih (q.answer ps i).1 (q.regRead ps i).2 (hw.2 _)
    refine ⟨.rd i (q.answer ps i).1 :: l, by simp [hl], fun e he => ?_⟩
    rcases List.mem_cons.mp he with rfl | he
    · exact ⟨i, hw.1, .inl ⟨_, rfl⟩⟩
    · exact hws e he
  | write i v next ih =>
    obtain ⟨l, hl, hws⟩ := ih (q.regWrite ps i v) hw.2
    refine ⟨.wr i v :: l, by simp [hl], fun e he => ?_⟩
    rcases List.mem_cons.mp he with rfl | he
    · exact ⟨i, hw.1, .inr ⟨_, rfl⟩⟩
    · exact hws e he

/-- Servicing in one step always answers a next state. -/
theorem State.service_next (s : State) (p : Accesses (Option Word)) :
    s.service p = .next ((s.withPort (p.run s.params s.port).2).commit (p.run s.params s.port).1) := rfl

/-- The meaning of an instruction is the run of its command. -/
theorem exec_eq_service (i : Instr) (s : State) : exec i s = s.service (commandOf s.params.words i) := by
  cases i <;> rfl

end Sys2Proof.Machine
end

