-- ==== Sys2Proof/Laws/Client.lean ====
section
/-! SUPPORT. What a client's steps can do: the RequestWrite, the ResponseRead, the call of a public operation and one poll,
each as the states it can leave; and that none of them touches the parameters, the register side or the number of
clients. -/

namespace Sys2Proof.Machine

/-- The operand checks with their bounds (30_encoding.md R82). -/
@[simp] theorem pinValid_eq (pin : Byte) : pinValid pin = decide (pin.toNat ≤ 53) := rfl
@[simp] theorem modeValid_eq (mode : Byte) : modeValid mode = decide (mode.toNat ≤ 7) := rfl
@[simp] theorem pullValid_eq (pull : Byte) : pullValid pull = decide (pull.toNat ≤ 2) := rfl

/-- The proxy checks the operands of the request it would send. -/
theorem inRange_eq (op : PublicOp) : op.inRange = op.request.wellFormed := by cases op <;> rfl

/-- What a failed range check returns is what a response byte 0 would. -/
theorem defaultResult_eq (op : PublicOp) : op.defaultResult = op.decodeResponse 0 := by cases op <;> rfl

theorem requestWrite_cases (s : State) (c : Nat) (p : Packet) :
    (∃ k, s.requestFault c = some k ∧ s.requestWrite c p = s.raise k) ∨
      (s.requestFault c = none ∧ s.requestWrite c p = s.load c p) := by
  unfold State.requestWrite
  cases s.requestFault c with
  | some k => exact .inl ⟨k, rfl, rfl⟩
  | none => exact .inr ⟨rfl, rfl⟩

/-- A RequestWrite loads exactly when the layer runs and no transaction is in its way. -/
theorem requestFault_none (s : State) (c : Nat) :
    s.requestFault c = none ↔
      s.shutdown = false ∧ ¬ (s.owner ≠ none ∧ (s.control.isServicing = true ∨ s.owner ≠ some c)) := by
  unfold State.requestFault
  split
  · next h => simp [h]
  · next h => split <;> rename_i h' <;> simp [h, h']

theorem responseRead_client {s : State} {c : Nat} {cl : Client} (h : s.clients[c]? = some cl) :
    s.responseRead c =
      { s with clients := s.clients.set c { cl with cbuf := s.buf }, owner := s.ownerAfterRead c } := by
  unfold State.responseRead
  rw [h]
  rfl

/-- The two ways a call ends, or the transaction it starts. -/
theorem callOp_cases (s : State) (c : Nat) (cl : Client) (op : PublicOp) :
    (op.inRange = false ∧ s.callOp c cl op = s.setClient c { cl with ret := some op.defaultResult }) ∨
    (op.inRange = true ∧ cl.chanOpen = false ∧
      s.callOp c cl op = (s.setClient c { cl with ret := none }).raise .notInitialised) ∨
    (op.inRange = true ∧ cl.chanOpen = true ∧
      s.callOp c cl op = (s.setClient c { cl with
        phase := .awaiting op
        cbuf := op.packet s.params.codes
        stopped := (s.requestFault c).isSome
        ret := none }).requestWrite c (op.packet s.params.codes)) := by
  unfold State.callOp
  cases op.inRange
  · exact .inl ⟨rfl, rfl⟩
  · cases cl.chanOpen
    · exact .inr (.inl ⟨rfl, rfl, rfl⟩)
    · exact .inr (.inr ⟨rfl, rfl, rfl⟩)

/-- Whether a RequestWrite faults does not depend on the clients. -/
@[simp] theorem requestFault_setClient (s : State) (c c' : Nat) (cl : Client) :
    (s.setClient c cl).requestFault c' = s.requestFault c' := rfl

/-- A poll reads the buffer and tests the sentinel, or does nothing. -/
theorem pollClient_cases {s : State} {c : Nat} {cl : Client} (h : s.clients[c]? = some cl) :
    ((cl.busy = false ∨ cl.stopped = true) ∧ s.pollClient c cl = s) ∨
    (∃ op, cl.phase = .awaiting op ∧ cl.stopped = false ∧
      s.pollClient c cl = { s with
        clients := s.clients.set c (Client.afterRead { cl with cbuf := s.buf } op), owner := s.ownerAfterRead c }) := by
  unfold State.pollClient Client.busy
  cases hp : cl.phase with
  | noTxn => exact .inl ⟨.inl rfl, rfl⟩
  | awaiting op =>
    cases hs : cl.stopped
    · refine .inr ⟨op, rfl, rfl, ?_⟩
      have hc : c < s.clients.length := (List.getElem?_eq_some_iff.mp h).1
      simp [responseRead_client h, State.setClient, hc, hp, hs]
    · exact .inl ⟨.inr rfl, rfl⟩

/-- What no step of a client touches. -/
def KeptByClients (s t : State) : Prop :=
  t.params = s.params ∧ t.port = s.port ∧ t.shutdown = s.shutdown ∧ t.turns = s.turns ∧ t.again = s.again ∧
    t.clients.length = s.clients.length

theorem requestWrite_kept (s : State) (c : Nat) (p : Packet) : KeptByClients s (s.requestWrite c p) := by
  rcases requestWrite_cases s c p with ⟨k, -, e⟩ | ⟨-, e⟩ <;> rw [e] <;> exact ⟨rfl, rfl, rfl, rfl, rfl, rfl⟩

theorem responseRead_kept (s : State) (c : Nat) : KeptByClients s (s.responseRead c) := by
  unfold State.responseRead
  split <;> simp [KeptByClients]

theorem initClient_kept (s : State) (c : Nat) (cl : Client) : KeptByClients s (s.initClient c cl) := by
  unfold State.initClient
  split <;> simp [KeptByClients]

theorem setClient_kept (s : State) (c : Nat) (cl : Client) : KeptByClients s (s.setClient c cl) := by
  simp [KeptByClients]

theorem KeptByClients.trans {s t u : State} (h : KeptByClients s t) (h' : KeptByClients t u) : KeptByClients s u :=
  ⟨h'.1.trans h.1, h'.2.1.trans h.2.1, h'.2.2.1.trans h.2.2.1, h'.2.2.2.1.trans h.2.2.2.1,
    h'.2.2.2.2.1.trans h.2.2.2.2.1, h'.2.2.2.2.2.trans h.2.2.2.2.2⟩

theorem callOp_kept (s : State) (c : Nat) (cl : Client) (op : PublicOp) : KeptByClients s (s.callOp c cl op) := by
  rcases callOp_cases s c cl op with ⟨-, e⟩ | ⟨-, -, e⟩ | ⟨-, -, e⟩ <;> rw [e]
  · exact setClient_kept s c _
  · exact setClient_kept s c _
  · exact (setClient_kept s c _).trans (requestWrite_kept _ c _)

theorem pollClient_kept {s : State} {c : Nat} {cl : Client} (h : s.clients[c]? = some cl) :
    KeptByClients s (s.pollClient c cl) := by
  rcases pollClient_cases h with ⟨-, e⟩ | ⟨op, -, -, e⟩ <;> rw [e] <;> simp [KeptByClients]

end Sys2Proof.Machine
end

