-- ==== Sys2Proof/Laws/Decode.lean ====
section
/-! SUPPORT. The rows of the code map: each row's command is encoded with its code, the row of a code is the only one,
and a code without a row is no command's. -/

namespace Sys2Proof

theorem nodup_of_distinct {α : Type} [BEq α] [LawfulBEq α] {l : List α} (h : distinct l = true) : l.Nodup := by
  induction l with
  | nil => exact List.nodup_nil
  | cons a rest ih =>
    simp only [distinct, Bool.and_eq_true, Bool.not_eq_true'] at h
    exact List.nodup_cons.mpr ⟨by simpa using h.1, ih h.2⟩

theorem findRow_some {c : Byte} {rows : List CodeRow} {r : CodeRow} (h : findRow c rows = some r) :
    r ∈ rows ∧ r.code = c := by
  induction rows with
  | nil => cases h
  | cons first rest ih =>
    unfold findRow at h
    split at h
    · next hc => cases h; exact ⟨List.mem_cons_self .., hc.symm⟩
    · exact ⟨List.mem_cons_of_mem _ (ih h).1, (ih h).2⟩

theorem findRow_none {c : Byte} {rows : List CodeRow} : findRow c rows = none ↔ ∀ r ∈ rows, r.code ≠ c := by
  induction rows with
  | nil => simp [findRow]
  | cons first rest ih =>
    unfold findRow
    split
    · next hc => simp [hc]
    · next hc => simp [ih, Ne.symm hc]

/-- Where the codes are distinct, a row is found by its own code. -/
theorem findRow_own {rows : List CodeRow} (hn : (rows.map CodeRow.code).Nodup) {r : CodeRow} (hr : r ∈ rows) :
    findRow r.code rows = some r := by
  induction rows with
  | nil => cases hr
  | cons first rest ih =>
    simp only [List.map_cons, List.nodup_cons, List.mem_map, not_exists, not_and] at hn
    unfold findRow
    rcases List.mem_cons.mp hr with rfl | hr
    · rw [if_pos rfl]
    · rw [if_neg (hn.1 r hr), ih hn.2 hr]

@[simp] theorem codeRows_codes (m : CodeMap) : (codeRows m).map CodeRow.code = m.all := rfl

/-- What a row decodes to is encoded with the row's code and the two operand bytes. -/
theorem codeRows_encode {m : CodeMap} {r : CodeRow} (h : r ∈ codeRows m) (p v : Byte) :
    m.code (r.command p v) = r.code ∧ (r.command p v).pin = p ∧ (r.command p v).value = v := by
  simp only [codeRows, List.mem_cons, List.not_mem_nil, or_false] at h
  rcases h with rfl | rfl | rfl | rfl | rfl | rfl | rfl | rfl | rfl | rfl | rfl | rfl | rfl | rfl | rfl | rfl | rfl |
    rfl | rfl <;> exact ⟨rfl, rfl, rfl⟩

/-- Every instruction has its row. -/
theorem codeRows_instr (m : CodeMap) (i : Instr) :
    ∃ r ∈ codeRows m, r.code = m.code i ∧ r.command i.pin i.value = i := by
  cases i <;> simp [codeRows, CodeMap.code, Instr.pin, Instr.value]

end Sys2Proof
end

