-- ==== Sys2Proof/Laws/Mapper.lean ====
section
/-! SUPPORT. The mapper on valid and invalid pins, the engine's bit and field arithmetic bit by bit, and what the
condition on the word map says of the family words. -/

namespace Sys2Proof.Machine

theorem pinBit_eq (pin : Byte) : pinBit pin = pin.toNat % 32 := by
  unfold pinBit
  rw [BitVec.toNat_and]
  exact Nat.and_two_pow_sub_one_eq_mod pin.toNat 5

theorem pinBit_lt (pin : Byte) : pinBit pin < 32 := by rw [pinBit_eq]; omega

theorem pinFieldOffset_le (pin : Byte) : pinFieldOffset pin ≤ 27 := by unfold pinFieldOffset; omega

theorem locate_invalid (m : WordMap) {pin : Byte} (f : PinFamily) (h : 53 < pin.toNat) : locate m pin f = none :=
  if_pos h

theorem locate_bank (m : WordMap) {pin : Byte} (f : BankFamily) (h : pin.toNat ≤ 53) :
    locate m pin (.bank f) = some (m.bankWord f (pinBank pin), pinBit pin) := if_neg (by omega)

theorem locate_fsel (m : WordMap) {pin : Byte} (h : pin.toNat ≤ 53) :
    locate m pin .fsel = some (m.fselWord (pinBucket pin), pinFieldOffset pin) := if_neg (by omega)

/-- Bit j of a single-bit mask. -/
theorem bitWord_getLsbD (b j : Nat) (hj : j < 32) : (bitWord b).getLsbD j = decide (j = b) := by
  simp only [bitWord, BitVec.getLsbD_shiftLeft, hj, decide_true, Bool.true_and, BitVec.getLsbD_one]
  rw [Bool.eq_iff_iff]
  simp only [Bool.and_eq_true, Bool.not_eq_true', decide_eq_false_iff_not, decide_eq_true_eq]
  omega

/-- Bit j of a 3-bit field mask. -/
theorem fieldWord_getLsbD (off j : Nat) (hj : j < 32) :
    (fieldWord off).getLsbD j = (decide (off ≤ j) && decide (j < off + 3)) := by
  have seven : ∀ k, (7#32).getLsbD k = decide (k < 3) := by
    intro k
    by_cases hk : k < 32
    · interval_cases k <;> rfl
    · rw [BitVec.getLsbD_of_ge _ _ (by omega)]; simp; omega
  simp only [fieldWord, BitVec.getLsbD_shiftLeft, hj, decide_true, Bool.true_and, seven]
  rw [Bool.eq_iff_iff]
  simp only [Bool.and_eq_true, Bool.not_eq_true', decide_eq_false_iff_not, decide_eq_true_eq]
  omega

/-- The bit the engine tests is the bit of the word. -/
theorem wordBit_eq (x : Word) (b : Nat) : wordBit x b = x.getLsbD b := by
  have h1 : ∀ y : Word, (y &&& 1#32 == 1#32) = y.getLsbD 0 := by
    intro y
    have e : y &&& 1#32 = if y.getLsbD 0 then 1#32 else 0#32 := by
      apply BitVec.eq_of_getLsbD_eq
      intro j hj
      by_cases h : y.getLsbD 0 <;> by_cases h0 : j = 0 <;> simp_all
    rw [e]
    cases y.getLsbD 0 <;> rfl
  simp [wordBit, h1]

theorem assignBit_getLsbD (x : Word) (b : Nat) (en : Bool) (j : Nat) (hj : j < 32) :
    (assignBit x b en).getLsbD j = if j = b then en else x.getLsbD j := by
  cases en
  · simp only [assignBit, Bool.false_eq_true, if_false, BitVec.getLsbD_and, BitVec.getLsbD_not, hj, decide_true,
      Bool.true_and, bitWord_getLsbD b j hj]
    split <;> simp_all
  · simp only [assignBit, if_true, BitVec.getLsbD_or, bitWord_getLsbD b j hj]
    split <;> simp_all

theorem zext32_high {value : Byte} (hv : value.toNat ≤ 7) {k : Nat} (hk : 3 ≤ k) : (zext32 value).getLsbD k = false := by
  rw [BitVec.getLsbD, zext32, BitVec.toNat_setWidth]
  exact Nat.testBit_lt_two_pow (by
    calc value.toNat % 2 ^ 32 ≤ value.toNat := Nat.mod_le _ _
      _ < 2 ^ 3 := by omega
      _ ≤ 2 ^ k := Nat.pow_le_pow_right (by omega) hk)

theorem updateWord_getLsbD (x : Word) (off : Nat) {value : Byte} (hv : value.toNat ≤ 7) (j : Nat) (hj : j < 32) :
    (updateWord x off value).getLsbD j =
      if off ≤ j ∧ j < off + 3 then (zext32 value).getLsbD (j - off) else x.getLsbD j := by
  simp only [updateWord, BitVec.getLsbD_or, BitVec.getLsbD_and, BitVec.getLsbD_not, BitVec.getLsbD_shiftLeft, hj,
    fieldWord_getLsbD off j hj, decide_true, Bool.true_and]
  split
  · next h => simp [h.1, h.2]
  · next h =>
    by_cases h1 : off ≤ j
    · have h2 : off + 3 ≤ j := by omega
      have : (zext32 value).getLsbD (j - off) = false := zext32_high hv (by omega)
      simp [this, show ¬ j < off + 3 by omega]
    · simp [h1, show j < off by omega]

theorem wordField_getLsbD (x : Word) (off j : Nat) :
    (wordField x off).getLsbD j = (decide (j < 3) && x.getLsbD (off + j)) := by
  have h7 : (7#32).getLsbD j = decide (j < 3) := by
    by_cases hj : j < 32
    · interval_cases j <;> rfl
    · rw [BitVec.getLsbD_of_ge _ _ (by omega)]; simp; omega
  rw [wordField, BitVec.getLsbD_and, BitVec.getLsbD_ushiftRight, h7, Bool.and_comm]

/-- The 29 family words are pairwise distinct under the condition of 20_memory.md R53. -/
theorem words_nodup {ps : Params} (h : ps.wellFormed = true) : ps.words.all.Nodup := by
  simp only [Params.wellFormed, WordMap.wellFormed, Bool.and_eq_true] at h
  exact nodup_of_distinct h.1.1

/-- Every family word lies in the bank under the condition of R53. -/
theorem words_below {ps : Params} (h : ps.wellFormed = true) {i : Nat} (hi : i ∈ ps.words.all) : i < ps.nwords := by
  simp only [Params.wellFormed, WordMap.wellFormed, Bool.and_eq_true] at h
  exact Nat.le_of_ble_eq_true (List.all_eq_true.mp h.1.2 i hi)

end Sys2Proof.Machine
end

