-- ==== Sys2Proof/Laws/Words.lean ====
section
/-! SUPPORT. Under the condition of 20_memory.md R53 the family words are told apart by their place in the list of all 29,
so each word has exactly the class R56 gives its family. -/

namespace Sys2Proof.Machine

/-- The place of a two-bank family in the list of all words. -/
def familyPlace : BankFamily → Nat
  | .set => 0
  | .clr => 1
  | .lev => 2
  | .pudclk => 3
  | .eds => 4
  | .ren => 5
  | .fen => 6
  | .aren => 7
  | .afen => 8
  | .hen => 9
  | .len => 10

/-- The place of a bank in its pair. -/
def bankPlace : Bank → Nat
  | .bank0 => 0
  | .bank1 => 1

theorem bankWord_place (m : WordMap) (f : BankFamily) (k : Bank) :
    m.all[2 * familyPlace f + bankPlace k]? = some (m.bankWord f k) := by
  cases f <;> cases k <;> rfl

theorem fselWord_place (m : WordMap) {k : Nat} (h : k ≤ 5) : m.all[22 + k]? = some (m.fselWord k) := by
  interval_cases k <;> rfl

theorem pud_place (m : WordMap) : m.all[28]? = some m.pud := rfl

theorem place_unique {ps : Params} (h : ps.wellFormed = true) {a b x : Nat} (ha : ps.words.all[a]? = some x)
    (hb : ps.words.all[b]? = some x) : a = b := by
  obtain ⟨hla, -⟩ := List.getElem?_eq_some_iff.mp ha
  exact (List.getElem?_inj hla (words_nodup h)).mp (ha.trans hb.symm)

theorem familyPlace_inj {f g : BankFamily} (h : familyPlace f = familyPlace g) : f = g := by
  cases f <;> cases g <;> first | rfl | cases h

theorem familyPlace_le (f : BankFamily) : familyPlace f ≤ 10 := by cases f <;> decide

theorem bankPlace_le (k : Bank) : bankPlace k ≤ 1 := by cases k <;> decide

theorem bankPlace_inj {k l : Bank} (h : bankPlace k = bankPlace l) : k = l := by
  cases k <;> cases l <;> first | rfl | cases h

/-- Two words of two-bank families are the same only if family and bank are. -/
theorem bankWord_inj {ps : Params} (h : ps.wellFormed = true) {f g : BankFamily} {k l : Bank}
    (e : ps.words.bankWord f k = ps.words.bankWord g l) : f = g ∧ k = l := by
  have := place_unique h (bankWord_place ps.words f k) (e ▸ bankWord_place ps.words g l)
  have := bankPlace_le k
  have := bankPlace_le l
  exact ⟨familyPlace_inj (by omega), bankPlace_inj (by omega)⟩

theorem bankWord_ne_fselWord {ps : Params} (h : ps.wellFormed = true) (f : BankFamily) (k : Bank) {b : Nat}
    (hb : b ≤ 5) : ps.words.bankWord f k ≠ ps.words.fselWord b := by
  intro e
  have := place_unique h (bankWord_place ps.words f k) (e ▸ fselWord_place ps.words hb)
  have := familyPlace_le f
  have := bankPlace_le k
  omega

theorem bankWord_ne_pud {ps : Params} (h : ps.wellFormed = true) (f : BankFamily) (k : Bank) :
    ps.words.bankWord f k ≠ ps.words.pud := by
  intro e
  have := place_unique h (bankWord_place ps.words f k) (e ▸ pud_place ps.words)
  have := familyPlace_le f
  have := bankPlace_le k
  omega

theorem fselWord_ne_pud {ps : Params} (h : ps.wellFormed = true) {b : Nat} (hb : b ≤ 5) :
    ps.words.fselWord b ≠ ps.words.pud := by
  intro e
  have := place_unique h (fselWord_place ps.words hb) (e ▸ pud_place ps.words)
  omega

theorem bankWord_mem (m : WordMap) (f : BankFamily) (k : Bank) : m.bankWord f k ∈ m.all :=
  List.mem_of_getElem? (bankWord_place m f k)

theorem fselWord_mem (m : WordMap) (k : Nat) : m.fselWord k ∈ m.all := by
  by_cases h : k ≤ 5
  · exact List.mem_of_getElem? (fselWord_place m h)
  · have e : m.fselWord k = m.fselWord 5 := by
      match k, h with
      | n + 6, _ => rfl
    rw [e]
    exact List.mem_of_getElem? (fselWord_place m (Nat.le_refl 5))

theorem pud_mem (m : WordMap) : m.pud ∈ m.all := List.mem_of_getElem? (pud_place m)

/-- A word is of a family's pair exactly when it is that family's own. -/
theorem isOf_bankWord {ps : Params} (h : ps.wellFormed = true) (f g : BankFamily) (k : Bank) :
    ps.words.isOf f (ps.words.bankWord g k) = decide (g = f) := by
  rw [Bool.eq_iff_iff]
  simp only [WordMap.isOf, Bool.or_eq_true, decide_eq_true_eq]
  constructor
  · rintro (e | e) <;> exact (bankWord_inj h e).1
  · rintro rfl
    cases k
    · exact .inl rfl
    · exact .inr rfl

theorem isOf_fselWord {ps : Params} (h : ps.wellFormed = true) (f : BankFamily) {b : Nat} (hb : b ≤ 5) :
    ps.words.isOf f (ps.words.fselWord b) = false := by
  simp [WordMap.isOf, Ne.symm (bankWord_ne_fselWord h f .bank0 hb), Ne.symm (bankWord_ne_fselWord h f .bank1 hb)]

theorem isOf_pud {ps : Params} (h : ps.wellFormed = true) (f : BankFamily) : ps.words.isOf f ps.words.pud = false := by
  simp [WordMap.isOf, Ne.symm (bankWord_ne_pud h f .bank0), Ne.symm (bankWord_ne_pud h f .bank1)]

/-- PUDCLK and the six enable families are storage words (R56(a)). -/
theorem bankWord_storage {ps : Params} (h : ps.wellFormed = true) {f : BankFamily} (k : Bank)
    (hf : f ≠ .set ∧ f ≠ .clr ∧ f ≠ .lev ∧ f ≠ .eds) : Params.isStorage ps (ps.words.bankWord f k) := by
  simp [Params.isStorage, WordMap.isVolatile, WordMap.isCommand, isOf_bankWord h, hf]

theorem fselWord_storage {ps : Params} (h : ps.wellFormed = true) {b : Nat} (hb : b ≤ 5) :
    Params.isStorage ps (ps.words.fselWord b) := by
  simp [Params.isStorage, WordMap.isVolatile, WordMap.isCommand, isOf_fselWord h _ hb]

theorem pud_storage {ps : Params} (h : ps.wellFormed = true) : Params.isStorage ps ps.words.pud := by
  simp [Params.isStorage, WordMap.isVolatile, WordMap.isCommand, isOf_pud h]

end Sys2Proof.Machine
end

