-- ==== Sys2Proof/Laws/Engine.lean ====
section
/-! SUPPORT. What each engine primitive does to the register port: on an invalid operand nothing, on a storage word the
read and the write it makes, in one equation each. -/

namespace Sys2Proof.Machine

/-- A read of a storage word leaves only its event. -/
theorem Port.regRead_storage {ps : Params} {i : Nat} (q : Port) (h : Params.isStorage ps i) :
    q.regRead ps i = (q.mem.read i, q.record (.rd i (q.mem.read i))) := by
  simp [Port.regRead, Port.answer_storage q h]

/-- A write of a storage word stores it and leaves its event. -/
theorem Port.regWrite_storage {ps : Params} {i : Nat} (v : Word) (q : Port) (h : Params.isStorage ps i) :
    q.regWrite ps i v = { q with mem := q.mem.write i v, history := q.history ++ [.wr i v] } := by
  simp [Port.regWrite, Port.deliver_storage v q h, Port.record]

/-- A read-modify-write of a storage word (41_register_engine.md R126, R127). -/
def Port.modify (q : Port) (i : Nat) (g : Word → Word) : Port :=
  { q with
    mem := q.mem.write i (g (q.mem.read i))
    history := q.history ++ [.rd i (q.mem.read i), .wr i (g (q.mem.read i))] }

theorem Accesses.run_modify {ps : Params} {i : Nat} (q : Port) (g : Word → Word) (h : Params.isStorage ps i) :
    ((readWord i).bind fun x => writeWord i (g x)).run ps q = ((), q.modify i g) := by
  simp [readWord, writeWord, Port.regRead_storage q h, Port.regWrite_storage _ _ h, Port.answer_storage q h,
    Port.modify, Port.record]

theorem run_writeBit {ps : Params} (hw : ps.wellFormed = true) {f : BankFamily} {pin : Byte} (en : Bool) (q : Port)
    (hp : pin.toNat ≤ 53) (hf : f ≠ .set ∧ f ≠ .clr ∧ f ≠ .lev ∧ f ≠ .eds) :
    (writeBit ps.words f pin en).run ps q =
      ((), q.modify (ps.words.bankWord f (pinBank pin)) fun x => assignBit x (pinBit pin) en) := by
  simp only [writeBit, locate_bank ps.words f hp]
  exact Accesses.run_modify q _ (bankWord_storage hw _ hf)

theorem run_updateField {ps : Params} (hw : ps.wellFormed = true) {pin value : Byte} (q : Port)
    (hp : pin.toNat ≤ 53) (hv : value.toNat ≤ 7) :
    (updateField ps.words pin value).run ps q =
      ((), q.modify (ps.words.fselWord (pinBucket pin)) fun x => updateWord x (pinFieldOffset pin) value) := by
  simp only [updateField, locate_fsel ps.words hp, if_neg (show ¬ 7 < value.toNat by omega)]
  exact Accesses.run_modify q _ (fselWord_storage hw (by unfold pinBucket; omega))

theorem run_setPull {ps : Params} (hw : ps.wellFormed = true) {pin pull : Byte} (q : Port) (hp : pin.toNat ≤ 53)
    (hv : pull.toNat ≤ 2) :
    (setPull ps.words pin pull).run ps q =
      ((), { q with
        mem := (q.mem.write ps.words.pud (zext32 pull)).write (ps.words.bankWord .pudclk (pinBank pin)) (bitmask pin)
        history := q.history ++
          [.wr ps.words.pud (zext32 pull), .wr (ps.words.bankWord .pudclk (pinBank pin)) (bitmask pin)] }) := by
  simp [setPull, locate_bank ps.words .pudclk hp, if_neg (show ¬ 2 < pull.toNat by omega), writeWord,
    Port.regWrite_storage _ _ (pud_storage hw), Port.regWrite_storage _ _ (bankWord_storage hw (pinBank pin) (f := .pudclk) (by decide)), bitmask]

theorem run_readBit (ps : Params) (f : BankFamily) {pin : Byte} (q : Port) (hp : pin.toNat ≤ 53) :
    (readBit ps.words f pin).run ps q =
      (wordBit (q.answer ps (ps.words.bankWord f (pinBank pin))).1 (pinBit pin),
        (q.regRead ps (ps.words.bankWord f (pinBank pin))).2) := by
  simp [readBit, locate_bank ps.words f hp, readWord]

theorem run_readField (ps : Params) {pin : Byte} (q : Port) (hp : pin.toNat ≤ 53) :
    (readField ps.words pin).run ps q =
      (wordField (q.answer ps (ps.words.fselWord (pinBucket pin))).1 (pinFieldOffset pin),
        (q.regRead ps (ps.words.fselWord (pinBucket pin))).2) := by
  simp [readField, locate_fsel ps.words hp, readWord]

/-- `event_detected`: the read, and the write-back exactly when the bit read is 1. -/
theorem run_eventDetected (ps : Params) {pin : Byte} (q : Port) (hp : pin.toNat ≤ 53) :
    (eventDetected ps.words pin).run ps q =
      let w := ps.words.bankWord .eds (pinBank pin)
      let x := (q.answer ps w).1
      if wordBit x (pinBit pin) then (true, (q.regRead ps w).2.regWrite ps w x) else (false, (q.regRead ps w).2) := by
  simp only [eventDetected, locate_bank ps.words .eds hp, readWord, Accesses.bind_read, Accesses.bind_done,
    Accesses.run_read]
  split <;> simp [writeWord]

@[simp] theorem run_void (ps : Params) (p : Accesses Unit) (q : Port) :
    p.void.run ps q = (none, (p.run ps q).2) := by
  simp [Accesses.void, Accesses.run_bind]

@[simp] theorem run_boolResult (ps : Params) (p : Accesses Bool) (q : Port) :
    p.boolResult.run ps q = (some (boolWord (p.run ps q).1), (p.run ps q).2) := by
  simp [Accesses.boolResult, Accesses.run_bind]

@[simp] theorem run_wordResult (ps : Params) (p : Accesses Word) (q : Port) :
    p.wordResult.run ps q = (some (p.run ps q).1, (p.run ps q).2) := by
  simp [Accesses.wordResult, Accesses.run_bind]

@[simp] theorem Port.modify_out0 (q : Port) (i : Nat) (g : Word → Word) : (q.modify i g).out0 = q.out0 := rfl
@[simp] theorem Port.modify_out1 (q : Port) (i : Nat) (g : Word → Word) : (q.modify i g).out1 = q.out1 := rfl
@[simp] theorem Port.modify_draws (q : Port) (i : Nat) (g : Word → Word) : (q.modify i g).draws = q.draws := rfl
@[simp] theorem Port.modify_mem (q : Port) (i : Nat) (g : Word → Word) :
    (q.modify i g).mem = q.mem.write i (g (q.mem.read i)) := rfl
@[simp] theorem Port.modify_history (q : Port) (i : Nat) (g : Word → Word) :
    (q.modify i g).history = q.history ++ [.rd i (q.mem.read i), .wr i (g (q.mem.read i))] := rfl

end Sys2Proof.Machine
end

