-- ==== Sys2Proof/Laws/Readings.lean ====
section
/-! SUPPORT. The terms claims are stated in, Sys2Proof.Safety, against the mapper and the engine: where a pin's bit and field
lie, what a volatile word answers, and what a served request leaves untouched. -/

namespace Sys2Proof

open Machine

theorem wordOf_eq (m : WordMap) (f : BankFamily) (pin : Byte) : wordOf m f pin = m.bankWord f (pinBank pin) := by
  unfold wordOf pinBank
  split <;> rfl

theorem bitOf_eq (pin : Byte) : bitOf pin = pinBit pin := (pinBit_eq pin).symm

theorem maskOf_eq (pin : Byte) : maskOf pin = bitmask pin := by rw [maskOf, bitOf_eq]; rfl

theorem fieldWordOf_eq (m : WordMap) {pin : Byte} (h : pin.toNat ≤ 53) :
    fieldWordOf m pin = m.fselWord (pinBucket pin) := by
  have : pin.toNat / 10 ≤ 5 := by omega
  unfold fieldWordOf fselWords pinBucket
  generalize pin.toNat / 10 = k at *
  interval_cases k <;> rfl

theorem bitOf_lt (pin : Byte) : bitOf pin < 32 := Nat.mod_lt _ (by decide)

/-- A commit without a result keeps byte 2. -/
theorem answered_void (s : State) (q : Port) : Answered s ((s.withPort q).commit none) s.buf.b2 :=
  ⟨rfl, rfl, rfl, rfl, rfl, rfl, rfl, rfl, rfl, rfl⟩

/-- A commit of a result puts its low byte into byte 2. -/
theorem answered_result (s : State) (q : Port) (r : Word) : Answered s ((s.withPort q).commit (some r)) (trunc8 r) :=
  ⟨rfl, rfl, rfl, rfl, rfl, rfl, rfl, rfl, rfl, rfl⟩

theorem trunc8_boolWord (b : Bool) : trunc8 (boolWord b) = flagByte b := by cases b <;> rfl

theorem trunc8_wordField (x : Word) (off : Nat) : trunc8 (wordField x off) = (x.extractLsb' off 3).setWidth 8 := by
  apply BitVec.eq_of_getLsbD_eq
  intro j hj
  simp only [trunc8, BitVec.getLsbD_setWidth, wordField_getLsbD, hj, decide_true, Bool.true_and,
    BitVec.getLsbD_extractLsb']

/-- A packet byte assigns a bit: cleared for 0, set for any other. -/
theorem assignBit_byteBool (x : Word) (pin v : Byte) :
    assignBit x (pinBit pin) (byteBool v) = if v = 0 then x &&& ~~~ maskOf pin else x ||| maskOf pin := by
  rw [maskOf_eq]
  by_cases h : v = 0 <;> simp [assignBit, byteBool, h, bitmask]

theorem answer_eds {s : State} (hw : s.params.wellFormed = true) (k : Bank) :
    (s.port.answer s.params (s.params.words.bankWord .eds k)).1 =
      volatileRead s (s.port.mem.read (s.params.words.bankWord .eds k)) := by
  unfold Port.answer volatileRead
  cases s.params.periph <;> simp [WordMap.isVolatile, WordMap.isCommand, isOf_bankWord hw]

theorem isVolatile_bankWord (m : WordMap) {f : BankFamily} (hf : f = .lev ∨ f = .eds) (k : Bank) :
    m.isVolatile (m.bankWord f k) = true := by
  rcases hf with rfl | rfl <;> cases k <;> simp [WordMap.isVolatile, WordMap.isOf]

/-- A read of a volatile word uses up one draw in the general model and none in the loopback model. -/
theorem regRead_draws {s : State} {q : Port} (hq : q.draws = s.port.draws) {f : BankFamily} (hf : f = .lev ∨ f = .eds)
    (k : Bank) : (q.regRead s.params (s.params.words.bankWord f k)).2.draws = drawsAfterVolatileRead s := by
  unfold Port.regRead Port.answer drawsAfterVolatileRead
  cases s.params.periph with
  | general => simp [isVolatile_bankWord _ hf, hq]
  | loopback => simp only; split <;> [skip; split] <;> exact hq

/-- `event_detected` on a valid pin makes one such read. -/
theorem run_eventDetected_draws {s : State} {q : Port} (hq : q.draws = s.port.draws) {pin : Byte} (hp : pin.toNat ≤ 53) :
    ((eventDetected s.params.words pin).run s.params q).2.draws = drawsAfterVolatileRead s := by
  rw [run_eventDetected s.params q hp]
  simp only
  split
  · simp only [Port.regWrite_draws, regRead_draws hq (.inr rfl)]
  · exact regRead_draws hq (.inr rfl) _

theorem bank1_ne_bank0 {ps : Params} (hw : ps.wellFormed = true) (f : BankFamily) :
    ps.words.bankWord f .bank1 ≠ ps.words.bankWord f .bank0 := fun e => by cases (bankWord_inj hw e).2

theorem answer_lev {s : State} (hw : s.params.wellFormed = true) (pin : Byte) :
    (s.port.answer s.params (s.params.words.bankWord .lev (pinBank pin))).1 =
      volatileRead s (if pin.toNat < 32 then s.port.out0 else s.port.out1) := by
  have hk : pinBank pin = if pin.toNat < 32 then .bank0 else .bank1 := rfl
  unfold Port.answer volatileRead
  cases s.params.periph <;> simp [WordMap.isVolatile, isOf_bankWord hw, Port.outOf, hk]
  split <;> simp [bank1_ne_bank0 hw]

/-- Writing back to EDS what was read there changes no stored word and no latch. -/
theorem regWrite_eds {ps : Params} {q : Port} {k : Bank} {x : Word} (hw : ps.wellFormed = true)
    (hm : q.mem.wf = true) (hx : ps.periph = .loopback → x = q.mem.read (ps.words.bankWord .eds k)) :
    (∀ a, (q.regWrite ps (ps.words.bankWord .eds k) x).mem.read a = q.mem.read a) ∧
      (q.regWrite ps (ps.words.bankWord .eds k) x).out0 = q.out0 ∧
      (q.regWrite ps (ps.words.bankWord .eds k) x).out1 = q.out1 := by
  simp only [Port.regWrite, Port.record_mem, Port.record_out0, Port.record_out1]
  unfold Port.deliver
  split <;> rename_i hp <;> simp [WordMap.isVolatile, isOf_bankWord hw]
  intro a
  rw [Memory.read_write _ _ _ hm]
  split
  · next h => rw [hx hp, h]
  · rfl

end Sys2Proof
end

