-- ==== Sys2Proof/Laws/Families.lean ====
section
/-! SUPPORT. Each primitive accesses only the words of the families it is given, and so each command only the words of its
own families (10_state.md R30, 42_commands.md R173). -/

namespace Sys2Proof.Machine

theorem bankWord_mem_pairWords (m : WordMap) (f : BankFamily) (k : Bank) : m.bankWord f k ∈ pairWords m f := by
  cases k <;> simp [pairWords]

theorem fselWord_mem_fselWords (m : WordMap) (k : Nat) : m.fselWord k ∈ fselWords m := by
  unfold WordMap.fselWord fselWords
  split <;> simp

theorem Accesses.Within.mono {α : Type} {ws ws' : List Nat} {p : Accesses α} (h : p.Within ws) (hs : ws ⊆ ws') :
    p.Within ws' := by
  induction p with
  | done a => trivial
  | read i next ih => exact ⟨hs h.1, fun x => ih x (h.2 x)⟩
  | write i v next ih => exact ⟨hs h.1, ih h.2⟩

theorem Accesses.Within.void {ws : List Nat} {p : Accesses Unit} (h : p.Within ws) : p.void.Within ws :=
  h.bind fun _ => trivial

theorem Accesses.Within.boolResult {ws : List Nat} {p : Accesses Bool} (h : p.Within ws) : p.boolResult.Within ws :=
  h.bind fun _ => trivial

theorem Accesses.Within.wordResult {ws : List Nat} {p : Accesses Word} (h : p.Within ws) : p.wordResult.Within ws :=
  h.bind fun _ => trivial

theorem setBit_within (m : WordMap) (pin : Byte) : (setBit m pin).Within (pairWords m .set) := by
  unfold setBit locate
  split <;> rename_i e <;> split at e <;> cases e
  · exact ⟨bankWord_mem_pairWords .., trivial⟩
  · trivial

theorem clearBit_within (m : WordMap) (pin : Byte) : (clearBit m pin).Within (pairWords m .clr) := by
  unfold clearBit locate
  split <;> rename_i e <;> split at e <;> cases e
  · exact ⟨bankWord_mem_pairWords .., trivial⟩
  · trivial

theorem readBit_within (m : WordMap) (f : BankFamily) (pin : Byte) : (readBit m f pin).Within (pairWords m f) := by
  unfold readBit locate
  split <;> rename_i e <;> split at e <;> cases e
  · exact ⟨bankWord_mem_pairWords .., fun _ => trivial⟩
  · trivial

theorem readField_within (m : WordMap) (pin : Byte) : (readField m pin).Within (fselWords m) := by
  unfold readField locate
  split <;> rename_i e <;> split at e <;> cases e
  · exact ⟨fselWord_mem_fselWords .., fun _ => trivial⟩
  · trivial

theorem updateField_within (m : WordMap) (pin value : Byte) : (updateField m pin value).Within (fselWords m) := by
  unfold updateField locate
  split
  · trivial
  · split <;> rename_i e <;> split at e <;> cases e
    · exact ⟨fselWord_mem_fselWords .., fun _ => ⟨fselWord_mem_fselWords .., trivial⟩⟩
    · trivial

theorem writeBit_within (m : WordMap) (f : BankFamily) (pin : Byte) (en : Bool) :
    (writeBit m f pin en).Within (pairWords m f) := by
  unfold writeBit locate
  split <;> rename_i e <;> split at e <;> cases e
  · exact ⟨bankWord_mem_pairWords .., fun _ => ⟨bankWord_mem_pairWords .., trivial⟩⟩
  · trivial

theorem setPull_within (m : WordMap) (pin pull : Byte) : (setPull m pin pull).Within (m.pud :: pairWords m .pudclk) := by
  unfold setPull locate
  split
  · trivial
  · split <;> rename_i e <;> split at e <;> cases e
    · exact ⟨List.mem_cons_self .., List.mem_cons_of_mem _ (bankWord_mem_pairWords ..), trivial⟩
    · trivial

theorem eventDetected_within (m : WordMap) (pin : Byte) : (eventDetected m pin).Within (pairWords m .eds) := by
  unfold eventDetected locate
  split <;> rename_i e <;> split at e <;> cases e
  · refine ⟨bankWord_mem_pairWords .., fun x => ?_⟩
    simp only [Accesses.bind_done]
    split
    · exact ⟨bankWord_mem_pairWords .., trivial⟩
    · trivial
  · trivial

theorem commandResetPin_within (m : WordMap) (pin value : Byte) :
    (commandResetPin m pin value).Within ((Instr.resetPin pin value).familyWords m) := by
  have bit : ∀ f, pairWords m f ⊆ (Instr.resetPin pin value).familyWords m →
      (writeBit m f pin false).Within ((Instr.resetPin pin value).familyWords m) :=
    fun f h => (writeBit_within m f pin false).mono h
  refine (bit .hen (fun _ h => by simp [Instr.familyWords, h])).bind fun _ => ?_
  refine (bit .len (fun _ h => by simp [Instr.familyWords, h])).bind fun _ => ?_
  refine (bit .ren (fun _ h => by simp [Instr.familyWords, h])).bind fun _ => ?_
  refine (bit .fen (fun _ h => by simp [Instr.familyWords, h])).bind fun _ => ?_
  refine (bit .aren (fun _ h => by simp [Instr.familyWords, h])).bind fun _ => ?_
  refine (bit .afen (fun _ h => by simp [Instr.familyWords, h])).bind fun _ => ?_
  refine ((setPull_within m pin _).mono (fun _ h => by
    rcases List.mem_cons.mp h with rfl | h <;> simp [Instr.familyWords, *])).bind fun _ => ?_
  refine ((updateField_within m pin _).mono (fun _ h => by simp [Instr.familyWords, h])).bind fun _ => ?_
  exact ((eventDetected_within m pin).mono (fun _ h => by simp [Instr.familyWords, h])).bind fun _ => trivial

/-- No command reads or writes a word outside its own families. -/
theorem commandOf_within (m : WordMap) (i : Instr) : (commandOf m i).Within (i.familyWords m) := by
  cases i with
  | resetPin pin value => exact commandResetPin_within m pin value
  | setLevel pin value =>
    refine Accesses.Within.void (p := if byteBool value then setBit m pin else clearBit m pin) ?_
    split
    · exact (setBit_within m pin).mono fun _ h => by simp [Instr.familyWords, h]
    · exact (clearBit_within m pin).mono fun _ h => by simp [Instr.familyWords, h]
  | getLevel pin _ => exact (readBit_within m .lev pin).boolResult
  | setMode pin value => exact (updateField_within m pin value).void
  | getMode pin _ => exact (readField_within m pin).wordResult
  | setPull pin value => exact (setPull_within m pin value).void
  | getEvent pin _ => exact (eventDetected_within m pin).boolResult
  | setRedge pin _ => exact (writeBit_within m .ren pin _).void
  | getRedge pin _ => exact (readBit_within m .ren pin).boolResult
  | setFedge pin _ => exact (writeBit_within m .fen pin _).void
  | getFedge pin _ => exact (readBit_within m .fen pin).boolResult
  | setAredge pin _ => exact (writeBit_within m .aren pin _).void
  | getAredge pin _ => exact (readBit_within m .aren pin).boolResult
  | setAfedge pin _ => exact (writeBit_within m .afen pin _).void
  | getAfedge pin _ => exact (readBit_within m .afen pin).boolResult
  | setHdetect pin _ => exact (writeBit_within m .hen pin _).void
  | getHdetect pin _ => exact (readBit_within m .hen pin).boolResult
  | setLdetect pin _ => exact (writeBit_within m .len pin _).void
  | getLdetect pin _ => exact (readBit_within m .len pin).boolResult

/-- Every family word is one of the 29, so lies in the bank under the condition of 20_memory.md R53. -/
theorem familyWords_subset (m : WordMap) (i : Instr) : i.familyWords m ⊆ m.all := by
  have pair : ∀ f, pairWords m f ⊆ m.all := fun f a ha => by
    rcases List.mem_cons.mp ha with rfl | ha
    · exact bankWord_mem m f .bank0
    · rw [List.mem_singleton.mp ha]
      exact bankWord_mem m f .bank1
  have fsel : fselWords m ⊆ m.all := by simp [fselWords, WordMap.all]
  have pud : m.pud ∈ m.all := pud_mem m
  cases i <;> simp only [Instr.familyWords, List.append_subset, List.cons_subset, List.nil_subset, pair, fsel, pud, and_self]

end Sys2Proof.Machine
end

