-- ==== Sys2Proof/Laws/PerInstr.lean ====
section
/-! SUPPORT. Statements made per instruction. -/

namespace Sys2Proof.Laws.PacketShape

/-- 30_encoding.md R80, R83: the packet is three bytes, a code in 0..18 that is not the sentinel, then the instruction's
own two operand bytes. -/
def Statement (i : Instr) : Prop :=
  ∃ c : Byte, encode defaultCodes i = [c, i.pin, i.value] ∧ c.toNat < Config.ncmds ∧ c ≠ Config.sentinel

theorem resetPin (pin value : Byte) : Statement (.resetPin pin value) := ⟨0, rfl, by decide, by decide⟩
theorem setLevel (pin value : Byte) : Statement (.setLevel pin value) := ⟨1, rfl, by decide, by decide⟩
theorem getLevel (pin value : Byte) : Statement (.getLevel pin value) := ⟨2, rfl, by decide, by decide⟩
theorem setMode (pin value : Byte) : Statement (.setMode pin value) := ⟨3, rfl, by decide, by decide⟩
theorem getMode (pin value : Byte) : Statement (.getMode pin value) := ⟨4, rfl, by decide, by decide⟩
theorem setPull (pin value : Byte) : Statement (.setPull pin value) := ⟨5, rfl, by decide, by decide⟩
theorem getEvent (pin value : Byte) : Statement (.getEvent pin value) := ⟨6, rfl, by decide, by decide⟩
theorem setRedge (pin value : Byte) : Statement (.setRedge pin value) := ⟨7, rfl, by decide, by decide⟩
theorem getRedge (pin value : Byte) : Statement (.getRedge pin value) := ⟨8, rfl, by decide, by decide⟩
theorem setFedge (pin value : Byte) : Statement (.setFedge pin value) := ⟨9, rfl, by decide, by decide⟩
theorem getFedge (pin value : Byte) : Statement (.getFedge pin value) := ⟨10, rfl, by decide, by decide⟩
theorem setAredge (pin value : Byte) : Statement (.setAredge pin value) := ⟨11, rfl, by decide, by decide⟩
theorem getAredge (pin value : Byte) : Statement (.getAredge pin value) := ⟨12, rfl, by decide, by decide⟩
theorem setAfedge (pin value : Byte) : Statement (.setAfedge pin value) := ⟨13, rfl, by decide, by decide⟩
theorem getAfedge (pin value : Byte) : Statement (.getAfedge pin value) := ⟨14, rfl, by decide, by decide⟩
theorem setHdetect (pin value : Byte) : Statement (.setHdetect pin value) := ⟨15, rfl, by decide, by decide⟩
theorem getHdetect (pin value : Byte) : Statement (.getHdetect pin value) := ⟨16, rfl, by decide, by decide⟩
theorem setLdetect (pin value : Byte) : Statement (.setLdetect pin value) := ⟨17, rfl, by decide, by decide⟩
theorem getLdetect (pin value : Byte) : Statement (.getLdetect pin value) := ⟨18, rfl, by decide, by decide⟩

end Sys2Proof.Laws.PacketShape
end

