-- ==== Sys2Proof/Laws/Reset.lean ====
section
/-! SUPPORT. RESET_PIN on a valid pin as what its nine steps do to the register side, and that the last of them, the event
acknowledge attempt, changes no stored word and no latch. -/

namespace Sys2Proof.Machine

/-- A detect disable of RESET_PIN: the pin's bit of a family word cleared. -/
def Port.disabled (ps : Params) (pin : Byte) (f : BankFamily) (q : Port) : Port :=
  q.modify (ps.words.bankWord f (pinBank pin)) fun x => assignBit x (pinBit pin) false

/-- The register side after steps 1 to 6 of 42_commands.md R152, the six disables in their order. -/
def Port.allDisabled (ps : Params) (pin : Byte) (q : Port) : Port :=
  (((((q.disabled ps pin .hen).disabled ps pin .len).disabled ps pin .ren).disabled ps pin .fen).disabled ps pin
    .aren).disabled ps pin .afen

/-- The register side after step 7, the pull sequence with NOPULL. -/
def Port.unpulled (ps : Params) (pin : Byte) (q : Port) : Port :=
  { q with
    mem := (q.mem.write ps.words.pud 0).write (ps.words.bankWord .pudclk (pinBank pin)) (bitmask pin)
    history := q.history ++ [.wr ps.words.pud 0, .wr (ps.words.bankWord .pudclk (pinBank pin)) (bitmask pin)] }

/-- The register side after step 8, the mode INPUT. -/
def Port.madeInput (ps : Params) (pin : Byte) (q : Port) : Port :=
  q.modify (ps.words.fselWord (pinBucket pin)) fun x => updateWord x (pinFieldOffset pin) 0

theorem run_commandResetPin {ps : Params} (hw : ps.wellFormed = true) {pin : Byte} (value : Byte)
    (hp : pin.toNat ≤ 53) (q : Port) :
    (commandResetPin ps.words pin value).run ps q =
      (none, ((eventDetected ps.words pin).run ps (((q.allDisabled ps pin).unpulled ps pin).madeInput ps pin)).2) := by
  unfold commandResetPin
  simp only [Accesses.run_bind, Accesses.run_done]
  rw [run_writeBit hw (f := .hen) _ _ hp (by decide), run_writeBit hw (f := .len) _ _ hp (by decide),
    run_writeBit hw (f := .ren) _ _ hp (by decide), run_writeBit hw (f := .fen) _ _ hp (by decide),
    run_writeBit hw (f := .aren) _ _ hp (by decide), run_writeBit hw (f := .afen) _ _ hp (by decide),
    run_setPull hw _ hp (by decide), run_updateField hw _ hp (by decide)]
  rfl

theorem Port.wf_disabled {ps : Params} {pin : Byte} {f : BankFamily} {q : Port} (h : q.mem.wf = true) :
    (q.disabled ps pin f).mem.wf = true := Memory.wf_write _ _ h

theorem Port.read_disabled {ps : Params} {pin : Byte} {f : BankFamily} {q : Port} (h : q.mem.wf = true) (a : Nat) :
    (q.disabled ps pin f).mem.read a =
      if a = ps.words.bankWord f (pinBank pin) then assignBit (q.mem.read a) (pinBit pin) false else q.mem.read a := by
  rw [Port.disabled, Port.modify_mem, Memory.read_write _ _ _ h]
  split
  · next e => rw [e]
  · rfl

theorem Port.wf_allDisabled {ps : Params} {pin : Byte} {q : Port} (h : q.mem.wf = true) :
    (q.allDisabled ps pin).mem.wf = true :=
  wf_disabled (wf_disabled (wf_disabled (wf_disabled (wf_disabled (wf_disabled h)))))

theorem Port.wf_unpulled {ps : Params} {pin : Byte} {q : Port} (h : q.mem.wf = true) :
    (q.unpulled ps pin).mem.wf = true := Memory.wf_write _ _ (Memory.wf_write _ _ h)

theorem Port.read_unpulled {ps : Params} {pin : Byte} {q : Port} (h : q.mem.wf = true) (a : Nat) :
    (q.unpulled ps pin).mem.read a =
      if a = ps.words.bankWord .pudclk (pinBank pin) then bitmask pin else if a = ps.words.pud then 0
      else q.mem.read a := by
  rw [Port.unpulled, Memory.read_write _ _ _ (Memory.wf_write _ _ h), Memory.read_write _ _ _ h]

theorem Port.wf_madeInput {ps : Params} {pin : Byte} {q : Port} (h : q.mem.wf = true) :
    (q.madeInput ps pin).mem.wf = true := Memory.wf_write _ _ h

theorem Port.read_madeInput {ps : Params} {pin : Byte} {q : Port} (h : q.mem.wf = true) (a : Nat) :
    (q.madeInput ps pin).mem.read a =
      if a = ps.words.fselWord (pinBucket pin) then updateWord (q.mem.read a) (pinFieldOffset pin) 0
      else q.mem.read a := by
  rw [Port.madeInput, Port.modify_mem, Memory.read_write _ _ _ h]
  split
  · next e => rw [e]
  · rfl

/-- `event_detected` changes no stored word and no latch, in both peripheral models. -/
theorem run_eventDetected_kept {ps : Params} (hw : ps.wellFormed = true) {pin : Byte} (hp : pin.toNat ≤ 53) {q : Port}
    (hm : q.mem.wf = true) :
    (∀ a, ((eventDetected ps.words pin).run ps q).2.mem.read a = q.mem.read a) ∧
      ((eventDetected ps.words pin).run ps q).2.out0 = q.out0 ∧
      ((eventDetected ps.words pin).run ps q).2.out1 = q.out1 := by
  have hx : ps.periph = .loopback → (q.answer ps (ps.words.bankWord .eds (pinBank pin))).1 =
      q.mem.read (ps.words.bankWord .eds (pinBank pin)) := fun hl => by
    simp [Port.answer, hl, isOf_bankWord hw, WordMap.isCommand]
  have back := regWrite_eds (q := (q.regRead ps (ps.words.bankWord .eds (pinBank pin))).2) (k := pinBank pin) hw
    (by simpa using hm) (by simpa using hx)
  rw [run_eventDetected ps q hp]
  simp only
  split
  · exact ⟨fun a => by simpa using back.1 a, by simpa using back.2.1, by simpa using back.2.2⟩
  · simp

end Sys2Proof.Machine
end

