-- ==== Sys2Proof/Laws/Step.lean ====
section
/-! SUPPORT. What a step can do, said once: the turn it takes, what each kind of turn leaves of the state, and what every
turn of the Dispatcher makes of the register side. -/

namespace Sys2Proof.Machine

/-- What accesses to family words keep of the register side, from q to q'. -/
structure Port.Reaches (ps : Params) (q q' : Port) : Prop where
  wf : q.mem.wf = true → q'.mem.wf = true
  inBank : (∀ cell ∈ q.mem, cell.1 < ps.nwords) → ∀ cell ∈ q'.mem, cell.1 < ps.nwords
  history : ∃ l, q'.history = q.history ++ l

theorem Port.Reaches.refl (ps : Params) (q : Port) : Port.Reaches ps q q := ⟨id, id, [], by simp⟩

theorem Port.Reaches.trans {ps : Params} {q q' q'' : Port} (h : Port.Reaches ps q q') (h' : Port.Reaches ps q' q'') :
    Port.Reaches ps q q'' := by
  obtain ⟨l, e⟩ := h.history
  obtain ⟨l', e'⟩ := h'.history
  exact ⟨h'.wf ∘ h.wf, h'.inBank ∘ h.inBank, l ++ l', by rw [e', e, List.append_assoc]⟩

theorem Port.reaches_regRead (ps : Params) (i : Nat) (q : Port) : Port.Reaches ps q (q.regRead ps i).2 :=
  ⟨by simp, by simp, _, Port.regRead_history ps i q⟩

theorem Port.reaches_regWrite {ps : Params} (hw : ps.wellFormed = true) {i : Nat} (hi : i ∈ ps.words.all) (v : Word)
    (q : Port) : Port.Reaches ps q (q.regWrite ps i v) := by
  refine ⟨Port.regWrite_wf, fun h cell hc => ?_, _, Port.regWrite_history ps i v q⟩
  rcases Port.regWrite_mem ps i v q with e | e <;> rw [e] at hc
  · exact h cell hc
  · rcases Memory.mem_write hc with e | hc
    · exact e ▸ words_below hw hi
    · exact h cell hc

theorem Accesses.reaches_run {α : Type} {ps : Params} (hw : ps.wellFormed = true) {p : Accesses α}
    (hp : p.Within ps.words.all) (q : Port) : Port.Reaches ps q (p.run ps q).2 := by
  induction p generalizing q with
  | done a => exact Port.Reaches.refl ps q
  | read i next ih => exact (Port.reaches_regRead ps i q).trans (ih _ (hp.2 _) _)
  | write i v next ih => exact (Port.reaches_regWrite hw hp.1 v q).trans (ih hp.2 _)

theorem requestCommand_within (m : WordMap) (r : Request) : (requestCommand m r).Within m.all := by
  cases r with
  | instr i => exact (commandOf_within m i).mono (familyWords_subset m i)
  | unrecognized _ _ _ => trivial

/-- Servicing in one step is the run of the request's command, whatever the request. -/
theorem serviceWhole_eq (s : State) : serviceWhole s = s.service (requestCommand s.params.words s.request) := by
  unfold serviceWhole
  cases e : s.request with
  | instr i => exact exec_eq_service i s
  | unrecognized c p v => rfl

/-- The Dispatcher's turn on a request not yet begun services it in one step. -/
theorem dispatcherTurn_start {s : State} (hs : s.shutdown = false) (hc : s.control = .servicing Position.start) :
    dispatcherTurn s = serviceWhole s := by
  unfold dispatcherTurn
  rw [if_neg (by simp [hs])]
  split
  · next h => rw [h] at hc; cases hc
  · next pos h => rw [h] at hc; cases hc; exact if_pos rfl

/-- A turn of the Dispatcher that does something: it is servicing and not shut down, and it either commits the response
or moves to its next access. -/
def DispatcherMoves (s t : State) : Prop :=
  s.shutdown = false ∧ s.control.isServicing = true ∧ ∃ q,
    (s.params.wellFormed = true → Port.Reaches s.params s.port q) ∧
    ((∃ r, t = (s.withPort q).commit r) ∨ ∃ pos, t = (s.withPort q).atPosition pos)

theorem dispatcherMoves_whole {s t : State} {pos : Position} (hs : s.shutdown = false)
    (hc : s.control = .servicing pos) (h : serviceWhole s = .next t) : DispatcherMoves s t := by
  rw [serviceWhole_eq, State.service_next] at h
  cases h
  exact ⟨hs, by rw [hc]; rfl, _, fun hw => Accesses.reaches_run hw (requestCommand_within _ _) _, .inl ⟨_, rfl⟩⟩

theorem dispatcherMoves_next {s : State} {pos : Position} (hs : s.shutdown = false) (hc : s.control = .servicing pos) :
    DispatcherMoves s (serviceNext pos s) := by
  have hp := (requestCommand_within s.params.words s.request).after pos.values pos.index
  refine ⟨hs, by rw [hc]; rfl, ?_⟩
  unfold serviceNext State.serviceAccess Accesses.rest
  cases e : (requestCommand s.params.words s.request).after pos.values pos.index with
  | done r => exact ⟨s.port, fun _ => Port.Reaches.refl _ _, .inl ⟨r, rfl⟩⟩
  | read i next => exact ⟨_, fun _ => Port.reaches_regRead _ _ _, .inr ⟨_, rfl⟩⟩
  | write i v next => exact ⟨_, fun hw => Port.reaches_regWrite hw (e ▸ hp).1 v _, .inr ⟨_, rfl⟩⟩

/-- Everything a turn that answers a next state can have done. -/
theorem takeTurn_cases {turn : Turn} {s t : State} (h : takeTurn turn s = .next t) :
    (turnIsDispatchers turn = true ∧ (t = s ∨ DispatcherMoves s t)) ∨
    (∃ c cl, turn = .init c ∧ s.clients[c]? = some cl ∧ cl.busy = false ∧ t = s.initClient c cl) ∨
    (∃ c cl op, turn = .call c op ∧ s.clients[c]? = some cl ∧ cl.busy = false ∧ t = s.callOp c cl op) ∨
    (∃ c cl, turn = .poll c ∧ s.clients[c]? = some cl ∧ t = s.pollClient c cl) ∨
    (∃ c cl b0 b1 b2, turn = .rawWrite c [b0, b1, b2] ∧ s.clients[c]? = some cl ∧ cl.busy = false ∧
      t = s.requestWrite c ⟨b0, b1, b2⟩) ∨
    (∃ c cl, turn = .rawRead c 3 ∧ s.clients[c]? = some cl ∧ cl.busy = false ∧ t = s.responseRead c) ∨
    (turn = .shutdown ∧ s.control = .idle ∧ s.owner = none ∧ t = { s with shutdown := true }) ∨
    (∃ bank mask, turn = .harnessEvent bank mask ∧ s.params.periph = .loopback ∧ s.control = .idle ∧ s.owner = none ∧
      t = s.withPort { s.port with
        mem := s.port.mem.write (s.params.words.bankWord .eds bank)
          (s.port.mem.read (s.params.words.bankWord .eds bank) ||| mask) }) := by
  have client : ∀ {c : Nat} {f : Client → Host.Outcome State Fault Refusal}, withClient c s f = .next t →
      ∃ cl, s.clients[c]? = some cl ∧ f cl = .next t := by
    intro c f h
    unfold withClient at h
    split at h
    · next cl e => exact ⟨cl, e, h⟩
    · cases h
  have free : ∀ {c : Nat} {f : Client → Host.Outcome State Fault Refusal}, withFreeClient c s f = .next t →
      ∃ cl, s.clients[c]? = some cl ∧ cl.busy = false ∧ f cl = .next t := by
    intro c f h
    obtain ⟨cl, hc, h⟩ := client h
    cases hb : cl.busy
    · rw [hb] at h; exact ⟨cl, hc, hb, h⟩
    · rw [hb] at h; cases h
  cases turn with
  | dispatcher =>
    refine .inl ⟨rfl, ?_⟩
    simp only [takeTurn, dispatcherTurn] at h
    split at h
    · cases h; exact .inl rfl
    · next hs =>
      have hs : s.shutdown = false := by simpa using hs
      split at h
      · cases h; exact .inl rfl
      · next pos hc =>
        split at h
        · exact .inr (dispatcherMoves_whole hs hc h)
        · cases h; exact .inr (dispatcherMoves_next hs hc)
  | dispatcherAccess =>
    refine .inl ⟨rfl, ?_⟩
    simp only [takeTurn, dispatcherAccessTurn] at h
    split at h
    · cases h; exact .inl rfl
    · next hs =>
      have hs : s.shutdown = false := by simpa using hs
      split at h
      · cases h; exact .inl rfl
      · next pos hc => cases h; exact .inr (dispatcherMoves_next hs hc)
  | init c =>
    obtain ⟨cl, hc, hb, h⟩ := free h
    cases h
    exact .inr (.inl ⟨c, cl, rfl, hc, hb, rfl⟩)
  | call c op =>
    obtain ⟨cl, hc, hb, h⟩ := free h
    cases h
    exact .inr (.inr (.inl ⟨c, cl, op, rfl, hc, hb, rfl⟩))
  | poll c =>
    obtain ⟨cl, hc, h⟩ := client h
    cases h
    exact .inr (.inr (.inr (.inl ⟨c, cl, rfl, hc, rfl⟩)))
  | rawWrite c bytes =>
    obtain ⟨cl, hc, hb, h⟩ := free h
    unfold rawWriteTurn at h
    split at h
    · cases h
      exact .inr (.inr (.inr (.inr (.inl ⟨c, cl, _, _, _, rfl, hc, hb, rfl⟩))))
    · cases h
  | rawRead c n =>
    obtain ⟨cl, hc, hb, h⟩ := free h
    unfold rawReadTurn at h
    split at h
    · next hn =>
      cases h
      obtain rfl : n = 3 := of_decide_eq_true hn
      exact .inr (.inr (.inr (.inr (.inr (.inl ⟨c, cl, rfl, hc, hb, rfl⟩)))))
    · cases h
  | shutdown =>
    simp only [takeTurn, shutdownTurn] at h
    split at h
    · next hs => cases h; exact .inr (.inr (.inr (.inr (.inr (.inr (.inl ⟨rfl, hs.1, hs.2, rfl⟩))))))
    · cases h
  | harnessEvent bank mask =>
    simp only [takeTurn, harnessTurn] at h
    split at h
    · next hs =>
      cases h
      exact .inr (.inr (.inr (.inr (.inr (.inr (.inr ⟨bank, mask, rfl, hs.1, hs.2.1, hs.2.2, rfl⟩))))))
    · cases h

/-- A step is the next turn, taken on the state without it; or nothing, where no agent has a turn. -/
theorem step_cases {s t : State} (h : step s = .next t) :
    s.params.conditionsHold s.clients.length = true ∧ ((s.nextTurn.1 = none ∧ t = s.nextTurn.2) ∨
      ∃ turn, s.nextTurn.1 = some turn ∧ takeTurn turn s.nextTurn.2 = .next t) := by
  unfold step at h
  split at h
  · next hw =>
    refine ⟨hw, ?_⟩
    unfold runNextTurn at h
    split at h
    · next turn s' e => exact .inr ⟨turn, by rw [e], by rw [e]; exact h⟩
    · next s' e => cases h; exact .inl ⟨by rw [e], by rw [e]⟩
  · cases h

/-- Taking a turn off the schedule changes nothing else. -/
theorem nextTurn_snd (s : State) : s.nextTurn.2 = { s with turns := s.nextTurn.2.turns } := by
  unfold State.nextTurn
  cases s.listedTurns <;> rfl

theorem listedTurns_turns {s : State} {turn : Turn} {rest : List Turn} (ht : s.turns = turn :: rest) :
    s.listedTurns = turn :: rest := by
  rw [State.listedTurns, ht]

theorem listedTurns_again {s : State} (ht : s.turns = []) : s.listedTurns = s.again := by
  rw [State.listedTurns, ht]

/-- A step on a listed turn is that turn. -/
theorem step_listedTurns {s : State} {turn : Turn} {rest : List Turn} (hw : s.params.conditionsHold s.clients.length = true)
    (ht : s.listedTurns = turn :: rest) : step s = takeTurn turn { s with turns := rest } := by
  unfold step runNextTurn State.nextTurn
  rw [if_pos hw, ht]

theorem step_listed {s : State} {turn : Turn} {rest : List Turn} (hw : s.params.conditionsHold s.clients.length = true)
    (ht : s.turns = turn :: rest) : step s = takeTurn turn { s with turns := rest } :=
  step_listedTurns hw (listedTurns_turns ht)

/-- A step on the listed turn of a client of the state. -/
theorem step_listed_client {s : State} {c : Nat} {cl : Client} {turn : Turn} {rest : List Turn}
    (hw : s.params.wellFormed = true) (hc : s.clients[c]? = some cl) (ht : s.turns = turn :: rest) :
    step s = takeTurn turn { s with turns := rest } :=
  step_listed (conditionsHold_of_client hw hc) ht

end Sys2Proof.Machine
end

