-- ==== Sys2Proof/Tests/Slice0.lean ====
section
/-! SUPPORT. Tests of the model against spec/95_test_vectors.md (its vector is named before each test), words written out
from 30_encoding.md, ill-formed terms the checks refuse, and for each statement with hypotheses a case that meets them. -/

namespace Sys2Proof.Tests

open Sys2Proof Sys2Proof.Machine

-- Small states

/-- The parameters of the test vectors: the loopback mock. -/
def mockParams : Params := { defaultParams with periph := .loopback }

/-- The loopback machine with a request of client 0 loaded: stored words, the two latches, the packet. -/
def mock (mem : Memory) (out0 out1 : Word) (p : Packet) : State :=
  { State.reset with
    params := mockParams
    port := { Port.reset with mem := mem, out0 := out0, out1 := out1 }
    buf := p
    control := .servicing ⟨0, []⟩
    owner := some 0
    turns := [.dispatcher] }

/-- The general machine with a request of client 0 loaded. -/
def general (p : Packet) : State :=
  { State.reset with buf := p, control := .servicing ⟨0, []⟩, owner := some 0, turns := [.dispatcher] }

/-- A client with an open channel. -/
def opened : Client := { Client.reset with chanOpen := true }

/-- The loopback machine, IDLE, with two open clients, a packet in the buffer, an owner, and the turns to come. -/
def pair (owner : Option Nat) (p : Packet) (turns : List Turn) : State :=
  { State.reset with params := mockParams, buf := p, owner := owner, clients := [opened, opened], turns := turns }

/-- The state of a next outcome, the state after start-up for any other. -/
def after (o : Host.Outcome State Fault Refusal) : State :=
  match o with
  | .next t => t
  | .fault _ => State.reset
  | .refused _ => State.reset

/-- The accesses made and the buffer after one step. -/
def trace (s : State) : Option (List RegEvent × Packet) :=
  match step s with
  | .next t => some (t.port.history, t.buf)
  | .fault _ => none
  | .refused _ => none

/-- The loopback machine's answer to a packet. -/
def serve (mem : Memory) (c p v : Byte) : Option (List RegEvent × Packet) := trace (mock mem 0 0 ⟨c, p, v⟩)

/-- The state after at most n steps. -/
def ranTo (n : Nat) (s : State) : State :=
  match n with
  | 0 => s
  | n + 1 => ranTo n (after (step s))

-- Checks of WellFormed: each refuses its ill-formed term

theorem test_pin_54_is_ill_formed : pinValid 53 = true ∧ pinValid 54 = false ∧ pinValid 255 = false := by decide

theorem test_operands_out_of_range_are_ill_formed :
    modeValid 7 = true ∧ modeValid 8 = false ∧ pullValid 2 = true ∧ pullValid 3 = false ∧
    (Instr.setMode 13 8).wellFormed = false ∧ (Instr.setPull 4 3).wellFormed = false ∧
    (Instr.getLevel 54 0).wellFormed = false ∧ (Instr.setMode 53 7).wellFormed = true := by decide

theorem test_packet_of_two_bytes_is_ill_formed :
    packetLengthValid 3 = true ∧ packetLengthValid 2 = false ∧ packetLengthValid 4 = false := by decide

theorem test_word_maps_are_checked :
    defaultWords.wellFormed 40 = true ∧ defaultWords.wellFormed 39 = false ∧
    WordMap.wellFormed { defaultWords with pud := 7 } 40 = false := by decide

theorem test_clients_are_counted : defaultParams.conditionsHold 1 = true ∧ defaultParams.conditionsHold 0 = false := by decide

theorem test_code_maps_are_checked :
    defaultCodes.wellFormed = true ∧ CodeMap.wellFormed { defaultCodes with getMode := 3 } = false ∧
    CodeMap.wellFormed { defaultCodes with getMode := 19 } = false := by decide

theorem test_parameters_that_break_the_condition_fault :
    step { State.reset with params := { defaultParams with nwords := 39 } } = .fault .parameterCondition ∧
    step { State.reset with clients := [] } = .fault .parameterCondition := ⟨rfl, rfl⟩

-- Words written out from 30_encoding.md R80, R83 and R89: byte 0 the code, byte 1 the pin, byte 2 the value

theorem test_decode_lifecycle_and_level :
    decodeTableWord 24 0b000010011100100000000000 = some (.resetPin 200 9) ∧
    decodeTableWord 24 0b000000100001111100000001 = some (.setLevel 31 2) ∧
    decodeTableWord 24 0b000001111111111100000010 = some (.getLevel 255 7) := by decide

theorem test_decode_mode_and_pull :
    decodeTableWord 24 0b000000010000110100000011 = some (.setMode 13 1) ∧
    decodeTableWord 24 0b000001010011011000000100 = some (.getMode 54 5) ∧
    decodeTableWord 24 0b000000100000010000000101 = some (.setPull 4 2) := by decide

theorem test_decode_event_and_edges :
    decodeTableWord 24 0b000000000000010000000110 = some (.getEvent 4 0) ∧
    decodeTableWord 24 0b000000010010100000000111 = some (.setRedge 40 1) ∧
    decodeTableWord 24 0b000000000010100000001000 = some (.getRedge 40 0) ∧
    decodeTableWord 24 0b000000000001111100001001 = some (.setFedge 31 0) ∧
    decodeTableWord 24 0b000000000001111100001010 = some (.getFedge 31 0) := by decide

theorem test_decode_asynchronous_edges :
    decodeTableWord 24 0b111111110010000000001011 = some (.setAredge 32 255) ∧
    decodeTableWord 24 0b000000000010000000001100 = some (.getAredge 32 0) ∧
    decodeTableWord 24 0b000000010011010100001101 = some (.setAfedge 53 1) ∧
    decodeTableWord 24 0b000001110011011000001110 = some (.getAfedge 54 7) := by decide

theorem test_decode_levels_detected :
    decodeTableWord 24 0b000000010000000000001111 = some (.setHdetect 0 1) ∧
    decodeTableWord 24 0b000000000000000000010000 = some (.getHdetect 0 0) ∧
    decodeTableWord 24 0b000000000010101000010001 = some (.setLdetect 42 0) ∧
    decodeTableWord 24 0b000000000010101000010010 = some (.getLdetect 42 0) := by decide

/-- R63, R86, R88: what is no command. -/
theorem test_decode_refuses :
    decode defaultCodes [0x13, 5, 0x2A] = .request (.unrecognized 0x13 5 0x2A) ∧
    decode defaultCodes [0xFF, 1, 2] = .request (.unrecognized 0xFF 1 2) ∧
    decode defaultCodes [1, 13] = .notAPacket 2 ∧ decode defaultCodes [1, 13, 1, 0] = .notAPacket 4 ∧
    decode defaultCodes [] = .notAPacket 0 := by decide

/-- 95 P1, P2: assembly lines and their packets. -/
theorem test_assemble :
    assemble defaultCodes (.valueForm .setMode 53 (.mode .alt4)) = some [0x03, 0x35, 0x03] ∧
    assemble defaultCodes (.valueForm .setMode 50 (.mode .alt0)) = some [0x03, 0x32, 0x04] ∧
    assemble defaultCodes (.valueForm .setPull 4 (.pull .pullUp)) = some [0x05, 0x04, 0x02] ∧
    assemble defaultCodes (.pinForm .getLevel 13) = some [0x02, 0x0D, 0x00] ∧
    assemble defaultCodes (.valueForm .setMode 53 (.bool true)) = none := by decide

/-- The packet placed by withFetchWord is the one the next step services. -/
theorem test_with_fetch_word_runs_next :
    trace (State.reset.withFetchWord 24 0x020405) = some ([.wr 37 2, .wr 38 0x10], ⟨0xFF, 0x04, 0x02⟩) := by decide

-- 95 section 2.1: the mapper

/-- Rows 31, 32 and 53 of the table, and pin 54. -/
theorem test_locate_single_bit :
    locate defaultWords 31 (.bank .ren) = some (19, 31) ∧ locate defaultWords 32 (.bank .ren) = some (20, 0) ∧
    locate defaultWords 53 (.bank .lev) = some (14, 21) ∧ locate defaultWords 54 (.bank .lev) = none ∧
    bitmask 53 = 0x00200000 := by decide

/-- Rows 9, 10, 49 and 53 of the table, and pin 54. -/
theorem test_locate_field :
    locate defaultWords 9 .fsel = some (0, 27) ∧ locate defaultWords 10 .fsel = some (1, 0) ∧
    locate defaultWords 49 .fsel = some (4, 27) ∧ locate defaultWords 53 .fsel = some (5, 9) ∧
    locate defaultWords 54 .fsel = none ∧ fmask 49 = 0x38000000 := by decide

-- 95 section 2.2: engine primitives

/-- T11. -/
theorem test_update_field_clears_only_its_field :
    ((updateField defaultWords 53 0).run mockParams { Port.reset with mem := [(5, 0xFFFFFFFF)] }).2.history =
      [.rd 5 0xFFFFFFFF, .wr 5 0xFFFFF1FF] := by decide

/-- T9, T7. -/
theorem test_engine_reads :
    ((readField defaultWords 9).run mockParams { Port.reset with mem := [(0, 0x10000000)] }).1 = 2 ∧
    ((readBit defaultWords .lev 31).run mockParams { Port.reset with out0 := 0x80000000 }).1 = true := by decide

-- 95 section 2.3: commands

/-- P4 step 1. -/
theorem test_reset_pin_runs_eighteen_accesses :
    trace (mock [(4, 0x21), (17, 0x100), (20, 0x100), (26, 0x101), (35, 0x100), (37, 2)] 0 0 ⟨0x00, 0x28, 0x00⟩) =
      some ([.rd 26 0x101, .wr 26 0x001, .rd 29 0, .wr 29 0, .rd 20 0x100, .wr 20 0, .rd 23 0, .wr 23 0, .rd 32 0, .wr 32 0,
        .rd 35 0x100, .wr 35 0, .wr 37 0, .wr 39 0x100, .rd 4 0x21, .wr 4 0x20, .rd 17 0x100, .wr 17 0x100],
        ⟨0xFF, 0x28, 0x00⟩) := by decide

/-- V39. -/
theorem test_reset_pin_invalid_pin : serve [] 0x00 0xC8 0x09 = some ([], ⟨0xFF, 0xC8, 0x09⟩) := by decide

/-- V2. -/
theorem test_set_level_nonzero_is_true : serve [] 0x01 0x1F 0x02 = some ([.wr 7 0x80000000], ⟨0xFF, 0x1F, 0x02⟩) := by decide

/-- V3. -/
theorem test_set_level_false_clears_the_latch :
    trace (mock [] 0 1 ⟨0x01, 0x20, 0x00⟩) = some ([.wr 11 1], ⟨0xFF, 0x20, 0x00⟩) ∧
    (after (step (mock [] 0 1 ⟨0x01, 0x20, 0x00⟩))).port.out1 = 0 := by decide

/-- V5, V6, V7. -/
theorem test_get_level_takes_its_own_bit :
    trace (mock [] 0 0x00200000 ⟨0x02, 0x35, 0x00⟩) = some ([.rd 14 0x00200000], ⟨0xFF, 0x35, 0x01⟩) ∧
    trace (mock [] 0 0x00200000 ⟨0x02, 0x34, 0x00⟩) = some ([.rd 14 0x00200000], ⟨0xFF, 0x34, 0x00⟩) ∧
    serve [] 0x02 0xFF 0x07 = some ([], ⟨0xFF, 0xFF, 0x00⟩) := by decide

/-- V10. -/
theorem test_set_mode_keeps_the_other_bits :
    serve [(1, 0xFFFFFFFF)] 0x03 0x13 0x00 = some ([.rd 1 0xFFFFFFFF, .wr 1 0xC7FFFFFF], ⟨0xFF, 0x13, 0x00⟩) := by decide

/-- V11. -/
theorem test_set_mode_invalid_mode : serve [] 0x03 0x0D 0x08 = some ([], ⟨0xFF, 0x0D, 0x08⟩) := by decide

/-- V12. -/
theorem test_get_mode_reads_alt4 : serve [(5, 0x600)] 0x04 0x35 0x00 = some ([.rd 5 0x600], ⟨0xFF, 0x35, 0x03⟩) := by decide

/-- V14. -/
theorem test_get_mode_invalid_pin : serve [] 0x04 0x36 0x05 = some ([], ⟨0xFF, 0x36, 0x00⟩) := by decide

/-- V17. -/
theorem test_set_pull_writes_the_whole_mask :
    serve [(38, 0xFFFFFFFF)] 0x05 0x00 0x00 = some ([.wr 37 0, .wr 38 1], ⟨0xFF, 0x00, 0x00⟩) := by decide

/-- V18. -/
theorem test_set_pull_invalid_pull : serve [] 0x05 0x04 0x03 = some ([], ⟨0xFF, 0x04, 0x03⟩) := by decide

/-- V20. -/
theorem test_get_event_writes_back_the_whole_word :
    serve [(16, 0x11)] 0x06 0x04 0x00 = some ([.rd 16 0x11, .wr 16 0x11], ⟨0xFF, 0x04, 0x01⟩) := by decide

/-- V21. -/
theorem test_get_event_clear_bit : serve [(16, 0x11)] 0x06 0x01 0x00 = some ([.rd 16 0x11], ⟨0xFF, 0x01, 0x00⟩) := by decide

/-- V24. -/
theorem test_set_redge_false :
    serve [(20, 0xFFFFFFFF)] 0x07 0x28 0x00 = some ([.rd 20 0xFFFFFFFF, .wr 20 0xFFFFFEFF], ⟨0xFF, 0x28, 0x00⟩) := by decide

/-- V25. -/
theorem test_get_redge : serve [(20, 0x100)] 0x08 0x28 0x00 = some ([.rd 20 0x100], ⟨0xFF, 0x28, 0x01⟩) := by decide

/-- V26. -/
theorem test_set_fedge_false :
    serve [(22, 0xFFFFFFFF)] 0x09 0x1F 0x00 = some ([.rd 22 0xFFFFFFFF, .wr 22 0x7FFFFFFF], ⟨0xFF, 0x1F, 0x00⟩) := by decide

/-- V27. -/
theorem test_get_fedge : serve [(22, 0x7FFFFFFF)] 0x0A 0x1F 0x00 = some ([.rd 22 0x7FFFFFFF], ⟨0xFF, 0x1F, 0x00⟩) := by decide

/-- V28. -/
theorem test_set_aredge_nonzero_is_true : serve [] 0x0B 0x20 0xFF = some ([.rd 32 0, .wr 32 1], ⟨0xFF, 0x20, 0xFF⟩) := by decide

/-- V29. -/
theorem test_get_aredge : serve [(32, 1)] 0x0C 0x20 0x00 = some ([.rd 32 1], ⟨0xFF, 0x20, 0x01⟩) := by decide

/-- V30. -/
theorem test_set_afedge : serve [] 0x0D 0x35 0x01 = some ([.rd 35 0, .wr 35 0x00200000], ⟨0xFF, 0x35, 0x01⟩) := by decide

/-- V31. -/
theorem test_get_afedge_invalid_pin : serve [] 0x0E 0x36 0x07 = some ([], ⟨0xFF, 0x36, 0x00⟩) := by decide

/-- V32. -/
theorem test_set_hdetect_writes_although_unchanged :
    serve [(25, 1)] 0x0F 0x00 0x01 = some ([.rd 25 1, .wr 25 1], ⟨0xFF, 0x00, 0x01⟩) := by decide

/-- V33. -/
theorem test_get_hdetect : serve [(25, 1)] 0x10 0x00 0x00 = some ([.rd 25 1], ⟨0xFF, 0x00, 0x01⟩) := by decide

/-- V34. -/
theorem test_set_ldetect_false :
    serve [(29, 0x003FFFFF)] 0x11 0x2A 0x00 = some ([.rd 29 0x003FFFFF, .wr 29 0x003FFBFF], ⟨0xFF, 0x2A, 0x00⟩) := by decide

/-- V35. -/
theorem test_get_ldetect : serve [(29, 0x003FFBFF)] 0x12 0x2A 0x00 = some ([.rd 29 0x003FFBFF], ⟨0xFF, 0x2A, 0x00⟩) := by decide

/-- V37, V38. -/
theorem test_unrecognized_codes :
    serve [] 0x13 0x36 0x07 = some ([], ⟨0xFF, 0x36, 0x07⟩) ∧ serve [] 0xFF 0x01 0x02 = some ([], ⟨0xFF, 0x01, 0x02⟩) := by decide

/-- R56(b): in the general model the answer is whatever the draw gives, and the draw is used up. -/
theorem test_get_level_general_reads_the_draw :
    (after (step (general ⟨0x02, 0x0D, 0x00⟩))).port.draws = 1 ∧
    trace (general ⟨0x02, 0x0D, 0x00⟩) =
      some ([.rd 13 (Config.freeWord 0)], ⟨0xFF, 0x0D, trunc8 (boolWord (wordBit (Config.freeWord 0) 13))⟩) := ⟨rfl, rfl⟩

/-- R23: SET_PULL one access a turn: after one turn PUD is written and the Dispatcher is still servicing. -/
theorem test_set_pull_access_by_access :
    accessTurns 1 (mock [] 0 0 ⟨5, 4, 2⟩) =
      { mock [] 0 0 ⟨5, 4, 2⟩ with
        port := { Port.reset with mem := [(37, 2)], history := [.wr 37 2] }, control := .servicing ⟨1, []⟩ } := by decide

-- 95 section 2.4: the proxy

/-- F2, F4, F5, F6, X6: a failed range check sends nothing, on an open channel or a closed one. -/
theorem test_calls_out_of_range :
    after (step (pair none ⟨9, 9, 9⟩ [.call 0 (.setMode 13 8)])) =
      { pair none ⟨9, 9, 9⟩ [] with clients := [{ opened with ret := some .void }, opened] } ∧
    after (step (pair none ⟨9, 9, 9⟩ [.call 1 (.getMode 200)])) =
      { pair none ⟨9, 9, 9⟩ [] with clients := [opened, { opened with ret := some (.code 0) }] } ∧
    after (step { State.reset with turns := [.call 0 (.getLevel 54)] }) =
      { State.reset with clients := [{ Client.reset with ret := some (.bool false) }] } := by decide

/-- F1, F8, F9: the packets calls send. -/
theorem test_calls_send_their_packets :
    (after (step (pair none ⟨9, 9, 9⟩ [.call 0 (.setMode 13 1)]))).buf = ⟨0x03, 0x0D, 0x01⟩ ∧
    (after (step (pair none ⟨9, 9, 9⟩ [.call 0 (.setLevel 13 false)]))).buf = ⟨0x01, 0x0D, 0x00⟩ ∧
    (after (step (pair none ⟨9, 9, 9⟩ [.call 0 (.resetPin 13)]))).buf = ⟨0x00, 0x0D, 0x00⟩ := by decide

/-- F7, F10: the poll that sees the sentinel returns byte 2. -/
theorem test_polls_return_byte_two :
    ((after (step { pair (some 0) ⟨0xFF, 0x35, 0x03⟩ [.poll 0] with
      clients := [{ opened with phase := .awaiting (.getMode 53) }, opened] })).clients[0]?.map Client.ret) =
        some (some (.code 3)) ∧
    ((after (step { pair (some 0) ⟨0xFF, 0x04, 0x01⟩ [.poll 0] with
      clients := [{ opened with phase := .awaiting (.eventDetected 4) }, opened] })).clients[0]?.map Client.ret) =
        some (some (.bool true)) := by decide

/-- 95 section 2.4, poll loop: a poll before the commit reads the request back and goes on waiting. -/
theorem test_poll_before_the_commit :
    ((ranTo 2 (pair none ⟨9, 9, 9⟩ [.call 0 (.getLevel 13), .poll 0])).clients[0]?) =
      some { opened with cbuf := ⟨0x02, 0x0D, 0x00⟩, phase := .awaiting (.getLevel 13) } := by decide

/-- R192, U8: three rounds of a schedule that leaves the Dispatcher out; the client still waits. -/
theorem test_a_schedule_without_the_dispatcher_hangs :
    let s : State := { pair none ⟨9, 9, 9⟩ [.call 0 (.getLevel 13)] with again := [.poll 0, .poll 1] }
    let t := ranTo 7 s
    (t.clients[0]?.map Client.busy) = some true ∧ t.control = .servicing ⟨0, []⟩ ∧ t.buf = ⟨0x02, 0x0D, 0x00⟩ ∧
    isFinal t = false := by decide

/-- R216: start-up is final; so is the end of a transaction, and neither its middle nor a state with a fault is. -/
theorem test_final_states :
    let s := pair none ⟨9, 9, 9⟩ [.call 0 (.setLevel 13 true), .dispatcher, .poll 0]
    isFinal State.reset = true ∧ isFinal (ranTo 1 s) = false ∧ isFinal (ranTo 2 s) = false ∧ isFinal (ranTo 3 s) = true ∧
    isFinal { State.reset with faults := ⟨false, true, false⟩ } = false := by decide

-- 95 section 2.5: the transport and its faults

/-- X1. -/
theorem test_x1_request_while_servicing :
    let t := ranTo 2 (pair none ⟨0, 0, 0⟩ [.call 0 (.getLevel 13), .call 1 (.setLevel 13 true)])
    t.faults.interleavedTransaction = true ∧ isFinal t = false ∧ t.buf = ⟨0x02, 0x0D, 0x00⟩ := by decide

/-- X2. -/
theorem test_x2_request_before_the_sentinel_is_read :
    (after (step (pair (some 0) ⟨0xFF, 13, 1⟩ [.call 1 (.setLevel 13 true)]))).faults.interleavedTransaction = true := by decide

/-- X3, X4. -/
theorem test_x3_x4_request_after_the_sentinel_is_read :
    let t := ranTo 2 (pair (some 0) ⟨0xFF, 13, 1⟩ [.rawRead 0 3, .call 1 (.setLevel 13 true)])
    let u := ranTo 2 (pair (some 0) ⟨0xFF, 13, 1⟩ [.rawRead 0 3, .call 0 (.setLevel 13 true)])
    t.faults = FaultSet.empty ∧ t.buf = ⟨0x01, 0x0D, 0x01⟩ ∧ t.owner = some 1 ∧
    u.faults = FaultSet.empty ∧ u.buf = ⟨0x01, 0x0D, 0x01⟩ ∧ u.owner = some 0 := by decide

/-- X5. -/
theorem test_x5_call_on_a_closed_channel :
    (after (step { State.reset with turns := [.call 0 (.getLevel 13)] })).faults = ⟨false, true, false⟩ := by decide

/-- X7. -/
theorem test_x7_request_after_shutdown :
    (ranTo 2 (pair none ⟨0, 0, 0⟩ [.shutdown, .call 0 (.getLevel 13)])).faults = ⟨false, false, true⟩ := by decide

/-- X8. -/
theorem test_x8_early_sentinel :
    let t := ranTo 2 (pair none ⟨0, 0, 0⟩ [.rawWrite 0 [0xFF, 1, 2], .rawRead 0 3])
    (t.clients[0]?.map Client.cbuf) = some ⟨0xFF, 1, 2⟩ ∧ t.owner = some 0 ∧ t.control.isServicing = true := by decide

-- A case that meets the hypotheses of each statement, at the boundary values of its clauses

theorem test_witness_DecodeFollowsTheCodeMap :
    defaultCodes.wellFormed = true ∧ (∀ i : Instr, defaultCodes.code i ≠ 19) ∧ (∀ i : Instr, defaultCodes.code i ≠ 255) := by
  refine ⟨by decide, fun i => ?_, fun i => ?_⟩ <;> cases i <;> simp [CodeMap.code, defaultCodes]

/-- A code map other than the default one: the first two codes the other way round. -/
theorem test_witness_DecodeEncodeRoundTrip :
    CodeMap.wellFormed { defaultCodes with resetPin := 18, getLdetect := 0 } = true := by decide

theorem test_witness_EncodeDecodeRoundTrip : decode defaultCodes [0x12, 0xFF, 0xFF] = .request (.instr (.getLdetect 255 255)) := by
  decide

theorem test_witness_AssembledLinesDecode :
    defaultCodes.wellFormed = true ∧ assemble defaultCodes (.valueForm .setLdetect 255 (.number 255)) = some [17, 255, 255] ∧
    assemble defaultCodes (.valueForm .setMode 255 (.mode .alt3)) = some [3, 255, 7] := by
  decide

theorem test_witness_SingleBitMapping :
    (31 : Byte).toNat ≤ 53 ∧ (32 : Byte).toNat ≤ 53 ∧ (53 : Byte).toNat ≤ 53 ∧ 32 ≤ (32 : Byte).toNat ∧ 32 ≤ (53 : Byte).toNat := by
  decide

theorem test_witness_FunctionSelectMapping : (0 : Byte).toNat ≤ 53 ∧ (49 : Byte).toNat ≤ 53 ∧ (53 : Byte).toNat ≤ 53 := by decide

theorem test_witness_InvalidPinMakesNoAccess : 53 < (54 : Byte).toNat ∧ 53 < (255 : Byte).toNat := by decide

theorem test_witness_DistinctPinsShareNoPlace :
    defaultWords.wellFormed 40 = true ∧ (0 : Byte).toNat ≤ 53 ∧ (32 : Byte).toNat ≤ 53 ∧ (0 : Byte) ≠ 32 ∧
    (53 : Byte).toNat ≤ 53 ∧ (43 : Byte).toNat ≤ 53 ∧ (53 : Byte) ≠ 43 := by decide

theorem test_witness_FieldArithmeticIsExact : (7 : Byte).toNat ≤ 7 ∧ (9 : Byte).toNat % 10 = 9 := by decide

theorem test_witness_UnusedBitsAreSpared :
    (32 ≤ (32 : Byte).toNat ∧ (32 : Byte).toNat ≤ 53 ∧ 22 ≤ 22) ∧ (32 ≤ (53 : Byte).toNat ∧ (53 : Byte).toNat ≤ 53 ∧ 22 ≤ 31) ∧
    ((9 : Byte).toNat ≤ 53 ∧ (7 : Byte).toNat ≤ 7 ∧ 30 ≤ 30) ∧
    ((50 : Byte).toNat ≤ 53 ∧ (7 : Byte).toNat ≤ 7 ∧ (50 ≤ (50 : Byte).toNat ∧ 12 ≤ 12)) := by decide

theorem test_witness_FieldUpdateKeepsOtherPins :
    (9 : Byte).toNat ≤ 53 ∧ (53 : Byte).toNat ≤ 53 ∧ (7 : Byte).toNat ≤ 7 ∧ pinFieldOffset 53 ≠ pinFieldOffset 9 ∧
    pinFieldOffset 49 = pinFieldOffset 9 := by decide

theorem test_witness_BitAssignmentKeepsOtherBits : (31 < 32 ∧ 31 < 32) ∧ (31 < 32 ∧ 0 < 32) := by decide

/-- The states the command statements are about, in both peripheral models, with words stored. -/
theorem test_witness_commands :
    (mock [(4, 0x21), (17, 0x100)] 0 0 ⟨0, 40, 0⟩).params.wellFormed = true ∧
    (mock [(4, 0x21), (17, 0x100)] 0 0 ⟨0, 40, 0⟩).port.mem.wf = true ∧
    (general ⟨0, 40, 0⟩).params.wellFormed = true ∧ (general ⟨0, 40, 0⟩).port.mem.wf = true := by decide

theorem test_witness_ResetPinRunsItsNineSteps :
    (mock [(17, 0x200000)] 0 0 ⟨0, 53, 0⟩).params.wellFormed = true ∧ (mock [(17, 0x200000)] 0 0 ⟨0, 53, 0⟩).port.mem.wf = true ∧
    (53 : Byte).toNat ≤ 53 ∧ 53 < (54 : Byte).toNat := by decide

theorem test_witness_SetLevelWritesOneMask :
    (general ⟨1, 53, 0⟩).params.wellFormed = true ∧ (general ⟨1, 53, 0⟩).params.periph = .general ∧ (53 : Byte).toNat ≤ 53 ∧
    53 < (54 : Byte).toNat := by decide

theorem test_witness_LoopbackSetLevelDrivesTheLatch :
    (mock [] 1 1 ⟨1, 31, 0⟩).params.wellFormed = true ∧ (mock [] 1 1 ⟨1, 31, 0⟩).params.periph = .loopback ∧
    (31 : Byte).toNat ≤ 53 ∧ (32 : Byte).toNat ≤ 53 := by decide

theorem test_witness_GetLevelReadsThePinsBit :
    (general ⟨2, 53, 0⟩).params.wellFormed = true ∧ (mock [] 0 1 ⟨2, 53, 0⟩).params.wellFormed = true ∧
    (53 : Byte).toNat ≤ 53 ∧ 53 < (54 : Byte).toNat := by decide

theorem test_witness_SetModeUpdatesTheField :
    (mock [(5, 0x600)] 0 0 ⟨3, 53, 7⟩).params.wellFormed = true ∧ (mock [(5, 0x600)] 0 0 ⟨3, 53, 7⟩).port.mem.wf = true ∧
    ((53 : Byte).toNat ≤ 53 ∧ (7 : Byte).toNat ≤ 7) ∧ (53 < (54 : Byte).toNat ∨ 7 < (0 : Byte).toNat) ∧
    (53 < (0 : Byte).toNat ∨ 7 < (8 : Byte).toNat) ∧ 2 < (3 : Byte).toNat := by decide

theorem test_witness_GetModeReadsTheField :
    (mock [(5, 0x600)] 0 0 ⟨4, 53, 0⟩).params.wellFormed = true ∧ (53 : Byte).toNat ≤ 53 ∧ 53 < (54 : Byte).toNat := by decide

theorem test_witness_SetPullWritesPudThenPudclk :
    (mock [(37, 1)] 0 0 ⟨5, 53, 2⟩).params.wellFormed = true ∧ (mock [(37, 1)] 0 0 ⟨5, 53, 2⟩).port.mem.wf = true ∧
    ((53 : Byte).toNat ≤ 53 ∧ (2 : Byte).toNat ≤ 2) ∧ (53 < (54 : Byte).toNat ∨ 2 < (0 : Byte).toNat) ∧
    (53 < (0 : Byte).toNat ∨ 2 < (3 : Byte).toNat) := by decide

theorem test_witness_GetEventWritesBackTheWordRead :
    (mock [(17, 0x200000)] 0 0 ⟨6, 53, 0⟩).params.wellFormed = true ∧ (mock [(17, 0x200000)] 0 0 ⟨6, 53, 0⟩).port.mem.wf = true ∧
    (53 : Byte).toNat ≤ 53 ∧ 53 < (54 : Byte).toNat ∧
    ((mock [(17, 0x200000)] 0 0 ⟨6, 53, 0⟩).port.mem.read (wordOf mockParams.words .eds 53)).getLsbD (bitOf 53) = true ∧
    ((mock [(17, 0x200000)] 0 0 ⟨6, 52, 0⟩).port.mem.read (wordOf mockParams.words .eds 52)).getLsbD (bitOf 52) = false := by
  decide

theorem test_witness_DetectSettersAssignTheirBit :
    (mock [(29, 0x3FFFFF)] 0 0 ⟨17, 53, 0⟩).params.wellFormed = true ∧ (mock [(29, 0x3FFFFF)] 0 0 ⟨17, 53, 0⟩).port.mem.wf = true ∧
    (53 : Byte).toNat ≤ 53 ∧ 53 < (54 : Byte).toNat := by decide

theorem test_witness_DetectGettersReadTheirBit :
    (mock [(29, 0x3FFFFF)] 0 0 ⟨18, 53, 0⟩).params.wellFormed = true ∧ (53 : Byte).toNat ≤ 53 ∧ 53 < (54 : Byte).toNat := by decide

theorem test_witness_EveryCommandCommitsItsResponse :
    decodeRequest (mock [] 0 0 ⟨19, 5, 7⟩).params.codes 19 5 7 = .unrecognized 19 5 7 ∧
    (Instr.resetPin 5 7).isGetter = false ∧ (Instr.getMode 5 7).isGetter = true ∧
    ((Instr.getLevel 5 7).isGetter = true ∧ ∀ p v, Instr.getLevel 5 7 ≠ .getMode p v) :=
  ⟨by decide, by decide, by decide, by decide, fun _ _ h => by cases h⟩

theorem test_witness_InvalidPinIsAnsweredWithoutAccess :
    53 < (Instr.setPull 54 1).pin.toNat ∧ 53 < (Instr.getLevel 255 1).pin.toNat ∧
    decodeRequest (mock [] 0 0 ⟨255, 54, 7⟩).params.codes 255 54 7 = .unrecognized 255 54 7 := by decide

theorem test_witness_CommandsStayInTheirFamilies : (mock [(1, 2), (26, 0x101)] 0 0 ⟨0, 40, 0⟩).port.mem.wf = true := by decide

theorem test_witness_ModeRoundTrip :
    (general ⟨3, 53, 7⟩).params.wellFormed = true ∧ (general ⟨3, 53, 7⟩).port.mem.wf = true ∧ (53 : Byte).toNat ≤ 53 ∧
    (7 : Byte).toNat ≤ 7 := by decide

theorem test_witness_EnableRoundTrip :
    (mock [(19, 3), (20, 1)] 0 0 ⟨7, 53, 1⟩).params.wellFormed = true ∧ (mock [(19, 3), (20, 1)] 0 0 ⟨7, 53, 1⟩).port.mem.wf = true ∧
    (53 : Byte).toNat ≤ 53 ∧ (21 : Byte).toNat ≤ 53 := by decide

theorem test_witness_LoopbackLevelRoundTrip :
    (mock [] 0 0 ⟨1, 53, 1⟩).params.wellFormed = true ∧ (mock [] 0 0 ⟨1, 53, 1⟩).params.periph = .loopback ∧
    (53 : Byte).toNat ≤ 53 := by decide

theorem test_witness_ResetPinIsIdempotent :
    (mock [(4, 0x21), (26, 0x101)] 0 0 ⟨0, 40, 0⟩).params.wellFormed = true ∧
    (mock [(4, 0x21), (26, 0x101)] 0 0 ⟨0, 40, 0⟩).port.mem.wf = true := by decide

theorem test_witness_LoopbackEventIsNotAcknowledged :
    (mock [(16, 0x11)] 0 0 ⟨6, 4, 0⟩).params.wellFormed = true ∧ (mock [(16, 0x11)] 0 0 ⟨6, 4, 0⟩).port.mem.wf = true ∧
    (mock [(16, 0x11)] 0 0 ⟨6, 4, 0⟩).params.periph = .loopback ∧ (4 : Byte).toNat ≤ 53 ∧
    ((mock [(16, 0x11)] 0 0 ⟨6, 4, 0⟩).port.mem.read (wordOf mockParams.words .eds 4)).getLsbD (bitOf 4) = true := by decide

theorem test_witness_StepRunsTheDecodedInstruction :
    let s := general ⟨18, 255, 9⟩
    let round : State := { s with turns := [], again := [.dispatcher, .poll 0] }
    let bare : State := { s with turns := [] }
    (s.params.conditionsHold s.clients.length = true ∧ s.shutdown = false ∧ s.control = .servicing ⟨0, []⟩ ∧
      decodeRequest s.params.codes s.buf.b0 s.buf.b1 s.buf.b2 = .instr (.getLdetect 255 9)) ∧
    s.turns = .dispatcher :: [] ∧ (round.turns = [] ∧ round.again = .dispatcher :: [.poll 0]) ∧
    (bare.turns = [] ∧ bare.again = []) := by decide

theorem test_witness_StepAnswersAnUnrecognizedRequest :
    (general ⟨19, 5, 7⟩).params.conditionsHold (general ⟨19, 5, 7⟩).clients.length = true ∧ (general ⟨19, 5, 7⟩).shutdown = false ∧
    (general ⟨19, 5, 7⟩).control = .servicing ⟨0, []⟩ ∧
    (∀ i : Instr, (general ⟨19, 5, 7⟩).params.codes.code i ≠ (general ⟨19, 5, 7⟩).buf.b0) ∧
    (general ⟨19, 5, 7⟩).turns = .dispatcher :: [] := by
  refine ⟨by decide, rfl, rfl, fun i => ?_, rfl⟩
  cases i <;> simp [CodeMap.code, general, State.reset, defaultParams, defaultCodes]

theorem test_witness_DispatcherRestsWhenIdleOrShutDown :
    State.reset.params.conditionsHold State.reset.clients.length = true ∧ State.reset.control = .idle ∧ turnIsDispatchers .dispatcherAccess = true ∧
    ({ general ⟨5, 4, 2⟩ with shutdown := true } : State).shutdown = true ∧ turnIsDispatchers .dispatcher = true := by decide

theorem test_witness_AccessByAccessIsOneStep :
    (mock [] 0 0 ⟨0, 40, 0⟩).shutdown = false ∧ (mock [] 0 0 ⟨0, 40, 0⟩).control = .servicing ⟨0, []⟩ := by decide

/-- A client awaiting get_level(13), its request loaded and not yet serviced. -/
def waiting : State :=
  { pair (some 0) ⟨0x02, 0x0D, 0x00⟩ [] with
    control := .servicing ⟨0, []⟩
    clients := [{ opened with cbuf := ⟨0x02, 0x0D, 0x00⟩, phase := .awaiting (.getLevel 13) }, opened] }

/-- The same client with its request answered. -/
def answered : State := { waiting with control := .idle, buf := ⟨0xFF, 0x0D, 0x01⟩ }

theorem test_mock_params : mockParams.conditionsHold 2 = true := by decide

theorem test_waiting_inv (turns again : List Turn) : Inv { waiting with turns := turns, again := again } := by
  refine ⟨test_mock_params, rfl, fun _ h => (nomatch h), fun _ h => (nomatch h), fun c h => ?_, fun h => (nomatch h),
    fun h => (nomatch h), fun c cl h op hp _ => ?_⟩
  · simp only [waiting, pair, Option.some.injEq] at h
    subst h; simp [waiting]
  · match c, h with
    | 0, h => cases h; cases hp; exact ⟨rfl, fun _ => rfl⟩
    | 1, h => cases h; cases hp

theorem test_answered_inv (turns : List Turn) : Inv { answered with turns := turns } := by
  refine ⟨test_mock_params, rfl, fun _ h => (nomatch h), fun h => (nomatch h), fun c h => ?_, fun h => (nomatch h),
    fun _ _ => rfl, fun c cl h op hp _ => ?_⟩
  · simp only [waiting, answered, pair, Option.some.injEq] at h
    subst h; simp [waiting, answered]
  · match c, h with
    | 0, h => cases h; cases hp; exact ⟨rfl, fun h => (nomatch h)⟩
    | 1, h => cases h; cases hp

theorem test_witness_InvariantIsKeptByEveryStep :
    Inv { waiting with turns := [.dispatcher] } ∧ ∃ t, step { waiting with turns := [.dispatcher] } = .next t :=
  ⟨test_waiting_inv _ _, _, rfl⟩

theorem test_witness_FaultsAreNeverCleared :
    let s : State := { State.reset with faults := ⟨true, false, false⟩, turns := [.init 0] }
    s.faults.has .interleavedTransaction = true ∧ ∃ t, step s = .next t := ⟨rfl, _, rfl⟩

theorem test_witness_AFaultedRunNeverEnds :
    let s : State := { State.reset with faults := ⟨false, false, true⟩ }
    s.faults.has .afterShutdown = true ∧ ∃ t, step s = .next t := ⟨rfl, _, rfl⟩

theorem test_witness_HistoryOnlyGrows :
    (∃ t, step (mock [] 0 0 ⟨1, 13, 1⟩) = .next t) ∧
    (∃ t, step { waiting with turns := [.poll 0] } = .next t) ∧
    (∀ turn, ({ waiting with turns := [.poll 0] } : State).nextTurn.1 = some turn → turnIsDispatchers turn = false) :=
  ⟨⟨_, rfl⟩, ⟨_, rfl⟩, fun turn h => by cases h; rfl⟩

theorem test_witness_ParametersNeverChange : ∃ t, step { waiting with turns := [.poll 0] } = .next t := ⟨_, rfl⟩

theorem test_witness_OnlyTheDispatcherReachesTheBank :
    let s : State := { waiting with turns := [.poll 0] }
    let h : State := pair none ⟨0, 0, 0⟩ [.harnessEvent .bank0 0x10]
    ((∃ t, step s = .next t) ∧
      ∀ turn, s.nextTurn.1 = some turn → turnIsDispatchers turn = false ∧ turnIsHarness turn = false) ∧
    (∃ t, step h = .next t) ∧ (∃ turn, h.nextTurn.1 = some turn ∧ turnIsHarness turn = true) ∧ h.port.mem.wf = true :=
  ⟨⟨⟨_, rfl⟩, fun turn h => by cases h; exact ⟨rfl, rfl⟩⟩, ⟨_, rfl⟩, ⟨_, rfl, rfl⟩, rfl⟩

theorem test_witness_TheBufferHasTwoWriters :
    let s := mock [] 0 0 ⟨1, 13, 1⟩
    let u := pair none ⟨0, 0, 0⟩ [.rawWrite 1 [1, 13, 1]]
    (∃ t, step s = .next t ∧ t.buf ≠ s.buf) ∧ (∃ t, step u = .next t ∧ t.buf ≠ u.buf) :=
  ⟨⟨_, rfl, by decide⟩, ⟨_, rfl, by decide⟩⟩

theorem test_witness_ControlHasTwoTransitions :
    let s := pair none ⟨0, 0, 0⟩ [.call 1 (.getLevel 13)]
    let u := mock [] 0 0 ⟨1, 13, 1⟩
    (∃ t, step s = .next t ∧ s.control = .idle ∧ t.control.isServicing = true) ∧
    (∃ t, step u = .next t ∧ u.control.isServicing = true ∧ t.control = .idle) :=
  ⟨⟨_, rfl, by decide, by decide⟩, ⟨_, rfl, by decide, by decide⟩⟩

theorem test_witness_RequestWriteLoadsOrFaults :
    let busy := { waiting with turns := [.rawWrite 1 [1, 13, 1]] }
    let free := pair (some 0) ⟨0xFF, 13, 1⟩ [.rawWrite 0 [1, 13, 1]]
    let down : State := { pair none ⟨0, 0, 0⟩ [.rawWrite 0 [1, 13, 1]] with shutdown := true }
    (busy.params.wellFormed = true ∧ busy.clients[1]? = some opened ∧ opened.phase = .noTxn ∧ busy.shutdown = false ∧
      (busy.owner ≠ none ∧ (busy.control.isServicing = true ∨ busy.owner ≠ some 1))) ∧
    (free.params.wellFormed = true ∧ free.clients[0]? = some opened ∧ free.shutdown = false ∧
      ¬ (free.owner ≠ none ∧ (free.control.isServicing = true ∨ free.owner ≠ some 0))) ∧
    (down.params.wellFormed = true ∧ down.clients[0]? = some opened ∧ down.shutdown = true) := by decide

theorem test_witness_ResponseReadCopiesTheBuffer :
    let s := pair (some 1) ⟨0xFF, 13, 1⟩ [.rawRead 1 3]
    let u := pair (some 0) ⟨0xFF, 13, 1⟩ [.rawRead 1 3]
    (s.params.wellFormed = true ∧ s.clients[1]? = some opened ∧ opened.phase = .noTxn ∧ s.turns = .rawRead 1 3 :: []) ∧
    (s.control = .idle ∧ s.owner = some 1) ∧ ¬ (u.control = .idle ∧ u.owner = some 1) := by decide

theorem test_witness_OtherLengthsAreRefused :
    let s := pair none ⟨0, 0, 0⟩ [.rawWrite 0 [1, 13]]
    let u := pair none ⟨0, 0, 0⟩ [.rawRead 0 4]
    s.params.wellFormed = true ∧ s.clients[0]? = some opened ∧ opened.phase = .noTxn ∧ ([1, 13] : List Byte).length ≠ 3 ∧
    s.turns = .rawWrite 0 [1, 13] :: [] ∧ 4 ≠ 3 ∧ u.turns = .rawRead 0 4 :: [] := by decide

theorem test_witness_RangeCheckComesFirst :
    let s := pair none ⟨0, 0, 0⟩ [.call 1 (.setMode 53 8)]
    s.params.wellFormed = true ∧ s.clients[1]? = some opened ∧ opened.phase = .noTxn ∧
    s.turns = .call 1 (.setMode 53 8) :: [] ∧ (PublicOp.setMode 53 8).request.wellFormed = false ∧
    (PublicOp.setMode 53 7).request.wellFormed = true ∧ (PublicOp.setPull 53 3).request.wellFormed = false ∧
    (PublicOp.setPull 53 2).request.wellFormed = true ∧ (PublicOp.getLevel 54).request.wellFormed = false := by decide

theorem test_witness_CallOnAClosedChannelFaults :
    let s : State := { State.reset with turns := [.call 0 (.getLevel 53)] }
    s.params.wellFormed = true ∧ s.clients[0]? = some Client.reset ∧ Client.reset.phase = .noTxn ∧
    (PublicOp.getLevel 53).request.wellFormed = true ∧ Client.reset.chanOpen = false := by decide

theorem test_witness_CallSendsItsPacket :
    let s := pair none ⟨0, 0, 0⟩ [.call 1 (.setMode 53 7)]
    let busy := pair (some 0) ⟨0xFF, 13, 1⟩ [.call 1 (.setMode 53 7)]
    let down : State := { s with shutdown := true }
    (s.params.wellFormed = true ∧ s.clients[1]? = some opened ∧ opened.phase = .noTxn ∧
      (PublicOp.setMode 53 7).request.wellFormed = true ∧ opened.chanOpen = true) ∧
    (s.shutdown = false ∧ ¬ (s.owner ≠ none ∧ (s.control.isServicing = true ∨ s.owner ≠ some 1))) ∧
    (busy.shutdown = false ∧ (busy.owner ≠ none ∧ (busy.control.isServicing = true ∨ busy.owner ≠ some 1))) ∧
    down.shutdown = true := by decide

/-- Both clauses: still servicing, and answered. -/
theorem test_witness_PollEndsExactlyAtTheSentinel :
    (Inv { waiting with turns := [.poll 0] } ∧ waiting.control.isServicing = true) ∧
    (Inv { answered with turns := [.poll 0] } ∧ answered.control = .idle) ∧
    ∃ cl, waiting.clients[0]? = some cl ∧ answered.clients[0]? = some cl ∧ cl.phase = .awaiting (.getLevel 13) ∧
      cl.stopped = false :=
  ⟨⟨test_waiting_inv _ _, rfl⟩, ⟨test_answered_inv _, rfl⟩, _, rfl, rfl, rfl, rfl⟩

theorem test_witness_TransactionReturnsItsOwnResponse :
    let s := pair none ⟨0, 0, 0⟩ [.call 1 (.getMode 53), .dispatcher, .poll 1]
    Inv s ∧ s.control = .idle ∧ s.owner = none ∧ s.shutdown = false ∧ s.clients[1]? = some opened ∧ opened.phase = .noTxn ∧
    opened.chanOpen = true ∧ (PublicOp.getMode 53).request.wellFormed = true := by
  refine ⟨⟨test_mock_params, rfl, fun _ h => (nomatch h), fun h => (nomatch h), fun _ h => (nomatch h), fun h => (nomatch h),
    fun _ h => absurd rfl h, fun c cl h op hp => ?_⟩, rfl, rfl, rfl, rfl, rfl, rfl, by decide⟩
  match c, h with
  | 0, h => cases h; cases hp
  | 1, h => cases h; cases hp

theorem test_witness_TheWaitLastsUntilTheDispatcherCommits_hang :
    let s : State := { waiting with turns := [], again := [.poll 0] }
    Inv s ∧ ∃ cl, s.clients[0]? = some cl ∧ cl.phase = .awaiting (.getLevel 13) ∧ cl.stopped = false ∧
      s.control.isServicing = true ∧ s.turns = [] ∧ s.again = [.poll 0] :=
  ⟨test_waiting_inv _ _, _, rfl, rfl, rfl, rfl, rfl, rfl⟩

theorem test_witness_TheWaitLastsUntilTheDispatcherCommits :
    let s : State := { waiting with turns := [.poll 0, .poll 0, .dispatcher, .poll 0] }
    Inv s ∧ ∃ cl, s.clients[0]? = some cl ∧ cl.phase = .awaiting (.getLevel 13) ∧ cl.stopped = false ∧
      s.control = .servicing ⟨0, []⟩ ∧ s.turns = List.replicate 2 (.poll 0) ++ [.dispatcher, .poll 0] :=
  ⟨test_waiting_inv _ _, _, rfl, rfl, rfl, rfl, rfl⟩

theorem test_witness_InitOpensOrReportsUnavailable :
    State.reset.params.wellFormed = true ∧ State.reset.clients[0]? = some Client.reset ∧ Client.reset.phase = .noTxn := by decide

theorem test_witness_ShutdownNeedsNothingOutstanding :
    (pair none ⟨0, 0, 0⟩ [.shutdown]).params.conditionsHold 2 = true ∧
    ((pair none ⟨0, 0, 0⟩ [.shutdown]).control = .idle ∧ (pair none ⟨0, 0, 0⟩ [.shutdown]).owner = none) ∧
    ¬ ((pair (some 0) ⟨0, 0, 0⟩ [.shutdown]).control = .idle ∧ (pair (some 0) ⟨0, 0, 0⟩ [.shutdown]).owner = none) := by decide

theorem test_witness_HarnessSetsEventBits :
    let s := pair none ⟨0, 0, 0⟩ [.harnessEvent .bank1 0x200000]
    s.params.conditionsHold s.clients.length = true ∧ s.port.mem.wf = true ∧ s.params.periph = .loopback ∧ s.control = .idle ∧ s.owner = none := by
  decide

end Sys2Proof.Tests
end

section
/-! The state as a whole under one step: what the smaller operations leave of the buffer, the control state and the
faults; the two ways a turn can change the buffer or the control state; and from these the statements of the state
family. -/

namespace Sys2Proof.Machine

/-- The buffer, the control state and the recorded faults are as they were. -/
def TransportKept (s t : State) : Prop := t.buf = s.buf ∧ t.control = s.control ∧ t.faults = s.faults

theorem nextTurn_transportKept (s : State) : TransportKept s s.nextTurn.2 := by
  rw [nextTurn_snd]
  exact ⟨rfl, rfl, rfl⟩

theorem initClient_transportKept (s : State) (c : Nat) (cl : Client) : TransportKept s (s.initClient c cl) := by
  unfold State.initClient
  split <;> exact ⟨rfl, rfl, rfl⟩

theorem responseRead_transportKept (s : State) (c : Nat) : TransportKept s (s.responseRead c) := by
  unfold State.responseRead
  split <;> exact ⟨rfl, rfl, rfl⟩

theorem pollClient_transportKept {s : State} {c : Nat} {cl : Client} (h : s.clients[c]? = some cl) :
    TransportKept s (s.pollClient c cl) := by
  rcases pollClient_cases h with ⟨-, e⟩ | ⟨op, -, -, e⟩ <;> rw [e] <;> exact ⟨rfl, rfl, rfl⟩

/-! The Dispatcher at rest -/

theorem dispatcherTurn_atRest {s : State} (h : s.shutdown = true ∨ s.control = .idle) : dispatcherTurn s = .next s := by
  unfold dispatcherTurn
  rcases h with h | h
  · rw [h]; rfl
  · rw [h]; exact ite_self _

theorem dispatcherAccessTurn_atRest {s : State} (h : s.shutdown = true ∨ s.control = .idle) :
    dispatcherAccessTurn s = s := by
  unfold dispatcherAccessTurn
  rcases h with h | h
  · rw [h]; rfl
  · rw [h]; exact ite_self _

/-- Settles O36: both Dispatcher turns are the identity on such a state. -/
theorem dispatcherRestsWhenIdleOrShutDown : Obligations.DispatcherRestsWhenIdleOrShutDown := by
  intro s turn rest hw hrest hturn ht
  rw [step_listed hw ht]
  cases turn with
  | dispatcher => exact dispatcherTurn_atRest hrest
  | dispatcherAccess => exact congrArg Host.Outcome.next (dispatcherAccessTurn_atRest hrest)
  | _ => cases hturn

/-! Parameters and the number of clients -/

/-- The parameters and the number of clients are as they were (10_state.md R36). -/
def ParamsKept (s t : State) : Prop := t.params = s.params ∧ t.clients.length = s.clients.length

theorem KeptByClients.paramsKept {s t : State} (h : KeptByClients s t) : ParamsKept s t :=
  ⟨h.1, h.2.2.2.2.2⟩

theorem DispatcherMoves.paramsKept {s t : State} (h : DispatcherMoves s t) : ParamsKept s t := by
  obtain ⟨-, -, q, -, ⟨r, rfl⟩ | ⟨pos, rfl⟩⟩ := h <;> exact ⟨rfl, rfl⟩

theorem takeTurn_paramsKept {turn : Turn} {s t : State} (h : takeTurn turn s = .next t) : ParamsKept s t := by
  rcases takeTurn_cases h with ⟨-, rfl | hd⟩ | ⟨c, cl, -, -, -, rfl⟩ | ⟨c, cl, op, -, -, -, rfl⟩ | ⟨c, cl, -, hc, rfl⟩ |
    ⟨c, cl, b0, b1, b2, -, -, -, rfl⟩ | ⟨c, cl, -, -, -, rfl⟩ | ⟨-, -, -, rfl⟩ | ⟨bank, mask, -, -, -, -, rfl⟩
  · exact ⟨rfl, rfl⟩
  · exact hd.paramsKept
  · exact (initClient_kept s c cl).paramsKept
  · exact (callOp_kept s c cl op).paramsKept
  · exact (pollClient_kept hc).paramsKept
  · exact (requestWrite_kept s c _).paramsKept
  · exact (responseRead_kept s c).paramsKept
  · exact ⟨rfl, rfl⟩
  · exact ⟨rfl, rfl⟩

/-- Settles O44: neither the schedule nor any turn touches the parameters or the number of clients. -/
theorem parametersNeverChange : Obligations.ParametersNeverChange := by
  intro s t h
  have hs : ParamsKept s s.nextTurn.2 := by rw [nextTurn_snd]; exact ⟨rfl, rfl⟩
  obtain ⟨-, ⟨-, rfl⟩ | ⟨turn, -, h⟩⟩ := step_cases h
  · exact hs
  · obtain ⟨hp, hc⟩ := takeTurn_paramsKept h
    exact ⟨hp.trans hs.1, hc.trans hs.2⟩

/-! Sticky faults -/

/-- Every fault kind recorded in s is recorded in t (92 D29). -/
def FaultsKept (s t : State) : Prop := ∀ k : FaultKind, s.faults.has k = true → t.faults.has k = true

theorem FaultsKept.of_eq {s t : State} (h : t.faults = s.faults) : FaultsKept s t := fun k hk => by rw [h, hk]

theorem TransportKept.faultsKept {s t : State} (h : TransportKept s t) : FaultsKept s t := .of_eq h.2.2

theorem raise_faultsKept (s : State) (k : FaultKind) : FaultsKept s (s.raise k) := fun k' hk => by simp [hk]

theorem requestWrite_faultsKept (s : State) (c : Nat) (p : Packet) : FaultsKept s (s.requestWrite c p) := by
  rcases requestWrite_cases s c p with ⟨k, -, e⟩ | ⟨-, e⟩ <;> rw [e]
  · exact raise_faultsKept s k
  · exact .of_eq rfl

/-- A call replaces a client, which records nothing, and then at most raises or writes its request. -/
theorem callOp_faultsKept (s : State) (c : Nat) (cl : Client) (op : PublicOp) : FaultsKept s (s.callOp c cl op) := by
  rcases callOp_cases s c cl op with ⟨-, e⟩ | ⟨-, -, e⟩ | ⟨-, -, e⟩ <;> rw [e]
  · exact .of_eq rfl
  · exact raise_faultsKept (s.setClient c _) _
  · exact requestWrite_faultsKept (s.setClient c _) c _

theorem DispatcherMoves.faults {s t : State} (h : DispatcherMoves s t) : t.faults = s.faults := by
  obtain ⟨-, -, q, -, ⟨r, rfl⟩ | ⟨pos, rfl⟩⟩ := h <;> rfl

theorem takeTurn_faultsKept {turn : Turn} {s t : State} (h : takeTurn turn s = .next t) : FaultsKept s t := by
  rcases takeTurn_cases h with ⟨-, rfl | hd⟩ | ⟨c, cl, -, -, -, rfl⟩ | ⟨c, cl, op, -, -, -, rfl⟩ | ⟨c, cl, -, hc, rfl⟩ |
    ⟨c, cl, b0, b1, b2, -, -, -, rfl⟩ | ⟨c, cl, -, -, -, rfl⟩ | ⟨-, -, -, rfl⟩ | ⟨bank, mask, -, -, -, -, rfl⟩
  · exact .of_eq rfl
  · exact .of_eq hd.faults
  · exact (initClient_transportKept s c cl).faultsKept
  · exact callOp_faultsKept s c cl op
  · exact (pollClient_transportKept hc).faultsKept
  · exact requestWrite_faultsKept s c _
  · exact (responseRead_transportKept s c).faultsKept
  · exact .of_eq rfl
  · exact .of_eq rfl

/-- Settles O41: faults are only ever added. -/
theorem faultsAreNeverCleared : Obligations.FaultsAreNeverCleared := by
  refine ⟨fun s t k h hk => ?_, fun k => by cases k <;> rfl⟩
  have hs : s.nextTurn.2.faults.has k = true := (nextTurn_transportKept s).faultsKept k hk
  obtain ⟨-, ⟨-, rfl⟩ | ⟨turn, -, h⟩⟩ := step_cases h
  · exact hs
  · exact takeTurn_faultsKept h k hs

/-! The buffer and the control state -/

/-- Neither the buffer nor whether the Dispatcher is servicing differs. -/
def RequestKept (s t : State) : Prop := t.buf = s.buf ∧ t.control.isServicing = s.control.isServicing

/-- Servicing ended with the response in the buffer (42_commands.md R151). -/
def Committed (s t : State) : Prop :=
  s.control.isServicing = true ∧ t.control = .idle ∧ t.buf.b0 = 0xFF ∧ t.buf.b1 = s.buf.b1

/-- Client c owns the transaction and its request is at the start of servicing (20_memory.md R64). -/
def Loaded (c : Nat) (t : State) : Prop := t.owner = some c ∧ t.control = .servicing ⟨0, []⟩

theorem TransportKept.requestKept {s t : State} (h : TransportKept s t) : RequestKept s t :=
  ⟨h.1, congrArg _ h.2.1⟩

theorem requestWrite_keeps_or_loads (s : State) (c : Nat) (p : Packet) :
    RequestKept s (s.requestWrite c p) ∨ Loaded c (s.requestWrite c p) := by
  rcases requestWrite_cases s c p with ⟨k, -, e⟩ | ⟨-, e⟩ <;> rw [e]
  · exact .inl ⟨rfl, rfl⟩
  · exact .inr ⟨rfl, rfl⟩

theorem callOp_keeps_or_loads (s : State) (c : Nat) (cl : Client) (op : PublicOp) :
    RequestKept s (s.callOp c cl op) ∨ Loaded c (s.callOp c cl op) := by
  rcases callOp_cases s c cl op with ⟨-, e⟩ | ⟨-, -, e⟩ | ⟨-, -, e⟩ <;> rw [e]
  · exact .inl ⟨rfl, rfl⟩
  · exact .inl ⟨rfl, rfl⟩
  · exact requestWrite_keeps_or_loads (s.setClient c _) c _

theorem DispatcherMoves.keeps_or_commits {s t : State} (h : DispatcherMoves s t) : RequestKept s t ∨ Committed s t := by
  obtain ⟨-, hserv, q, -, ⟨r, rfl⟩ | ⟨pos, rfl⟩⟩ := h
  · exact .inr ⟨hserv, rfl, rfl, rfl⟩
  · exact .inl ⟨rfl, hserv.symm⟩

/-- A turn keeps buffer and control state, or is a commit of the Dispatcher, or a client's loaded request. -/
theorem takeTurn_request {turn : Turn} {s t : State} (h : takeTurn turn s = .next t) :
    RequestKept s t ∨ (turnIsDispatchers turn = true ∧ Committed s t) ∨
      ∃ c, turnRequester turn = some c ∧ Loaded c t := by
  rcases takeTurn_cases h with ⟨hturn, rfl | hd⟩ | ⟨c, cl, -, -, -, rfl⟩ | ⟨c, cl, op, rfl, -, -, rfl⟩ |
    ⟨c, cl, -, hc, rfl⟩ | ⟨c, cl, b0, b1, b2, rfl, -, -, rfl⟩ | ⟨c, cl, -, -, -, rfl⟩ | ⟨-, -, -, rfl⟩ |
    ⟨bank, mask, -, -, -, -, rfl⟩
  · exact .inl ⟨rfl, rfl⟩
  · exact hd.keeps_or_commits.imp_right fun hcommit => .inl ⟨hturn, hcommit⟩
  · exact .inl (initClient_transportKept s c cl).requestKept
  · exact (callOp_keeps_or_loads s c cl op).imp_right fun hload => .inr ⟨c, rfl, hload⟩
  · exact .inl (pollClient_transportKept hc).requestKept
  · exact (requestWrite_keeps_or_loads s c _).imp_right fun hload => .inr ⟨c, rfl, hload⟩
  · exact .inl (responseRead_transportKept s c).requestKept
  · exact .inl ⟨rfl, rfl⟩
  · exact .inl ⟨rfl, rfl⟩

/-- The same of a step, with the turn it took. -/
theorem step_request {s t : State} (h : step s = .next t) :
    RequestKept s t ∨ ∃ turn, s.nextTurn.1 = some turn ∧
      ((turnIsDispatchers turn = true ∧ Committed s t) ∨ ∃ c, turnRequester turn = some c ∧ Loaded c t) := by
  obtain ⟨hbuf, hctrl, -⟩ := nextTurn_transportKept s
  obtain ⟨-, ⟨-, rfl⟩ | ⟨turn, hturn, h⟩⟩ := step_cases h
  · exact .inl (nextTurn_transportKept s).requestKept
  · have hcases := takeTurn_request h
    unfold RequestKept Committed at hcases ⊢
    rw [hbuf, hctrl] at hcases
    exact hcases.imp_right fun hwrite => ⟨turn, hturn, hwrite⟩

/-- Settles O46: the two writers are the two turns that do not keep the request. -/
theorem theBufferHasTwoWriters : Obligations.TheBufferHasTwoWriters := by
  intro s t h hbuf
  rcases step_request h with ⟨hkept, -⟩ | ⟨turn, hturn, ⟨hdisp, hcommit⟩ | hload⟩
  · exact absurd hkept hbuf
  · exact ⟨turn, hturn, .inl ⟨hdisp, hcommit⟩⟩
  · exact ⟨turn, hturn, .inr hload⟩

/-- Settles O47: a load leaves the Dispatcher servicing and a commit leaves it IDLE, and no other turn moves it between
the two. -/
theorem controlHasTwoTransitions : Obligations.ControlHasTwoTransitions := by
  intro s t h
  rcases step_request h with ⟨-, hkept⟩ | ⟨turn, hturn, ⟨hdisp, hserv, -, hb0, hb1⟩ | ⟨c, hreq, howner, hctrl⟩⟩
  · refine ⟨fun hs ht => ?_, fun hs ht => ?_⟩
    · rw [hkept, hs] at ht
      cases ht
    · rw [← hkept, ht] at hs
      cases hs
  · refine ⟨fun hs => ?_, fun _ _ => ⟨turn, hturn, hdisp, hb0, hb1⟩⟩
    rw [hs] at hserv
    cases hserv
  · refine ⟨fun _ _ => ⟨turn, c, hturn, hreq, howner⟩, fun _ ht => ?_⟩
    rw [hctrl] at ht
    cases ht

end Sys2Proof.Machine
end

section
/-! The register side under one turn: a Dispatcher's turn reaches it by accesses to family words, the harness's turn by
setting bits of one EDS word, and no other turn reaches it at all. -/

namespace Sys2Proof.Machine

/-- The bits of a mask set in the stored EDS word of a bank, as the loopback harness does (20_memory.md R58). -/
def Port.latchEvents (m : WordMap) (bank : Bank) (mask : Word) (q : Port) : Port :=
  { q with mem := q.mem.write (m.bankWord .eds bank) (q.mem.read (m.bankWord .eds bank) ||| mask) }

/-- What a harness turn did that took s to t: it ran between transactions of the loopback model (log 29) and latched
events. -/
def HarnessLatched (bank : Bank) (mask : Word) (s t : State) : Prop :=
  s.params.periph = .loopback ∧ s.control = .idle ∧ s.owner = none ∧
    t = s.withPort (s.port.latchEvents s.params.words bank mask)

theorem harnessTurn_latches {s : State} (bank : Bank) (mask : Word) (hperiph : s.params.periph = .loopback)
    (hidle : s.control = .idle) (howner : s.owner = none) :
    harnessTurn bank mask s = .next (s.withPort (s.port.latchEvents s.params.words bank mask)) :=
  if_pos ⟨hperiph, hidle, howner⟩

theorem Port.read_latchEvents {m : WordMap} {bank : Bank} {mask : Word} {q : Port} (hq : q.mem.wf = true) (a : Nat) :
    (q.latchEvents m bank mask).mem.read a =
      if a = m.bankWord .eds bank then q.mem.read (m.bankWord .eds bank) ||| mask else q.mem.read a :=
  Memory.read_write _ _ _ hq

theorem Port.reaches_latchEvents {ps : Params} (hw : ps.wellFormed = true) (bank : Bank) (mask : Word) (q : Port) :
    Port.Reaches ps q (q.latchEvents ps.words bank mask) := by
  refine ⟨Memory.wf_write _ _, fun h cell hc => ?_, [], (List.append_nil _).symm⟩
  rcases Memory.mem_write hc with e | hc
  · exact e ▸ words_below hw (bankWord_mem ..)
  · exact h cell hc

theorem DispatcherMoves.reaches {s t : State} (h : DispatcherMoves s t) (hw : s.params.wellFormed = true) :
    Port.Reaches s.params s.port t.port := by
  obtain ⟨-, -, q, hq, ⟨r, rfl⟩ | ⟨pos, rfl⟩⟩ := h <;> exact hq hw

/-- Who can have changed the register side in a turn (20_memory.md R50). -/
theorem takeTurn_port {turn : Turn} {s t : State} (h : takeTurn turn s = .next t) :
    (turnIsDispatchers turn = true ∧ (s.params.wellFormed = true → Port.Reaches s.params s.port t.port)) ∨
    (∃ bank mask, turn = .harnessEvent bank mask ∧ HarnessLatched bank mask s t) ∨
    (turnIsDispatchers turn = false ∧ turnIsHarness turn = false ∧ t.port = s.port) := by
  rcases takeTurn_cases h with ⟨hturn, rfl | hd⟩ | ⟨c, cl, rfl, -, -, rfl⟩ | ⟨c, cl, op, rfl, -, -, rfl⟩ |
    ⟨c, cl, rfl, hc, rfl⟩ | ⟨c, cl, b0, b1, b2, rfl, -, -, rfl⟩ | ⟨c, cl, rfl, -, -, rfl⟩ | ⟨rfl, -, -, rfl⟩ |
    ⟨bank, mask, rfl, hperiph, hidle, howner, rfl⟩
  · exact .inl ⟨hturn, fun _ => Port.Reaches.refl _ _⟩
  · exact .inl ⟨hturn, hd.reaches⟩
  · exact .inr (.inr ⟨rfl, rfl, (initClient_kept s c cl).2.1⟩)
  · exact .inr (.inr ⟨rfl, rfl, (callOp_kept s c cl op).2.1⟩)
  · exact .inr (.inr ⟨rfl, rfl, (pollClient_kept hc).2.1⟩)
  · exact .inr (.inr ⟨rfl, rfl, (requestWrite_kept s c _).2.1⟩)
  · exact .inr (.inr ⟨rfl, rfl, (responseRead_kept s c).2.1⟩)
  · exact .inr (.inr ⟨rfl, rfl, rfl⟩)
  · exact .inr (.inl ⟨bank, mask, rfl, hperiph, hidle, howner, rfl⟩)

theorem takeTurn_reaches {turn : Turn} {s t : State} (hw : s.params.wellFormed = true)
    (h : takeTurn turn s = .next t) : Port.Reaches s.params s.port t.port := by
  rcases takeTurn_port h with ⟨-, hr⟩ | ⟨bank, mask, -, -, -, -, rfl⟩ | ⟨-, -, e⟩
  · exact hr hw
  · exact Port.reaches_latchEvents hw bank mask s.port
  · exact e ▸ Port.Reaches.refl _ _

/-- Only a turn of the Dispatcher appends to the access history. -/
theorem takeTurn_history {turn : Turn} {s t : State} (h : takeTurn turn s = .next t)
    (hturn : turnIsDispatchers turn = false) : t.port.history = s.port.history := by
  rcases takeTurn_port h with ⟨hd, -⟩ | ⟨bank, mask, -, -, -, -, rfl⟩ | ⟨-, -, e⟩
  · rw [hturn] at hd; cases hd
  · rfl
  · rw [e]

/-- Settles O43: a Dispatcher turn appends the events of its accesses, any other turn appends none. -/
theorem historyOnlyGrows : Obligations.HistoryOnlyGrows := by
  intro s t h
  have hs := nextTurn_snd s
  obtain ⟨hcond, ⟨-, rfl⟩ | ⟨turn, hturn, h⟩⟩ := step_cases h
  · exact ⟨[], by rw [hs, List.append_nil], fun _ => rfl⟩
  · rw [hs] at h
    cases hd : turnIsDispatchers turn with
    | true =>
      have hreach := takeTurn_reaches (s := { s with turns := s.nextTurn.2.turns }) (conditionsHold_iff.mp hcond).1 h
      obtain ⟨l, hl⟩ := hreach.history
      refine ⟨l, hl, fun hnone => ?_⟩
      rw [hnone turn hturn] at hd
      cases hd
    | false => exact ⟨[], by rw [takeTurn_history h hd, List.append_nil], fun _ => rfl⟩

theorem turnIsHarness_of_dispatchers {turn : Turn} (h : turnIsDispatchers turn = true) :
    turnIsHarness turn = false := by
  cases turn with
  | dispatcher => rfl
  | dispatcherAccess => rfl
  | _ => cases h

/-- Settles O45: `takeTurn_port` names the two agents that reach the register side, and what the harness does there. -/
theorem onlyTheDispatcherReachesTheBank : Obligations.OnlyTheDispatcherReachesTheBank := by
  intro s t h
  have hs := nextTurn_snd s
  obtain ⟨-, ⟨hnone, rfl⟩ | ⟨turn, hturn, h⟩⟩ := step_cases h
  · refine ⟨fun _ => by rw [hs], fun turn hturn => ?_⟩
    rw [hnone] at hturn
    cases hturn
  · rw [hturn]
    simp only [Option.some.injEq, forall_eq']
    rw [hs] at h ⊢
    rcases takeTurn_port h with ⟨hd, -⟩ | ⟨bank, mask, rfl, hperiph, hidle, howner, rfl⟩ | ⟨-, hharness, hport⟩
    · refine ⟨fun hother => ?_, fun hharness => ?_⟩
      · rw [hother.1] at hd; cases hd
      · rw [turnIsHarness_of_dispatchers hd] at hharness; cases hharness
    · refine ⟨fun hother => (nomatch hother.2), fun _ hwf => ⟨hperiph, hidle, howner, fun a ha => ?_, rfl, rfl⟩⟩
      have hne : a ≠ s.params.words.bankWord .eds bank := fun e => ha (e ▸ bankWord_mem_pairWords _ _ _)
      exact (Port.read_latchEvents hwf a).trans (if_neg hne)
    · refine ⟨fun _ => hport, fun hturn => ?_⟩
      rw [hharness] at hturn
      cases hturn

/-- Settles O59: the harness's turn answers, and read-after-write gives both halves. -/
theorem harnessSetsEventBits : Obligations.HarnessSetsEventBits := by
  intro s bank mask rest hcond hwf hperiph hidle howner hturns
  refine ⟨_, (step_listed hcond hturns).trans (harnessTurn_latches bank mask hperiph hidle howner), ?_⟩
  refine ⟨⟨?_, fun a ha => ?_⟩, ⟨rfl, rfl⟩, rfl⟩
  · exact (Port.read_latchEvents hwf _).trans (if_pos rfl)
  · exact (Port.read_latchEvents hwf a).trans (if_neg (by simpa using ha))

end Sys2Proof.Machine
end

section
/-! What the transport's operations and the decoder's length check do, one rule per case (20_memory.md R63, R64, R65);
and from these the statements about raw transfers. -/

namespace Sys2Proof

/-- Settles O6: the decoder's two equations, three bytes and any other number of them. -/
theorem otherLengthsAreNoPacket : Obligations.OtherLengthsAreNoPacket := by
  intro m bytes n
  unfold decode
  split
  · exact iff_of_false nofun fun ⟨hlen, hn⟩ => hn hlen.symm
  · next hother =>
    have hlen : bytes.length ≠ 3 := fun h => by
      obtain ⟨c, p, v, rfl⟩ := List.length_eq_three.mp h
      exact hother c p v rfl
    rw [Decoded.notAPacket.injEq]
    exact ⟨fun h => ⟨h, h ▸ hlen⟩, And.left⟩

end Sys2Proof

namespace Sys2Proof.Machine

/-- The sentinel, as a byte (10_state.md R26). -/
theorem responseReady_iff {p : Packet} : p.responseReady = true ↔ p.b0 = 0xFF := beq_iff_eq

theorem requestFault_afterShutdown {s : State} (c : Nat) (h : s.shutdown = true) :
    s.requestFault c = some .afterShutdown := if_pos h

theorem requestFault_interleaved {s : State} {c : Nat} (hrunning : s.shutdown = false)
    (h : s.owner ≠ none ∧ (s.control.isServicing = true ∨ s.owner ≠ some c)) :
    s.requestFault c = some .interleavedTransaction :=
  (if_neg (by simp [hrunning])).trans (if_pos h)

theorem requestWrite_raises {s : State} {c : Nat} {k : FaultKind} (p : Packet) (h : s.requestFault c = some k) :
    s.requestWrite c p = s.raise k := by
  rw [State.requestWrite, h]

theorem requestWrite_loads {s : State} {c : Nat} (p : Packet) (h : s.requestFault c = none) :
    s.requestWrite c p = s.load c p := by
  rw [State.requestWrite, h]

theorem ownerAfterRead_ends {s : State} {c : Nat} (h : s.control = .idle ∧ s.owner = some c) :
    s.ownerAfterRead c = none := if_pos h

theorem ownerAfterRead_keeps {s : State} {c : Nat} (h : ¬ (s.control = .idle ∧ s.owner = some c)) :
    s.ownerAfterRead c = s.owner := if_neg h

/-- The state with other turns to come. -/
def State.withTurns (s : State) (rest : List Turn) : State := { s with turns := rest }

@[simp] theorem requestFault_withTurns (s : State) (rest : List Turn) (c : Nat) :
    (s.withTurns rest).requestFault c = s.requestFault c := rfl

@[simp] theorem ownerAfterRead_withTurns (s : State) (rest : List Turn) (c : Nat) :
    (s.withTurns rest).ownerAfterRead c = s.ownerAfterRead c := rfl

theorem withClient_of_client {s : State} {c : Nat} {cl : Client} (hc : s.clients[c]? = some cl)
    (f : Client → Host.Outcome State Fault Refusal) : withClient c s f = f cl := by
  rw [withClient, hc]

theorem busy_of_noTxn {cl : Client} (h : cl.phase = .noTxn) : cl.busy = false := by
  rw [Client.busy, h]

/-- A client in no transaction may start something. -/
theorem withFreeClient_of_noTxn {s : State} {c : Nat} {cl : Client} (hc : s.clients[c]? = some cl)
    (hphase : cl.phase = .noTxn) (f : Client → Host.Outcome State Fault Refusal) : withFreeClient c s f = f cl :=
  (withClient_of_client hc _).trans (if_neg (by simp [busy_of_noTxn hphase]))

theorem rawWriteTurn_refuses {c : Nat} {bytes : List Byte} (s : State) (h : bytes.length ≠ 3) :
    rawWriteTurn c bytes s = .refused (.wrongLength bytes.length) := by
  unfold rawWriteTurn
  split
  · exact absurd rfl h
  · rfl

theorem rawReadTurn_refuses {c n : Nat} (s : State) (h : n ≠ 3) : rawReadTurn c n s = .refused (.wrongLength n) :=
  if_neg (mt of_decide_eq_true h)

/-- Settles O49: the step is the RequestWrite, and the three clauses are its three cases. -/
theorem requestWriteLoadsOrFaults : Obligations.RequestWriteLoadsOrFaults := by
  intro s c cl b0 b1 b2 rest hw hc hphase hturns
  have hstep : step s = .next ((s.withTurns rest).requestWrite c ⟨b0, b1, b2⟩) :=
    (step_listed_client hw hc hturns).trans (withFreeClient_of_noTxn hc hphase _)
  rw [hstep]
  refine ⟨fun hdown => ?_, fun hrunning hbusy => ?_, fun hrunning hfree => ?_⟩
  · rw [requestWrite_raises _ ((requestFault_withTurns s rest c).trans (requestFault_afterShutdown c hdown))]
    rfl
  · rw [requestWrite_raises _ ((requestFault_withTurns s rest c).trans (requestFault_interleaved hrunning hbusy))]
    rfl
  · have hnone : s.requestFault c = none := (requestFault_none s c).mpr ⟨hrunning, hfree⟩
    rw [requestWrite_loads _ ((requestFault_withTurns s rest c).trans hnone)]
    rfl

/-- Settles O50: the step is the ResponseRead, which copies the buffer whatever becomes of the owner. -/
theorem responseReadCopiesTheBuffer : Obligations.ResponseReadCopiesTheBuffer := by
  intro s c cl rest hw hc hphase hturns
  have hstep : step s = .next ((s.withTurns rest).responseRead c) :=
    (step_listed_client hw hc hturns).trans (withFreeClient_of_noTxn hc hphase _)
  have hc' : (s.withTurns rest).clients[c]? = some cl := hc
  rw [hstep, responseRead_client hc', ownerAfterRead_withTurns]
  refine ⟨fun hend => ?_, fun hkeep => ?_⟩
  · rw [ownerAfterRead_ends hend]
    rfl
  · rw [ownerAfterRead_keeps hkeep]
    rfl

/-- Settles O51: a client in no transaction gets as far as the length check, which refuses. -/
theorem otherLengthsAreRefused : Obligations.OtherLengthsAreRefused := by
  intro s c cl rest hw hc hphase
  refine ⟨fun bytes hlen hturns => ?_, fun n hn hturns => ?_⟩
  · rw [step_listed_client hw hc hturns]
    exact (withFreeClient_of_noTxn hc hphase _).trans (rawWriteTurn_refuses _ hlen)
  · rw [step_listed_client hw hc hturns]
    exact (withFreeClient_of_noTxn hc hphase _).trans (rawReadTurn_refuses _ hn)

end Sys2Proof.Machine
end

section
/-! The invariant, in three parts that are kept for three reasons: no turn changes the parameters; the register side is
reached by accesses to family words alone; and each operation keeps the bookkeeping of who owns the transaction
(20_memory.md R64, R65), which is most of what follows. -/

namespace Sys2Proof.Machine

/-- The stored words are canonical and lie in the bank. -/
def Port.InBank (ps : Params) (q : Port) : Prop := q.mem.wf = true ∧ ∀ cell ∈ q.mem, cell.1 < ps.nwords

theorem Port.Reaches.keeps_inBank {ps : Params} {q q' : Port} (h : Port.Reaches ps q q') (hq : q.InBank ps) :
    q'.InBank ps := ⟨h.wf hq.1, h.inBank hq.2⟩

/-- The part of `Inv` that speaks of the owner: who it is, and what the Dispatcher and the clients hold of it. -/
structure OwnerInv (s : State) : Prop where
  /-- A request being serviced has an owner. -/
  owned : s.control.isServicing = true → s.owner ≠ none
  /-- The owner is a client. -/
  ownerIsClient : ∀ c, s.owner = some c → c < s.clients.length
  /-- After shutdown nothing is outstanding (70_reset_and_hazards.md R263). -/
  quiet : s.shutdown = true → s.control = .idle ∧ s.owner = none
  /-- An answered request shows the sentinel (42_commands.md R172). -/
  answered : s.control = .idle → s.owner ≠ none → s.buf.b0 = 0xFF
  /-- Every client is in step with the Dispatcher (43_framer.md R215). -/
  inStep : ∀ c cl, s.clients[c]? = some cl → ClientInv s c cl

theorem inv_iff {s : State} :
    Inv s ↔ s.params.conditionsHold s.clients.length = true ∧ s.port.InBank s.params ∧ OwnerInv s :=
  ⟨fun ⟨hparams, hwf, hbank, h1, h2, h3, h4, h5⟩ => ⟨hparams, ⟨hwf, hbank⟩, h1, h2, h3, h4, h5⟩,
    fun ⟨hparams, ⟨hwf, hbank⟩, h1, h2, h3, h4, h5⟩ => ⟨hparams, hwf, hbank, h1, h2, h3, h4, h5⟩⟩

theorem setClient_self {s : State} {c : Nat} {cl : Client} (hc : s.clients[c]? = some cl) : s.setClient c cl = s := by
  obtain ⟨hlen, rfl⟩ := List.getElem?_eq_some_iff.mp hc
  rw [State.setClient, List.set_getElem_self]

/-! What holds of one client -/

theorem clientInv_of_not_busy {s : State} {c : Nat} {cl : Client} (h : cl.busy = false) : ClientInv s c cl := by
  intro op hphase
  rw [Client.busy, hphase] at h
  cases h

theorem clientInv_of_stopped {s : State} {c : Nat} {cl : Client} (h : cl.stopped = true) : ClientInv s c cl := by
  intro op _ hgoing
  rw [h] at hgoing
  cases hgoing

/-- A client that does not own the transaction awaits nothing, or has stopped, whatever the state. -/
theorem clientInv_of_not_owner {s t : State} {c : Nat} {cl : Client} (h : ClientInv s c cl) (hc : s.owner ≠ some c) :
    ClientInv t c cl := fun op hphase hgoing => absurd (h op hphase hgoing).1 hc

/-- What a client is held to depends on the owner, the code map and the packet being serviced only. -/
theorem clientInv_of_eq {s t : State} {c : Nat} {cl : Client} (h : ClientInv s c cl) (howner : t.owner = s.owner)
    (hparams : t.params = s.params)
    (hserving : t.control.isServicing = true → s.control.isServicing = true ∧ t.buf = s.buf) : ClientInv t c cl := by
  intro op hphase hgoing
  obtain ⟨hown, hbuf⟩ := h op hphase hgoing
  refine ⟨howner.trans hown, fun ht => ?_⟩
  obtain ⟨hs, e⟩ := hserving ht
  rw [e, hparams, hbuf hs]

/-- Replacing client c asks for the new client c and for the other clients. -/
theorem inStep_set {t : State} {clients : List Client} {c : Nat} {cl' : Client} (hself : ClientInv t c cl')
    (hothers : ∀ d cld, d ≠ c → clients[d]? = some cld → ClientInv t d cld) (d : Nat) (cld : Client)
    (hd : (clients.set c cl')[d]? = some cld) : ClientInv t d cld := by
  by_cases hdc : c = d
  · subst hdc
    rw [List.getElem?_set_self'] at hd
    obtain ⟨-, -, rfl⟩ := Option.map_eq_some_iff.mp hd
    exact hself
  · rw [List.getElem?_set_ne hdc] at hd
    exact hothers d cld (Ne.symm hdc) hd

/-! What each kind of turn keeps -/

theorem OwnerInv.raise {s : State} (h : OwnerInv s) (k : FaultKind) : OwnerInv (s.raise k) :=
  ⟨h.owned, h.ownerIsClient, h.quiet, h.answered, h.inStep⟩

theorem OwnerInv.setClient {s : State} (h : OwnerInv s) {c : Nat} {cl' : Client} (hself : ClientInv s c cl') :
    OwnerInv (s.setClient c cl') := by
  refine ⟨h.owned, fun d hd => ?_, h.quiet, h.answered, ?_⟩
  · rw [State.setClient_clients, List.length_set]
    exact h.ownerIsClient d hd
  · exact inStep_set hself fun d cld _ hd => h.inStep d cld hd

/-- Loading a request: the other clients own nothing, since the RequestWrite does not fault. -/
theorem OwnerInv.load {s : State} (h : OwnerInv s) {c : Nat} {cl' : Client} {p : Packet} (hlen : c < s.clients.length)
    (hfault : s.requestFault c = none) (hself : ClientInv (s.load c p) c cl') :
    OwnerInv ((s.setClient c cl').load c p) := by
  obtain ⟨hrunning, hfree⟩ := (requestFault_none s c).mp hfault
  refine ⟨fun _ => Option.some_ne_none c, ?_, fun hdown => ?_, nofun, inStep_set hself fun d cld hdc hd => ?_⟩
  · rintro d ⟨⟩
    simpa using hlen
  · exact absurd (hrunning.symm.trans hdown) Bool.false_ne_true
  · have hother : s.owner ≠ some d := fun e => hfree ⟨by simp [e], .inr (by simpa [e] using hdc)⟩
    exact clientInv_of_not_owner (h.inStep d cld hd) hother

/-- A RequestWrite by client c, which becomes cl' as it makes it. -/
theorem OwnerInv.requestWrite {s : State} (h : OwnerInv s) {c : Nat} {cl' : Client} {p : Packet}
    (hlen : c < s.clients.length) (hfaulted : (s.requestFault c).isSome → ClientInv s c cl')
    (hloaded : s.requestFault c = none → ClientInv (s.load c p) c cl') :
    OwnerInv ((s.setClient c cl').requestWrite c p) := by
  rcases requestWrite_cases (s.setClient c cl') c p with ⟨k, hfault, e⟩ | ⟨hfault, e⟩ <;> rw [e] <;>
    rw [requestFault_setClient] at hfault
  · exact (h.setClient (hfaulted (by rw [hfault, Option.isSome_some]))).raise k
  · exact h.load hlen hfault (hloaded hfault)

/-- A raw RequestWrite by a client in no transaction, which it leaves so. -/
theorem OwnerInv.rawWrite {s : State} (h : OwnerInv s) {c : Nat} {cl : Client} (hc : s.clients[c]? = some cl)
    (hfree : cl.busy = false) (p : Packet) : OwnerInv (s.requestWrite c p) := by
  have hwrite : OwnerInv ((s.setClient c cl).requestWrite c p) :=
    h.requestWrite (List.getElem?_eq_some_iff.mp hc).1 (fun _ => clientInv_of_not_busy hfree)
      fun _ => clientInv_of_not_busy hfree
  rwa [setClient_self hc] at hwrite

/-- A ResponseRead by client c, which becomes cl' as it makes it: when that ends the transaction, no other client
awaits. -/
theorem OwnerInv.responseRead {s : State} (h : OwnerInv s) {c : Nat} {cl' : Client}
    (hself : ClientInv { s with owner := s.ownerAfterRead c } c cl') :
    OwnerInv { s with clients := s.clients.set c cl', owner := s.ownerAfterRead c } := by
  by_cases hend : s.control = .idle ∧ s.owner = some c
  · rw [ownerAfterRead_ends hend] at hself ⊢
    refine ⟨fun hserving => ?_, nofun, fun _ => ⟨hend.1, rfl⟩, fun _ hne => absurd rfl hne,
      inStep_set hself fun d cld hdc hd => ?_⟩
    · rw [show s.control = .idle from hend.1] at hserving
      cases hserving
    · exact clientInv_of_not_owner (h.inStep d cld hd) (by simpa [hend.2] using hdc.symm)
  · rw [ownerAfterRead_keeps hend] at hself ⊢
    exact h.setClient hself

theorem OwnerInv.initClient {s : State} (h : OwnerInv s) (c : Nat) {cl : Client} (hfree : cl.busy = false) :
    OwnerInv (s.initClient c cl) := by
  have hopening : OwnerInv { s with opens := s.opens + 1 } :=
    ⟨h.owned, h.ownerIsClient, h.quiet, h.answered, h.inStep⟩
  unfold State.initClient
  split <;> exact hopening.setClient (clientInv_of_not_busy hfree)

/-- A call: the client awaits only if its request is loaded, and otherwise is stopped or still free. -/
theorem OwnerInv.callOp {s : State} (h : OwnerInv s) {c : Nat} {cl : Client} (hc : s.clients[c]? = some cl)
    (hfree : cl.busy = false) (op : PublicOp) : OwnerInv (s.callOp c cl op) := by
  rcases callOp_cases s c cl op with ⟨-, e⟩ | ⟨-, -, e⟩ | ⟨-, -, e⟩ <;> rw [e]
  · exact h.setClient (clientInv_of_not_busy hfree)
  · exact (h.setClient (cl' := { cl with ret := none }) (clientInv_of_not_busy hfree)).raise _
  · refine h.requestWrite (List.getElem?_eq_some_iff.mp hc).1 (fun hfault => clientInv_of_stopped hfault) fun _ => ?_
    rintro _ ⟨⟩ _
    exact ⟨rfl, fun _ => rfl⟩

/-- A poll: the client goes on awaiting only while its request is being serviced, since an answered one shows the
sentinel. -/
theorem OwnerInv.pollClient {s : State} (h : OwnerInv s) {c : Nat} {cl : Client} (hc : s.clients[c]? = some cl) :
    OwnerInv (s.pollClient c cl) := by
  rcases pollClient_cases hc with ⟨-, e⟩ | ⟨op, hphase, hgoing, e⟩ <;> rw [e]
  · exact h
  · apply h.responseRead
    unfold Client.afterRead
    split
    · exact clientInv_of_not_busy rfl
    · next hready =>
      have howner : s.owner = some c := (h.inStep c cl hc op hphase hgoing).1
      have hserving : ¬ (s.control = .idle ∧ s.owner = some c) := fun ⟨hidle, _⟩ =>
        hready (responseReady_iff.mpr (h.answered hidle (by simp [howner])))
      rw [ownerAfterRead_keeps hserving]
      exact h.inStep c cl hc

theorem OwnerInv.dispatcherMoves {s t : State} (h : OwnerInv s) (hd : DispatcherMoves s t) : OwnerInv t := by
  obtain ⟨hrunning, hserving, q, -, ⟨r, rfl⟩ | ⟨pos, rfl⟩⟩ := hd
  · refine ⟨nofun, h.ownerIsClient, fun hdown => ?_, fun _ _ => rfl, fun c cl hc => ?_⟩
    · exact absurd (hrunning.symm.trans hdown) Bool.false_ne_true
    · exact clientInv_of_eq (h.inStep c cl hc) rfl rfl nofun
  · refine ⟨fun _ => h.owned hserving, h.ownerIsClient, fun hdown => ?_, nofun, fun c cl hc => ?_⟩
    · exact absurd (hrunning.symm.trans hdown) Bool.false_ne_true
    · exact clientInv_of_eq (h.inStep c cl hc) rfl rfl fun _ => ⟨hserving, rfl⟩

theorem OwnerInv.shutdown {s : State} (h : OwnerInv s) (hidle : s.control = .idle) (howner : s.owner = none) :
    OwnerInv { s with shutdown := true } :=
  ⟨h.owned, h.ownerIsClient, fun _ => ⟨hidle, howner⟩, h.answered, h.inStep⟩

theorem OwnerInv.withPort {s : State} (h : OwnerInv s) (q : Port) : OwnerInv (s.withPort q) :=
  ⟨h.owned, h.ownerIsClient, h.quiet, h.answered, h.inStep⟩

theorem takeTurn_ownerInv {turn : Turn} {s t : State} (hs : OwnerInv s) (h : takeTurn turn s = .next t) :
    OwnerInv t := by
  rcases takeTurn_cases h with ⟨-, rfl | hd⟩ | ⟨c, cl, -, -, hfree, rfl⟩ | ⟨c, cl, op, -, hc, hfree, rfl⟩ |
    ⟨c, cl, -, hc, rfl⟩ | ⟨c, cl, b0, b1, b2, -, hc, hfree, rfl⟩ | ⟨c, cl, -, hc, hfree, rfl⟩ |
    ⟨-, hidle, howner, rfl⟩ | ⟨bank, mask, -, -, -, -, rfl⟩
  · exact hs
  · exact hs.dispatcherMoves hd
  · exact hs.initClient c hfree
  · exact hs.callOp hc hfree op
  · exact hs.pollClient hc
  · exact hs.rawWrite hc hfree _
  · rw [responseRead_client hc]
    exact hs.responseRead (clientInv_of_not_busy hfree)
  · exact hs.shutdown hidle howner
  · exact hs.withPort _

/-- Every turn keeps the three parts of the invariant. -/
theorem takeTurn_inv {turn : Turn} {s t : State} (hs : Inv s) (h : takeTurn turn s = .next t) : Inv t := by
  obtain ⟨hcond, hbank, howner⟩ := inv_iff.mp hs
  obtain ⟨hparams, hclients⟩ := takeTurn_paramsKept h
  have hreach := takeTurn_reaches (conditionsHold_iff.mp hcond).1 h
  refine inv_iff.mpr ⟨?_, ?_, takeTurn_ownerInv howner h⟩
  · rw [hparams, hclients]
    exact hcond
  · rw [hparams]
    exact hreach.keeps_inBank hbank

/-- Settles O38: taking a turn off the schedule leaves what the invariant speaks of, and every turn keeps it. -/
theorem invariantIsKeptByEveryStep : Obligations.InvariantIsKeptByEveryStep := by
  intro s t hs h
  have hnext : Inv s.nextTurn.2 := by
    rw [nextTurn_snd]
    exact hs
  obtain ⟨-, ⟨-, rfl⟩ | ⟨turn, -, h⟩⟩ := step_cases h
  · exact hnext
  · exact takeTurn_inv hnext h

end Sys2Proof.Machine
end

section
/-! Servicing access by access against servicing in one step (20_memory.md R62): what is left of a command at a
servicing position, and the turns that perform it one access at a time. -/

namespace Sys2Proof.Machine

/-- At a servicing position of block p what is left is `left`, and stays so as values and accesses are added. -/
def Accesses.LeftAt {α : Type} (p : Accesses α) (pos : Position) (left : Accesses α) : Prop :=
  ∀ xs n, p.after (pos.values ++ xs) (pos.index + n) = left.after xs n

@[simp] theorem Accesses.after_zero {α : Type} (p : Accesses α) (xs : List Word) : p.after xs 0 = p := by
  cases p <;> rfl

theorem Accesses.leftAt_start {α : Type} (p : Accesses α) : p.LeftAt Position.start p := by
  intro xs n
  simp [Position.start]

theorem Accesses.LeftAt.rest_eq {α : Type} {p left : Accesses α} {pos : Position} (h : p.LeftAt pos left) :
    p.rest pos = left := by
  simpa [Accesses.rest] using h [] 0

theorem Accesses.LeftAt.read {α : Type} {p : Accesses α} {pos : Position} {i : Nat} {next : Word → Accesses α}
    (h : p.LeftAt pos (.read i next)) (x : Word) : p.LeftAt ⟨pos.index + 1, pos.values ++ [x]⟩ (next x) := by
  intro xs n
  rw [List.append_assoc, Nat.add_assoc, Nat.add_comm 1 n]
  exact h (x :: xs) (n + 1)

theorem Accesses.LeftAt.write {α : Type} {p next : Accesses α} {pos : Position} {i : Nat} {v : Word}
    (h : p.LeftAt pos (.write i v next)) : p.LeftAt ⟨pos.index + 1, pos.values⟩ next := by
  intro xs n
  rw [Nat.add_assoc, Nat.add_comm 1 n]
  exact h xs (n + 1)

/-- The Dispatcher's turn at a servicing position makes the access of what is left there. -/
theorem dispatcherAccessTurn_servicing {s : State} {pos : Position} (hrunning : s.shutdown = false)
    (hc : s.control = .servicing pos) : dispatcherAccessTurn s = serviceNext pos s := by
  unfold dispatcherAccessTurn
  rw [if_neg (by simp [hrunning]), hc]

theorem serviceAccess_done {s : State} {p : Accesses (Option Word)} {pos : Position} {r : Option Word}
    (h : p.rest pos = .done r) : s.serviceAccess p pos = s.commit r := by
  rw [State.serviceAccess, h]

theorem serviceAccess_read {s : State} {p : Accesses (Option Word)} {pos : Position} {i : Nat}
    {next : Word → Accesses (Option Word)} (h : p.rest pos = .read i next) :
    s.serviceAccess p pos = (s.withPort (s.port.regRead s.params i).2).atPosition
      ⟨pos.index + 1, pos.values ++ [(s.port.regRead s.params i).1]⟩ := by
  rw [State.serviceAccess, h]

theorem serviceAccess_write {s : State} {p next : Accesses (Option Word)} {pos : Position} {i : Nat} {v : Word}
    (h : p.rest pos = .write i v next) :
    s.serviceAccess p pos =
      (s.withPort (s.port.regWrite s.params i v)).atPosition ⟨pos.index + 1, pos.values⟩ := by
  rw [State.serviceAccess, h]

/-- Turns of one access each make the accesses `l` from s and then commit into t, servicing until then. -/
def ServicedByAccesses (s t : State) (l : List RegEvent) : Prop :=
  Accessed s t l ∧ accessTurns (l.length + 1) s = t ∧
    ∀ k, k ≤ l.length → (accessTurns k s).control.isServicing = true

/-- The last turn is the commit. -/
theorem servicedByAccesses_commit {s : State} {r : Option Word} (hserving : s.control.isServicing = true)
    (hturn : dispatcherAccessTurn s = s.commit r) : ServicedByAccesses s (s.commit r) [] := by
  refine ⟨(List.append_nil _).symm, hturn, fun k hk => ?_⟩
  obtain rfl := Nat.le_zero.mp hk
  exact hserving

/-- A turn that makes one access comes before the turns from the state it reaches. -/
theorem ServicedByAccesses.access {s s' t : State} {e : RegEvent} {l : List RegEvent}
    (hserving : s.control.isServicing = true) (hturn : dispatcherAccessTurn s = s') (he : Accessed s s' [e])
    (h : ServicedByAccesses s' t l) : ServicedByAccesses s t (e :: l) := by
  subst hturn
  obtain ⟨hl, hturns, hwhile⟩ := h
  refine ⟨?_, hturns, fun k hk => ?_⟩
  · rw [Accessed, hl, he, List.append_assoc, List.singleton_append]
  · cases k with
    | zero => exact hserving
    | succ k => exact hwhile k (Nat.le_of_succ_le_succ hk)

/-- From any position, the turns of one access each perform exactly the run of what is left. -/
theorem servicedByAccesses_left {left : Accesses (Option Word)} {s : State} {pos : Position}
    (hrunning : s.shutdown = false) (hc : s.control = .servicing pos)
    (hleft : (requestCommand s.params.words s.request).LeftAt pos left) :
    ∃ l, ServicedByAccesses s
      ((s.withPort (left.run s.params s.port).2).commit (left.run s.params s.port).1) l := by
  induction left generalizing s pos with
  | done r =>
    have hturn := (dispatcherAccessTurn_servicing hrunning hc).trans (serviceAccess_done hleft.rest_eq)
    exact ⟨[], servicedByAccesses_commit (by rw [hc]; rfl) hturn⟩
  | read i next ih =>
    have hturn := (dispatcherAccessTurn_servicing hrunning hc).trans (serviceAccess_read hleft.rest_eq)
    obtain ⟨l, hl⟩ := ih (s.port.regRead s.params i).1
      (s := (s.withPort (s.port.regRead s.params i).2).atPosition _) hrunning rfl (hleft.read _)
    exact ⟨_, .access (by rw [hc]; rfl) hturn (Port.regRead_history ..) hl⟩
  | write i v next ih =>
    have hturn := (dispatcherAccessTurn_servicing hrunning hc).trans (serviceAccess_write hleft.rest_eq)
    obtain ⟨l, hl⟩ := ih
      (s := (s.withPort (s.port.regWrite s.params i v)).atPosition _) hrunning rfl hleft.write
    exact ⟨_, .access (by rw [hc]; rfl) hturn (Port.regWrite_history ..) hl⟩

/-- Settles O37: at the start of servicing the whole command is left. -/
theorem accessByAccessIsOneStep : Obligations.AccessByAccessIsOneStep := by
  intro s hrunning hc
  obtain ⟨l, haccessed, hturns, hwhile⟩ := servicedByAccesses_left hrunning hc (Accesses.leftAt_start _)
  exact ⟨_, l, (serviceWhole_eq s).trans (State.service_next s _), haccessed, hturns, hwhile⟩

end Sys2Proof.Machine
end

section
/-! SET_LEVEL in the loopback model (20_memory.md R58, 42_commands.md R153): its one write drives the latch of the pin's
bank, which a GET_LEVEL then reads. -/

namespace Sys2Proof.Machine

/-- The latch of one bank changed by g, the other kept. -/
def Port.driveLatch (bank : Bank) (g : Word → Word) (q : Port) : Port :=
  match bank with
  | .bank0 => { q with out0 := g q.out0 }
  | .bank1 => { q with out1 := g q.out1 }

/-- What SET_LEVEL does to the latch word of its pin (92 D4: any nonzero V sets). -/
def levelDrive (pin value : Byte) (x : Word) : Word := if value = 0 then x &&& ~~~ maskOf pin else x ||| maskOf pin

theorem driveLatch_out0 (pin : Byte) (g : Word → Word) (q : Port) :
    (q.driveLatch (pinBank pin) g).out0 = if pin.toNat < 32 then g q.out0 else q.out0 := by
  unfold pinBank
  split <;> rfl

theorem driveLatch_out1 (pin : Byte) (g : Word → Word) (q : Port) :
    (q.driveLatch (pinBank pin) g).out1 = if pin.toNat < 32 then q.out1 else g q.out1 := by
  unfold pinBank
  split <;> rfl

theorem setOut_bankWord {ps : Params} (hw : ps.wellFormed = true) (q : Port) (f : BankFamily) (k : Bank)
    (g : Word → Word) : q.setOut ps.words f (ps.words.bankWord f k) g = q.driveLatch k g := by
  cases k with
  | bank0 => exact if_pos rfl
  | bank1 => exact if_neg (bank1_ne_bank0 hw f)

theorem deliver_set_loopback {ps : Params} (hw : ps.wellFormed = true) (hperiph : ps.periph = .loopback) (k : Bank)
    (v : Word) (q : Port) : q.deliver ps (ps.words.bankWord .set k) v = q.driveLatch k (· ||| v) := by
  simp [Port.deliver, hperiph, isOf_bankWord hw, setOut_bankWord hw]

theorem deliver_clr_loopback {ps : Params} (hw : ps.wellFormed = true) (hperiph : ps.periph = .loopback) (k : Bank)
    (v : Word) (q : Port) : q.deliver ps (ps.words.bankWord .clr k) v = q.driveLatch k (· &&& ~~~ v) := by
  simp [Port.deliver, hperiph, isOf_bankWord hw, setOut_bankWord hw]

theorem run_setBit (ps : Params) {pin : Byte} (q : Port) (hp : pin.toNat ≤ 53) :
    (setBit ps.words pin).run ps q = ((), q.regWrite ps (ps.words.bankWord .set (pinBank pin)) (bitmask pin)) := by
  simp [setBit, locate_bank ps.words .set hp, writeWord, bitmask]

theorem run_clearBit (ps : Params) {pin : Byte} (q : Port) (hp : pin.toNat ≤ 53) :
    (clearBit ps.words pin).run ps q = ((), q.regWrite ps (ps.words.bankWord .clr (pinBank pin)) (bitmask pin)) := by
  simp [clearBit, locate_bank ps.words .clr hp, writeWord, bitmask]

/-- SET_LEVEL leaves the driven latch and the event of its one write. -/
theorem run_setLevel_loopback {ps : Params} (hw : ps.wellFormed = true) (hperiph : ps.periph = .loopback)
    {pin : Byte} (hp : pin.toNat ≤ 53) (value : Byte) (q : Port) :
    ∃ e, (commandSetLevel ps.words pin value).run ps q =
      (none, (q.driveLatch (pinBank pin) (levelDrive pin value)).record e) := by
  unfold commandSetLevel byteBool
  rw [run_void]
  by_cases hv : value = 0
  · have hdrive : levelDrive pin value = (· &&& ~~~ bitmask pin) := by
      funext x
      rw [levelDrive, if_pos hv, maskOf_eq]
    rw [if_neg (by simp [hv]), run_clearBit ps q hp, Port.regWrite, deliver_clr_loopback hw hperiph, hdrive]
    exact ⟨_, rfl⟩
  · have hdrive : levelDrive pin value = (· ||| bitmask pin) := by
      funext x
      rw [levelDrive, if_neg hv, maskOf_eq]
    rw [if_pos (by simpa using hv), run_setBit ps q hp, Port.regWrite, deliver_set_loopback hw hperiph, hdrive]
    exact ⟨_, rfl⟩

/-- The pin's bit of its latch word is then whether V was nonzero. -/
theorem levelDrive_pinBit (pin value : Byte) (x : Word) :
    (levelDrive pin value x).getLsbD (pinBit pin) = byteBool value := by
  have h := assignBit_byteBool x pin value
  rw [levelDrive, ← h, assignBit_getLsbD x _ _ _ (pinBit_lt pin), if_pos rfl]

theorem exec_setLevel_loopback {s : State} (hw : s.params.wellFormed = true) (hperiph : s.params.periph = .loopback)
    {pin : Byte} (hp : pin.toNat ≤ 53) (value : Byte) :
    ∃ e, exec (.setLevel pin value) s =
      .next ((s.withPort ((s.port.driveLatch (pinBank pin) (levelDrive pin value)).record e)).commit none) := by
  obtain ⟨e, hrun⟩ := run_setLevel_loopback hw hperiph hp value s.port
  refine ⟨e, ?_⟩
  rw [exec_eq_service, State.service_next, commandOf, hrun]

/-- GET_LEVEL answers the pin's bit of the latch of its bank. -/
theorem exec_getLevel_loopback {s : State} (hw : s.params.wellFormed = true) (hperiph : s.params.periph = .loopback)
    {pin : Byte} (hp : pin.toNat ≤ 53) (v : Byte) :
    ∃ t, exec (.getLevel pin v) s = .next t ∧
      t.buf.b2 = flagByte ((if pin.toNat < 32 then s.port.out0 else s.port.out1).getLsbD (pinBit pin)) := by
  refine ⟨_, (exec_eq_service _ s).trans (State.service_next s _), ?_⟩
  rw [State.commit_buf, commandOf, commandGetLevel, run_boolResult, run_readBit s.params .lev _ hp, answer_lev hw,
    Packet.respond_some_b2, trunc8_boolWord, wordBit_eq, volatileRead, hperiph]

/-- Settles O18: the latch driven is the one of the pin's bank. -/
theorem loopbackSetLevelDrivesTheLatch : Obligations.LoopbackSetLevelDrivesTheLatch := by
  intro s pin value hw hperiph hp
  obtain ⟨e, hset⟩ := exec_setLevel_loopback hw hperiph hp value
  exact ⟨_, hset, driveLatch_out0 pin _ s.port, driveLatch_out1 pin _ s.port⟩

/-- Settles O31: GET_LEVEL reads the latch that SET_LEVEL has just driven. -/
theorem loopbackLevelRoundTrip : Obligations.LoopbackLevelRoundTrip := by
  intro s pin value v hw hperiph hp
  obtain ⟨e, hset⟩ := exec_setLevel_loopback hw hperiph hp value
  obtain ⟨u, hget, hb2⟩ := exec_getLevel_loopback
    (s := (s.withPort ((s.port.driveLatch (pinBank pin) (levelDrive pin value)).record e)).commit none) hw hperiph hp v
  refine ⟨_, u, hset, hget, ?_⟩
  rw [hb2, State.commit_port, State.withPort_port, Port.record_out0, Port.record_out1, driveLatch_out0, driveLatch_out1]
  split <;> rw [levelDrive_pinBit, byteBool]

end Sys2Proof.Machine
end

section
/-! One transaction from end to end (43_framer.md R191, R192, R195, 20_memory.md R64, R65): the call loads its packet,
the Dispatcher services the request that the packet decodes to, and the poll that follows the commit returns. -/

namespace Sys2Proof

theorem codes_wellFormed {ps : Params} (h : ps.wellFormed = true) : ps.codes.wellFormed = true := by
  simp only [Params.wellFormed, Bool.and_eq_true] at h
  exact h.2

/-- An instruction's own code, with its operands, decodes to it (30_encoding.md R85). -/
theorem decodeRequest_own {m : CodeMap} (hm : m.wellFormed = true) (i : Instr) :
    decodeRequest m (m.code i) i.pin i.value = .instr i := by
  simp only [CodeMap.wellFormed, Bool.and_eq_true] at hm
  have hcodes : ((codeRows m).map CodeRow.code).Nodup := nodup_of_distinct hm.1
  obtain ⟨r, hr, hcode, hcommand⟩ := codeRows_instr m i
  rw [decodeRequest, ← hcode, findRow_own hcodes hr]
  exact congrArg Request.instr hcommand

end Sys2Proof

namespace Sys2Proof.Machine

theorem core_step (s : State) : core.step s = step s := by simp only [core]

theorem run_of_step {s t : State} (h : step s = .next t) (n : Nat) :
    Host.Core.run core (n + 1) s = Host.Core.run core n t := by
  simp only [Host.Core.run, core_step, h]

/-- A client whose call of op has just sent its packet. -/
def Client.calling (cl : Client) (op : PublicOp) (p : Packet) : Client :=
  { cl with phase := .awaiting op, cbuf := p, stopped := false, ret := none }

/-- A client whose call of op has just returned what the response in buffer p says. -/
def Client.returned (cl : Client) (op : PublicOp) (p : Packet) : Client :=
  { cl with phase := .noTxn, cbuf := p, ret := some (op.decodeResponse p.b2) }

theorem afterRead_sentinel {cl : Client} {op : PublicOp} (h : cl.cbuf.b0 = 0xFF) :
    cl.afterRead op = cl.returned op cl.cbuf := if_pos (responseReady_iff.mpr h)

/-- The state in which client c's packet for op has just been loaded, with the turns to come. -/
def State.called (s : State) (c : Nat) (cl : Client) (op : PublicOp) (rest : List Turn) : State :=
  ((s.withTurns rest).setClient c (cl.calling op (op.packet s.params.codes))).load c (op.packet s.params.codes)

/-- The state in which that request has been serviced: the command's run, and its commit. -/
def State.serviced (s : State) (i : Instr) : State :=
  (s.withPort ((commandOf s.params.words i).run s.params s.port).2).commit
    ((commandOf s.params.words i).run s.params s.port).1

theorem exec_eq_serviced (i : Instr) (s : State) : exec i s = .next (s.serviced i) := exec_eq_service i s

theorem called_client {s : State} {c : Nat} {cl : Client} (hc : s.clients[c]? = some cl) (op : PublicOp)
    (rest : List Turn) :
    (s.called c cl op rest).clients[c]? = some (cl.calling op (op.packet s.params.codes)) :=
  List.getElem?_set_self (List.getElem?_eq_some_iff.mp hc).1

/-- A call that meets no fault: the client awaits and its packet is loaded. -/
theorem step_call_loads {s : State} {c : Nat} {cl : Client} {op : PublicOp} {rest : List Turn}
    (hw : s.params.wellFormed = true) (hc : s.clients[c]? = some cl) (hphase : cl.phase = .noTxn)
    (hopen : cl.chanOpen = true) (hrange : op.request.wellFormed = true) (hfault : s.requestFault c = none)
    (hturns : s.turns = .call c op :: rest) : step s = .next (s.called c cl op rest) := by
  have hstep : step s = .next ((s.withTurns rest).callOp c cl op) :=
    (step_listed_client hw hc hturns).trans (withFreeClient_of_noTxn hc hphase _)
  rw [← inRange_eq] at hrange
  rcases callOp_cases (s.withTurns rest) c cl op with ⟨hout, -⟩ | ⟨-, hclosed, -⟩ | ⟨-, -, e⟩
  · rw [hrange] at hout; cases hout
  · rw [hopen] at hclosed; cases hclosed
  · have hload (cl' : Client) (p : Packet) : ((s.withTurns rest).setClient c cl').requestWrite c p =
        ((s.withTurns rest).setClient c cl').load c p := requestWrite_loads p hfault
    rw [hstep, e, requestFault_withTurns, hfault, hload]
    rfl

/-- The packet of an operation, at the start of servicing, is serviced as the operation's own instruction. -/
theorem step_dispatcher_services {s : State} {c : Nat} {cl : Client} {op : PublicOp} {rest : List Turn}
    (hw : s.params.wellFormed = true) (hc : s.clients[c]? = some cl) (hrunning : s.shutdown = false)
    (hstart : s.control = .servicing Position.start) (hbuf : s.buf = op.packet s.params.codes)
    (hturns : s.turns = .dispatcher :: rest) : step s = .next ((s.withTurns rest).serviced op.request) := by
  have hstep : step s = dispatcherTurn (s.withTurns rest) := step_listed_client hw hc hturns
  have hrequest : (s.withTurns rest).request = .instr op.request := by
    have hown := decodeRequest_own (codes_wellFormed hw) op.request
    rw [State.request, State.withTurns, hbuf]
    exact hown
  rw [hstep, dispatcherTurn_start (s := s.withTurns rest) hrunning hstart, serviceWhole, hrequest]
  exact exec_eq_serviced op.request (s.withTurns rest)

/-- The poll that finds its own request answered: the call returns and the transaction ends. -/
theorem step_poll_returns {s : State} {c : Nat} {cl : Client} {op : PublicOp} {rest : List Turn}
    (hw : s.params.wellFormed = true) (hc : s.clients[c]? = some cl) (hphase : cl.phase = .awaiting op)
    (hgoing : cl.stopped = false) (hidle : s.control = .idle) (howner : s.owner = some c) (hready : s.buf.b0 = 0xFF)
    (hturns : s.turns = .poll c :: rest) :
    step s = .next { s with
      clients := s.clients.set c (cl.returned op s.buf), owner := none, turns := rest } := by
  have hstep : step s = .next ((s.withTurns rest).pollClient c cl) :=
    (step_listed_client hw hc hturns).trans (withClient_of_client hc _)
  rcases pollClient_cases (s := s.withTurns rest) hc with ⟨hno, -⟩ | ⟨op', hphase', -, e⟩
  · simp [Client.busy, hphase, hgoing] at hno
  · obtain rfl : op = op' := by simpa [hphase] using hphase'
    rw [hstep, e, ownerAfterRead_withTurns, ownerAfterRead_ends ⟨hidle, howner⟩, afterRead_sentinel hready]
    rfl

/-- Settles O56: the three turns one after the other. -/
theorem transactionReturnsItsOwnResponse : Obligations.TransactionReturnsItsOwnResponse := by
  intro s c cl op hinv hidle howner hrunning hc hphase hopen hrange hturns
  have hw : s.params.wellFormed = true := (conditionsHold_iff.mp (inv_iff.mp hinv).1).1
  have hfault : s.requestFault c = none := (requestFault_none s c).mpr ⟨hrunning, by simp [howner]⟩
  have hcall := step_call_loads hw hc hphase hopen hrange hfault hturns
  have hserve := step_dispatcher_services (s := s.called c cl op [.dispatcher, .poll c]) (op := op) hw
    (called_client hc op _) hrunning rfl rfl rfl
  have hpoll := step_poll_returns (s := (s.called c cl op [.poll c]).serviced op.request) hw
    (called_client hc op _) rfl rfl rfl rfl rfl rfl
  have hrun := (run_of_step hcall 2).trans ((run_of_step hserve 1).trans (run_of_step hpoll 0))
  have hlen : c < (s.called c cl op [.poll c]).clients.length :=
    (List.getElem?_eq_some_iff.mp (called_client hc op _)).1
  exact ⟨s.called c cl op [.poll c], _, _, _, rfl, rfl, rfl, rfl, exec_eq_serviced _ _, hrun, rfl, rfl, rfl, rfl,
    List.getElem?_set_self hlen, rfl, rfl, rfl⟩

end Sys2Proof.Machine
end

section
/-! The two directions of the encoding (30_encoding.md R80, R81, R85): what the code selects, which bytes an instruction
came from, and which codes no command has. -/

namespace Sys2Proof

/-- The code selects the row, and the operand bytes are passed on as they are. -/
theorem decodeRequest_row {m : CodeMap} (hm : m.wellFormed = true) {r : CodeRow} (hr : r ∈ codeRows m) (p v : Byte) :
    decodeRequest m r.code p v = .instr (r.command p v) := by
  simp only [CodeMap.wellFormed, Bool.and_eq_true] at hm
  have hcodes : ((codeRows m).map CodeRow.code).Nodup := nodup_of_distinct hm.1
  rw [decodeRequest, findRow_own hcodes hr]

/-- An instruction is decoded from its own code and operand bytes alone. -/
theorem bytes_of_decodeRequest {m : CodeMap} {c p v : Byte} {i : Instr} (h : decodeRequest m c p v = .instr i) :
    m.code i = c ∧ i.pin = p ∧ i.value = v := by
  unfold decodeRequest at h
  split at h
  · next r hfind =>
    cases h
    obtain ⟨hr, hcode⟩ := findRow_some hfind
    rw [← hcode]
    exact codeRows_encode hr p v
  · cases h

/-- The codes of a map are the codes of the commands. -/
theorem mem_all_iff (m : CodeMap) (c : Byte) : c ∈ m.all ↔ ∃ i : Instr, m.code i = c := by
  rw [← codeRows_codes, List.mem_map]
  constructor
  · rintro ⟨r, hr, rfl⟩
    exact ⟨r.command 0 0, (codeRows_encode hr 0 0).1⟩
  · rintro ⟨i, rfl⟩
    obtain ⟨r, hr, hcode, -⟩ := codeRows_instr m i
    exact ⟨r, hr, hcode⟩

/-- R86: UNRECOGNIZED is what is left. -/
theorem decodeRequest_unrecognized_iff (m : CodeMap) (c p v : Byte) :
    decodeRequest m c p v = .unrecognized c p v ↔ c ∉ m.all := by
  have hnone : findRow c (codeRows m) = none ↔ c ∉ m.all := by
    rw [findRow_none, ← codeRows_codes, List.mem_map, not_exists]
    exact forall_congr' fun r => not_and.symm
  rw [← hnone, decodeRequest]
  cases findRow c (codeRows m) <;> simp

/-- Only a packet of three bytes is a request (R80). -/
theorem decode_request_iff {m : CodeMap} {bytes : List Byte} {r : Request} :
    decode m bytes = .request r ↔ ∃ c p v, bytes = [c, p, v] ∧ decodeRequest m c p v = r := by
  constructor
  · intro h
    unfold decode at h
    split at h
    · exact ⟨_, _, _, rfl, Decoded.request.inj h⟩
    · cases h
  · rintro ⟨c, p, v, rfl, rfl⟩
    rfl

theorem decode_encode {m : CodeMap} (hm : m.wellFormed = true) (i : Instr) :
    decode m (encode m i) = .request (.instr i) :=
  decode_request_iff.mpr ⟨_, _, _, rfl, decodeRequest_own hm i⟩

theorem encode_of_decode {m : CodeMap} {bytes : List Byte} {i : Instr} (h : decode m bytes = .request (.instr i)) :
    encode m i = bytes := by
  obtain ⟨c, p, v, rfl, hrequest⟩ := decode_request_iff.mp h
  obtain ⟨hcode, hpin, hvalue⟩ := bytes_of_decodeRequest hrequest
  rw [encode, hcode, hpin, hvalue]

/-- R83: the default codes are the numbers below 19, in order. -/
theorem defaultCodes_all : defaultCodes.all = (List.range 19).map (BitVec.ofNat 8) := rfl

theorem mem_defaultCodes_all_iff (c : Byte) : c ∈ defaultCodes.all ↔ c.toNat < 19 := by
  rw [defaultCodes_all, List.mem_map]
  constructor
  · rintro ⟨n, hn, rfl⟩
    exact (Nat.mod_le n _).trans_lt (List.mem_range.mp hn)
  · exact fun hc => ⟨c.toNat, List.mem_range.mpr hc, by simp⟩

/-- A packed word whose bytes are an instruction's packet is that instruction's row of the opcode table (R89). -/
theorem decodeTableWord_of_unpack {w : Nat} {i : Instr} (hw : w < 2 ^ 24) (h : unpack w = encode defaultCodes i) :
    decodeTableWord 24 w = some i := by
  have hdecode : decode defaultCodes (unpack w) = .request (.instr i) := h ▸ decode_encode (by decide) i
  rw [decodeTableWord, Nat.mod_eq_of_lt hw]
  simp only [if_pos hw, hdecode]

/-- Settles O2: each command's row is the only one with its code. -/
theorem decodeEncodeRoundTrip : Obligations.DecodeEncodeRoundTrip := fun _ hm i => decode_encode hm i

/-- Settles O1: the row of a code is chosen before the operands are looked at. -/
theorem decodeFollowsTheCodeMap : Obligations.DecodeFollowsTheCodeMap := by
  intro m hm
  refine ⟨decodeRequest_own hm, fun c p v hno => ?_, fun i p v => ?_⟩
  · rw [decodeRequest_unrecognized_iff, mem_all_iff]
    exact not_exists.mpr hno
  · obtain ⟨r, hr, hcode, -⟩ := codeRows_instr m i
    rw [← hcode]
    exact ⟨r.command p v, decodeRequest_row hm hr p v, codeRows_encode hr p v⟩

/-- Settles O3: a decoded instruction holds all three bytes it was decoded from. -/
theorem encodeDecodeRoundTrip : Obligations.EncodeDecodeRoundTrip := fun _ _ _ h => encode_of_decode h

/-- Settles O4: the default codes are those below 19. -/
theorem unrecognizedUnderTheDefaultMap : Obligations.UnrecognizedUnderTheDefaultMap := by
  intro c p v
  rw [decodeRequest_unrecognized_iff, mem_defaultCodes_all_iff, Nat.not_lt]

/-- Settles O5: seven words unpack to the packets of their rows, and the last one's code is no command's. -/
theorem opcodeTableWordsDecode : Obligations.OpcodeTableWordsDecode :=
  ⟨decodeTableWord_of_unpack (by decide) rfl, decodeTableWord_of_unpack (by decide) rfl,
    decodeTableWord_of_unpack (by decide) rfl, decodeTableWord_of_unpack (by decide) rfl,
    decodeTableWord_of_unpack (by decide) rfl, decodeTableWord_of_unpack (by decide) rfl,
    decodeTableWord_of_unpack (by decide) rfl, by decide⟩

end Sys2Proof
end

section
/-! The assembly lines (30_encoding.md R90): a line assembles to the packet of its mnemonic's instruction, which decodes
back to that instruction. -/

namespace Sys2Proof.Machine

@[simp] theorem PinMnemonic.instr_pin (pin : Byte) (mn : PinMnemonic) : (mn.instr pin).pin = pin := by
  cases mn <;> rfl

@[simp] theorem PinMnemonic.instr_value (pin : Byte) (mn : PinMnemonic) : (mn.instr pin).value = 0 := by
  cases mn <;> rfl

@[simp] theorem ValueMnemonic.instr_pin (pin v : Byte) (mn : ValueMnemonic) : (mn.instr pin v).pin = pin := by
  cases mn <;> rfl

@[simp] theorem ValueMnemonic.instr_value (pin v : Byte) (mn : ValueMnemonic) : (mn.instr pin v).value = v := by
  cases mn <;> rfl

@[simp] theorem ValueMnemonic.operand_number (mn : ValueMnemonic) (v : Byte) : mn.operand (.number v) = some v := by
  cases mn <;> rfl

theorem assemble_pinForm (m : CodeMap) (mn : PinMnemonic) (pin : Byte) :
    assemble m (.pinForm mn pin) = some [m.code (mn.instr pin), pin, 0] := by
  simp [assemble, encode]

theorem assemble_valueForm_iff {m : CodeMap} {mn : ValueMnemonic} {pin : Byte} {x : AsmValue} {bytes : List Byte} :
    assemble m (.valueForm mn pin x) = some bytes ↔
      ∃ v, mn.operand x = some v ∧ encode m (mn.instr pin v) = bytes :=
  Option.map_eq_some_iff

theorem assemble_valueForm (m : CodeMap) (mn : ValueMnemonic) (pin : Byte) (x : AsmValue) :
    assemble m (.valueForm mn pin x) = (mn.operand x).map fun v => [m.code (mn.instr pin v), pin, v] := by
  simp [assemble, encode]

/-- Settles O7: each listed row is a case of the lemma on its line form, and each packet is an encoded instruction. -/
theorem assembledLinesDecode : Obligations.AssembledLinesDecode := by
  intro m pin
  refine ⟨?pinLines, ?numbers, ?modes, ?pulls, ?bools, fun _ _ _ => rfl, fun hm => ⟨?pinDecodes, ?valueDecodes⟩⟩
  case pinLines => simp [assemble_pinForm, PinMnemonic.instr, CodeMap.code]
  case numbers => simp [assemble_valueForm, ValueMnemonic.instr, CodeMap.code]
  case modes =>
    simp [assemble_valueForm, ValueMnemonic.operand, ValueMnemonic.instr, CodeMap.code, PinMode.code]
  case pulls =>
    simp [assemble_valueForm, ValueMnemonic.operand, ValueMnemonic.instr, CodeMap.code, PullMode.code]
  case bools =>
    simp [assemble_valueForm, ValueMnemonic.operand, ValueMnemonic.instr, CodeMap.code, boolByte]
  case pinDecodes => exact fun mn => ⟨_, rfl, decode_encode hm _, mn.instr_pin pin, mn.instr_value pin⟩
  case valueDecodes =>
    intro mn x bytes hassembled
    obtain ⟨v, hoperand, rfl⟩ := assemble_valueForm_iff.mp hassembled
    exact ⟨v, hoperand, decode_encode hm _, mn.instr_pin pin v, mn.instr_value pin v⟩

end Sys2Proof.Machine
end

section
/-! Where `locate` puts the pins (40_mapper.md R101, R103 to R105): the place of a valid pin determines the pin, and an
invalid pin has none. -/

namespace Sys2Proof.Machine

theorem pinBucket_le {pin : Byte} (h : pin.toNat ≤ 53) : pinBucket pin ≤ 5 := by unfold pinBucket; omega

theorem fselWords_getElem? (m : WordMap) {k : Nat} (h : k ≤ 5) : (fselWords m)[k]? = some (m.fselWord k) := by
  interval_cases k <;> rfl

/-- A pin is its bucket and its place in the bucket. -/
theorem toNat_of_pinBucket (pin : Byte) : pin.toNat = 10 * pinBucket pin + pinFieldOffset pin / 3 := by
  unfold pinBucket pinFieldOffset
  omega

/-- A valid pin is its bank and its bit. -/
theorem toNat_of_pinBank {pin : Byte} (h : pin.toNat ≤ 53) : pin.toNat = 32 * bankPlace (pinBank pin) + pinBit pin := by
  rw [pinBit_eq]
  unfold pinBank
  split <;> simp only [bankPlace] <;> omega

theorem pin_eq_of_field {p q : Byte} (hbucket : pinBucket p = pinBucket q)
    (hoffset : pinFieldOffset p = pinFieldOffset q) : p = q := by
  apply BitVec.eq_of_toNat_eq
  rw [toNat_of_pinBucket p, toNat_of_pinBucket q, hbucket, hoffset]

theorem pin_eq_of_bit {p q : Byte} (hp : p.toNat ≤ 53) (hq : q.toNat ≤ 53) (hbank : pinBank p = pinBank q)
    (hbit : pinBit p = pinBit q) : p = q := by
  apply BitVec.eq_of_toNat_eq
  rw [toNat_of_pinBank hp, toNat_of_pinBank hq, hbank, hbit]

theorem fselWord_inj {ps : Params} (h : ps.wellFormed = true) {k l : Nat} (hk : k ≤ 5) (hl : l ≤ 5)
    (e : ps.words.fselWord k = ps.words.fselWord l) : k = l :=
  Nat.add_left_cancel (place_unique h (fselWord_place ps.words hk) (e ▸ fselWord_place ps.words hl))

/-- Under the condition of 20_memory.md R53, the place of a valid pin in any one family determines the pin. -/
theorem locate_inj {ps : Params} (hw : ps.wellFormed = true) {p q : Byte} {f : PinFamily} (hp : p.toNat ≤ 53)
    (hq : q.toNat ≤ 53) (h : locate ps.words p f = locate ps.words q f) : p = q := by
  cases f with
  | bank f =>
    rw [locate_bank _ f hp, locate_bank _ f hq, Option.some_inj, Prod.mk.injEq] at h
    obtain ⟨hword, hbit⟩ := h
    obtain ⟨-, hbank⟩ := bankWord_inj hw hword
    exact pin_eq_of_bit hp hq hbank hbit
  | fsel =>
    rw [locate_fsel _ hp, locate_fsel _ hq, Option.some_inj, Prod.mk.injEq] at h
    obtain ⟨hword, hoffset⟩ := h
    exact pin_eq_of_field (fselWord_inj hw (pinBucket_le hp) (pinBucket_le hq) hword) hoffset

/-- The default parameters with another word map. -/
def paramsWithWords (m : WordMap) (nwords : Nat) : Params := { defaultParams with words := m, nwords := nwords }

/-- The word map's own condition is all that is asked of them. -/
theorem paramsWithWords_wellFormed {m : WordMap} {nwords : Nat} (h : m.wellFormed nwords = true) :
    (paramsWithWords m nwords).wellFormed = true :=
  Bool.and_eq_true_iff.mpr ⟨h, show defaultCodes.wellFormed = true by decide⟩

/-- Settles O11: a valid pin can be computed from its (bucket, offset) and from its (bank, bit), and under the condition
on the word map the word gives the bucket or the bank. -/
theorem distinctPinsShareNoPlace : Obligations.DistinctPinsShareNoPlace := by
  refine ⟨fun pin h => ⟨pinBucket_le h, ?_⟩, fun p q hp hq hne => ⟨?_, ?_⟩, fun m nwords p q f hm hp hq hne h => ?_⟩
  · unfold pinBucket
    omega
  · rw [Ne, Prod.mk.injEq]
    exact fun ⟨hbucket, hoffset⟩ => hne (pin_eq_of_field hbucket hoffset)
  · rw [Ne, Prod.mk.injEq]
    exact fun ⟨hbank, hbit⟩ => hne (pin_eq_of_bit hp hq hbank hbit)
  · exact hne (locate_inj (paramsWithWords_wellFormed hm) hp hq h)

/-- Settles O8: `locate` takes the word of the pin's bank and the bit `pin mod 32`. -/
theorem singleBitMapping : Obligations.SingleBitMapping := by
  intro m f pin hvalid
  have hword : m.bankWord f (pinBank pin) = if pin.toNat < 32 then m.bankWord f .bank0 else m.bankWord f .bank1 :=
    (wordOf_eq m f pin).symm
  have hbit : (pin &&& 31).toNat = pin.toNat % 32 := pinBit_eq pin
  refine ⟨?_, hbit, fun hbank1 => ?_⟩
  · rw [locate_bank m f hvalid, hword, pinBit]
  · rw [hbit]
    omega

/-- Settles O9: `locate` takes the word of the pin's bucket, the one listed at `pin / 10`. -/
theorem functionSelectMapping : Obligations.FunctionSelectMapping := by
  intro m pin hvalid
  exact ⟨m.fselWord (pinBucket pin), fselWords_getElem? m (pinBucket_le hvalid), locate_fsel m hvalid,
    pinFieldOffset_le pin, rfl⟩

/-- Settles O10: every primitive asks `locate` for its place and makes no access without one, whether or not its value
is in range. -/
theorem invalidPinMakesNoAccess : Obligations.InvalidPinMakesNoAccess := by
  intro m pin h
  have hnone : ∀ f, locate m pin f = none := fun f => locate_invalid m f h
  refine ⟨hnone, ?setBit, ?clearBit, fun f => ?readBit, ?readField, fun v => ?updateField, fun f en => ?writeBit,
    fun v => ?setPull, ?eventDetected⟩
  case setBit => simp [setBit, hnone]
  case clearBit => simp [clearBit, hnone]
  case readBit => simp [readBit, hnone]
  case readField => simp [readField, hnone]
  case updateField => simp [updateField, hnone]
  case writeBit => simp [writeBit, hnone]
  case setPull => simp [setPull, hnone]
  case eventDetected => simp [eventDetected, hnone]

end Sys2Proof.Machine
end

section
/-! A 3-bit field as a base-8 digit (40_mapper.md R103, R107): a word is what lies above the field, the field, and what
lies below it; a field update replaces the middle part alone. -/

namespace Sys2Proof.Machine

theorem two_pow_pinFieldOffset (pin : Byte) : 2 ^ pinFieldOffset pin = 8 ^ (pin.toNat % 10) := Nat.pow_mul 2 3 _

theorem wordField_toNat (x : Word) (off : Nat) : (wordField x off).toNat = x.toNat / 2 ^ off % 8 := by
  rw [wordField, BitVec.toNat_and, BitVec.toNat_ushiftRight, Nat.shiftRight_eq_div_pow]
  exact Nat.and_two_pow_sub_one_eq_mod _ 3

/-- A field update keeps every bit outside the field. -/
theorem updateWord_testBit_outside (x : Word) {off : Nat} {value : Byte} (hv : value.toNat ≤ 7) {j : Nat}
    (hj : ¬ (off ≤ j ∧ j < off + 3)) : (updateWord x off value).toNat.testBit j = x.toNat.testBit j := by
  change (updateWord x off value).getLsbD j = x.getLsbD j
  by_cases hlt : j < 32
  · rw [updateWord_getLsbD x off hv j hlt, if_neg hj]
  · rw [BitVec.getLsbD_of_ge _ _ (by omega), BitVec.getLsbD_of_ge _ _ (by omega)]

theorem updateWord_mod (x : Word) (off : Nat) {value : Byte} (hv : value.toNat ≤ 7) :
    (updateWord x off value).toNat % 2 ^ off = x.toNat % 2 ^ off := by
  apply Nat.eq_of_testBit_eq
  intro j
  simp only [Nat.testBit_mod_two_pow]
  by_cases hj : j < off
  · rw [updateWord_testBit_outside x hv (by omega)]
  · simp [hj]

theorem updateWord_div (x : Word) (off : Nat) {value : Byte} (hv : value.toNat ≤ 7) :
    (updateWord x off value).toNat / 2 ^ (off + 3) = x.toNat / 2 ^ (off + 3) := by
  apply Nat.eq_of_testBit_eq
  intro j
  rw [Nat.testBit_div_two_pow, Nat.testBit_div_two_pow, updateWord_testBit_outside x hv (by omega)]

/-- The updated field reads as the value. -/
theorem wordField_updateWord (x : Word) {off : Nat} {value : Byte} (hoff : off ≤ 27) (hv : value.toNat ≤ 7) :
    wordField (updateWord x off value) off = zext32 value := by
  apply BitVec.eq_of_getLsbD_eq
  intro j hj
  rw [wordField_getLsbD]
  by_cases h3 : j < 3
  · rw [updateWord_getLsbD x off hv (off + j) (by omega), if_pos (by omega), Nat.add_sub_cancel_left]
    simp [h3]
  · simp [h3, zext32_high hv (show 3 ≤ j by omega)]

/-- A number is what lies above, in and below three of its bits. -/
theorem nat_eq_field_parts (n off : Nat) :
    n = n / 2 ^ (off + 3) * 2 ^ (off + 3) + n / 2 ^ off % 8 * 2 ^ off + n % 2 ^ off := by
  have hdiv : n / 2 ^ (off + 3) = n / 2 ^ off / 8 := by rw [Nat.pow_add, Nat.div_div_eq_div_mul]
  calc n = n / 2 ^ off * 2 ^ off + n % 2 ^ off := (Nat.div_add_mod' n _).symm
    _ = (n / 2 ^ off / 8 * 8 + n / 2 ^ off % 8) * 2 ^ off + n % 2 ^ off := by rw [Nat.div_add_mod' (n / 2 ^ off) 8]
    _ = n / 2 ^ (off + 3) * 2 ^ (off + 3) + n / 2 ^ off % 8 * 2 ^ off + n % 2 ^ off := by rw [hdiv]; ring

theorem updateWord_toNat (x : Word) {off : Nat} {value : Byte} (hoff : off ≤ 27) (hv : value.toNat ≤ 7) :
    (updateWord x off value).toNat =
      x.toNat / 2 ^ (off + 3) * 2 ^ (off + 3) + value.toNat * 2 ^ off + x.toNat % 2 ^ off := by
  have hfield : (updateWord x off value).toNat / 2 ^ off % 8 = value.toNat := by
    rw [← wordField_toNat, wordField_updateWord x hoff hv, zext32, BitVec.toNat_setWidth_of_le (by decide)]
  rw [nat_eq_field_parts (updateWord x off value).toNat off, updateWord_div x off hv, hfield, updateWord_mod x off hv]

/-- Settles O12: at offset `3 * j` the powers of two are those of eight. -/
theorem fieldArithmeticIsExact : Obligations.FieldArithmeticIsExact := by
  intro x pin value hv j
  have hpow : 2 ^ pinFieldOffset pin = 8 ^ j := two_pow_pinFieldOffset pin
  have hpow_succ : 2 ^ (pinFieldOffset pin + 3) = 8 ^ (j + 1) := by rw [Nat.pow_add, hpow]; rfl
  constructor
  · rw [wordField_toNat, hpow]
  · rw [updateWord_toNat x (pinFieldOffset_le pin) hv, hpow, hpow_succ]

end Sys2Proof.Machine
end

section
/-! Writes inside a word spare their neighbours (41_register_engine.md R126, R127): the fields of two pins are the same
three bits or have none in common, and an assigned bit is one bit. -/

namespace Sys2Proof.Machine

/-- Fields at different offsets lie apart. -/
theorem pinFieldOffset_apart {p q : Byte} (h : pinFieldOffset q ≠ pinFieldOffset p) :
    pinFieldOffset q + 3 ≤ pinFieldOffset p ∨ pinFieldOffset p + 3 ≤ pinFieldOffset q := by
  unfold pinFieldOffset at *
  omega

/-- A field that lies apart from the updated one reads as before. -/
theorem wordField_updateWord_apart (x : Word) {off off' : Nat} {value : Byte} (hv : value.toNat ≤ 7)
    (h : off' + 3 ≤ off ∨ off + 3 ≤ off') : wordField (updateWord x off value) off' = wordField x off' := by
  apply BitVec.eq_of_getLsbD_eq
  intro j _
  rw [wordField_getLsbD, wordField_getLsbD]
  by_cases h3 : j < 3
  · have hbit : (updateWord x off value).getLsbD (off' + j) = x.getLsbD (off' + j) :=
      updateWord_testBit_outside x hv (by omega)
    rw [hbit]
  · simp [h3]

/-- Settles O14: the field of q is the updated one or lies apart from it. -/
theorem fieldUpdateKeepsOtherPins : Obligations.FieldUpdateKeepsOtherPins := by
  intro p q value x _ _ hv
  split
  · next hsame => rw [hsame, wordField_updateWord x (pinFieldOffset_le p) hv]
  · next hother => exact wordField_updateWord_apart x hv (pinFieldOffset_apart hother)

/-- Settles O15: the bit the engine tests is a bit of the word, and the assignment writes bit b alone. -/
theorem bitAssignmentKeepsOtherBits : Obligations.BitAssignmentKeepsOtherBits := by
  intro x b j en _ hj
  rw [wordBit_eq, wordBit_eq, assignBit_getLsbD x b en j hj]

end Sys2Proof.Machine
end

section
/-! Requests that reach no register (41_register_engine.md R130, 60_exceptions.md R234, R235): on an invalid pin every
command is its result alone, and so is the rule of an unrecognized code. -/

namespace Sys2Proof.Machine

/-- On an invalid pin no command has an access left; a getter's result is 0 (92 D6). -/
theorem commandOf_invalid (m : WordMap) {i : Instr} (h : 53 < i.pin.toNat) :
    commandOf m i = .done (if i.isGetter then some 0 else none) := by
  obtain ⟨-, hset, hclear, hbit, hfield, hupdate, hwrite, hpull, hevent⟩ := invalidPinMakesNoAccess m i.pin h
  have hsetter (f : BankFamily) (en : Bool) : (writeBit m f i.pin en).void = .done none := by rw [hwrite]; rfl
  have hgetter (f : BankFamily) : (readBit m f i.pin).boolResult = .done (some 0) := by rw [hbit]; rfl
  cases i with
  | resetPin pin value =>
    simp only [Instr.pin] at hwrite hpull hupdate hevent
    simp [commandOf, commandResetPin, hwrite, hpull, hupdate, hevent, Instr.isGetter]
  | setLevel pin value =>
    simp only [Instr.pin] at hset hclear
    simp only [commandOf, commandSetLevel, hset, hclear, ite_self]
    rfl
  | setMode pin value => exact congrArg Accesses.void (hupdate value)
  | getMode => exact congrArg Accesses.wordResult hfield
  | setPull pin value => exact congrArg Accesses.void (hpull value)
  | getEvent => exact congrArg Accesses.boolResult hevent
  | setRedge | setFedge | setAredge | setAfedge | setHdetect | setLdetect => exact hsetter _ _
  | getLevel | getRedge | getFedge | getAredge | getAfedge | getHdetect | getLdetect => exact hgetter _

/-- Settles O27: what is serviced is a result without an access, and its commit answers. -/
theorem invalidPinIsAnsweredWithoutAccess : Obligations.InvalidPinIsAnsweredWithoutAccess := by
  intro s
  constructor
  · intro i h
    rw [exec_eq_service, State.service_next, commandOf_invalid _ h, Accesses.run_done]
    refine ⟨_, rfl, rfl, ?_⟩
    cases i.isGetter
    · exact answered_void s s.port
    · exact answered_result s s.port 0
  · intro c p v hcode
    have hrequest : s.request = .unrecognized c p v := hcode
    rw [serviceWhole_eq, hrequest]
    exact ⟨_, rfl, rfl, answered_void s s.port⟩

end Sys2Proof.Machine
end

section
/-! GET_EVENT in the loopback model (41_register_engine.md R129, 42_commands.md R158): the mock stores the word written
back to EDS, which is the word it held, so the event stays latched. -/

namespace Sys2Proof.Machine

/-- `event_detected` leaves the stored words and latches as they were, in both peripheral models. -/
theorem registerState_eventDetected {ps : Params} (hw : ps.wellFormed = true) {pin : Byte} (hp : pin.toNat ≤ 53)
    {q : Port} (hm : q.mem.wf = true) :
    registerState ((eventDetected ps.words pin).run ps q).2 = registerState q := by
  obtain ⟨hread, hout0, hout1⟩ := run_eventDetected_kept hw hp hm
  have hmem : ((eventDetected ps.words pin).run ps q).2.mem = q.mem := Memory.ext (Accesses.run_wf ps _ hm) hm hread
  rw [registerState, hmem, hout0, hout1, registerState]

/-- Its result is the pin's bit of what the peripheral answers for EDS. -/
theorem run_eventDetected_fst (ps : Params) {pin : Byte} (q : Port) (hp : pin.toNat ≤ 53) :
    ((eventDetected ps.words pin).run ps q).1 =
      (q.answer ps (ps.words.bankWord .eds (pinBank pin))).1.getLsbD (pinBit pin) := by
  rw [run_eventDetected ps q hp, ← wordBit_eq]
  simp only
  split
  · next hset => exact hset.symm
  · next hclear => simpa using hclear

/-- GET_EVENT answers the pin's bit of the stored EDS word and leaves the stored words and latches as they were. -/
theorem exec_getEvent_loopback {s : State} (hw : s.params.wellFormed = true) (hm : s.port.mem.wf = true)
    (hperiph : s.params.periph = .loopback) {pin : Byte} (hp : pin.toNat ≤ 53) (v : Byte) :
    ∃ t, exec (.getEvent pin v) s = .next t ∧ t.params = s.params ∧ registerState t.port = registerState s.port ∧
      t.buf.b2 = flagByte ((s.port.mem.read (wordOf s.params.words .eds pin)).getLsbD (bitOf pin)) := by
  rw [exec_eq_service, State.service_next, commandOf, commandGetEvent, run_boolResult]
  refine ⟨_, rfl, rfl, registerState_eventDetected hw hp hm, ?_⟩
  rw [State.commit_buf, Packet.respond_some_b2, trunc8_boolWord, run_eventDetected_fst s.params s.port hp,
    answer_eds hw, volatileRead, hperiph, wordOf_eq, bitOf_eq]

/-- Settles O33: the first GET_EVENT leaves the stored EDS word that the second one reads. -/
theorem loopbackEventIsNotAcknowledged : Obligations.LoopbackEventIsNotAcknowledged := by
  intro s pin v hw hm hperiph hp hlatched
  obtain ⟨t, hfirst, hparams, hkept, hanswer⟩ := exec_getEvent_loopback hw hm hperiph hp v
  have hmem : t.port.mem = s.port.mem := congrArg Prod.fst hkept
  obtain ⟨u, hsecond, -, -, hagain⟩ := exec_getEvent_loopback (s := t) (hparams ▸ hw) (hmem ▸ hm)
    (hparams ▸ hperiph) hp v
  rw [hlatched] at hanswer
  rw [hparams, hmem, hlatched] at hagain
  exact ⟨t, u, hfirst, hanswer, hkept, hsecond, hagain⟩

end Sys2Proof.Machine
end

section
/-! What a serviced command answers and leaves of the register side (42_commands.md R151): a setter keeps byte 2, a getter
puts its result there, and the accesses seen are those of one read or of one read-modify-write. -/

namespace Sys2Proof.Machine

@[simp] theorem serviced_port (i : Instr) (s : State) :
    (s.serviced i).port = ((commandOf s.params.words i).run s.params s.port).2 := rfl

@[simp] theorem serviced_params (i : Instr) (s : State) : (s.serviced i).params = s.params := rfl

/-- Only the getters have a result. -/
theorem run_setter_fst {i : Instr} (h : i.isGetter = false) (ps : Params) (q : Port) :
    ((commandOf ps.words i).run ps q).1 = none := by
  cases i with
  | resetPin => simp only [commandOf, commandResetPin, Accesses.run_bind, Accesses.run_done]
  | setLevel | setMode | setPull | setRedge | setFedge | setAredge | setAfedge | setHdetect | setLdetect =>
    exact congrArg Prod.fst (run_void ps _ q)
  | getLevel | getMode | getEvent | getRedge | getFedge | getAredge | getAfedge | getHdetect | getLdetect => cases h

theorem answered_setter {i : Instr} (h : i.isGetter = false) (s : State) : Answered s (s.serviced i) s.buf.b2 := by
  rw [State.serviced, run_setter_fst h]
  exact answered_void s _

theorem answered_getter {i : Instr} {s : State} {r : Word}
    (h : ((commandOf s.params.words i).run s.params s.port).1 = some r) :
    Answered s (s.serviced i) (trunc8 r) := by
  rw [State.serviced, h]
  exact answered_result s _ r

/-- On an invalid pin the register side stays and a getter answers 0. -/
theorem serviced_invalid {i : Instr} (s : State) (h : 53 < i.pin.toNat) :
    (s.serviced i).port = s.port ∧ Answered s (s.serviced i) (if i.isGetter then 0 else s.buf.b2) := by
  obtain ⟨t, ht, hkept, hanswered⟩ := (invalidPinIsAnsweredWithoutAccess s).1 i h
  rw [exec_eq_serviced] at ht
  cases ht
  exact ⟨hkept, hanswered⟩

theorem getter_invalid {i : Instr} (hget : i.isGetter = true) (s : State) (h : 53 < i.pin.toNat) :
    Answered s (s.serviced i) 0 ∧ (s.serviced i).port = s.port := by
  obtain ⟨hkept, hanswered⟩ := serviced_invalid s h
  rw [hget] at hanswered
  exact ⟨hanswered, hkept⟩

/-- One read: its event, with every stored word and latch kept. -/
theorem reads_word {s t : State} {w : Nat} (ht : t.port = (s.port.regRead s.params w).2) :
    Accessed s t [.rd w (s.port.answer s.params w).1] ∧ t.port.mem = s.port.mem ∧ LatchesKept s t := by
  simp [Accessed, LatchesKept, ht]

/-- One read of a storage word: the event shows the stored word, and no free value is drawn. -/
theorem reads_storage {s t : State} {w : Nat} (hw : Params.isStorage s.params w)
    (ht : t.port = (s.port.regRead s.params w).2) :
    Accessed s t [.rd w (s.port.mem.read w)] ∧ t.port.mem = s.port.mem ∧ LatchesKept s t ∧
      t.port.draws = s.port.draws := by
  rw [Port.regRead_storage _ hw] at ht
  simp [Accessed, LatchesKept, ht]

/-- One read-modify-write: its two events, the word stored, and everything else kept. -/
theorem modifies_word {s t : State} {w : Nat} {g : Word → Word} (hm : s.port.mem.wf = true)
    (ht : t.port = s.port.modify w g) :
    Accessed s t [.rd w (s.port.mem.read w), .wr w (g (s.port.mem.read w))] ∧
      StoredOnly s t w (g (s.port.mem.read w)) ∧ LatchesKept s t ∧ t.port.draws = s.port.draws := by
  have hread (a : Nat) : t.port.mem.read a = if a = w then g (s.port.mem.read w) else s.port.mem.read a := by
    rw [ht, Port.modify_mem, Memory.read_write _ _ _ hm]
  refine ⟨by rw [Accessed, ht, Port.modify_history], ⟨by rw [hread, if_pos rfl], fun a ha => ?_⟩,
    ⟨by rw [ht, Port.modify_out0], by rw [ht, Port.modify_out1]⟩, by rw [ht, Port.modify_draws]⟩
  rw [hread, if_neg (by simpa using ha)]

end Sys2Proof.Machine
end

section
/-! SET_LEVEL, GET_LEVEL and SET_PULL (42_commands.md R153, R154, R157): mask writes, and a read of LEV. -/

namespace Sys2Proof.Machine

/-- The one write of SET_LEVEL, to SET or to CLR. -/
theorem run_setLevel (ps : Params) {pin : Byte} (hp : pin.toNat ≤ 53) (value : Byte) (q : Port) :
    (commandSetLevel ps.words pin value).run ps q =
      (none, q.regWrite ps (wordOf ps.words (if value = 0 then .clr else .set) pin) (maskOf pin)) := by
  rw [commandSetLevel, byteBool, run_void, wordOf_eq, maskOf_eq]
  by_cases hv : value = 0
  · rw [if_neg (by simp [hv]), run_clearBit ps q hp, if_pos hv]
  · rw [if_pos (by simpa using hv), run_setBit ps q hp, if_neg hv]

theorem isCommand_wordOf (m : WordMap) {f : BankFamily} (hf : f = .set ∨ f = .clr) (pin : Byte) :
    m.isCommand (wordOf m f pin) = true := by
  rw [wordOf_eq]
  rcases hf with rfl | rfl <;> cases pinBank pin <;> simp [WordMap.isCommand, WordMap.isOf]

/-- A command word stores nothing, whichever the peripheral (20_memory.md R56(c), R58). -/
theorem deliver_command_mem {ps : Params} {i : Nat} (h : ps.words.isCommand i = true) (v : Word) (q : Port) :
    (q.deliver ps i v).mem = q.mem := by
  unfold Port.deliver
  cases ps.periph with
  | general => simp [h]
  | loopback =>
    rcases Bool.or_eq_true_iff.mp h with hset | hclr
    · simp [hset]
    · cases ps.words.isOf .set i <;> simp [hclr]

theorem deliver_command_general {ps : Params} {i : Nat} (h : ps.words.isCommand i = true)
    (hperiph : ps.periph = .general) (v : Word) (q : Port) : q.deliver ps i v = q := by
  simp [Port.deliver, hperiph, h]

/-- Settles O17: the one write is to a command word. -/
theorem setLevelWritesOneMask : Obligations.SetLevelWritesOneMask := by
  intro s pin value
  refine ⟨_, exec_eq_serviced _ s, answered_setter rfl s, fun hp => (serviced_invalid (i := .setLevel pin value) s hp).1,
    fun hp => ?_⟩
  have hport := congrArg Prod.snd (run_setLevel s.params hp value s.port)
  have hcommand : s.params.words.isCommand (wordOf s.params.words (if value = 0 then .clr else .set) pin) = true :=
    isCommand_wordOf _ (by split <;> simp) pin
  rw [Accessed, LatchesKept, serviced_port, commandOf, hport]
  refine ⟨Port.regWrite_history .., Port.regWrite_draws .., fun _ => deliver_command_mem hcommand _ _,
    fun _ hperiph => ?_⟩
  rw [Port.regWrite, deliver_command_general hcommand hperiph]
  exact ⟨rfl, rfl⟩

/-- Settles O19: the result is the pin's bit of what the peripheral answers for LEV. -/
theorem getLevelReadsThePinsBit : Obligations.GetLevelReadsThePinsBit := by
  intro s pin value hw
  refine ⟨_, exec_eq_serviced _ s, fun hp => getter_invalid rfl s hp, fun hp => ?_⟩
  have hrun := run_readBit s.params .lev s.port hp
  have hport : (s.serviced (.getLevel pin value)).port =
      (s.port.regRead s.params (s.params.words.bankWord .lev (pinBank pin))).2 := by
    rw [serviced_port, commandOf, commandGetLevel, run_boolResult, hrun]
  have hanswered : Answered s (s.serviced (.getLevel pin value)) (trunc8 (boolWord _)) :=
    answered_getter (by rw [commandOf, commandGetLevel, run_boolResult, hrun])
  obtain ⟨haccessed, hmem, hlatches⟩ := reads_word hport
  rw [trunc8_boolWord, wordBit_eq, answer_lev hw, ← bitOf_eq] at hanswered
  rw [answer_lev hw, ← wordOf_eq] at haccessed
  exact ⟨hanswered, haccessed, hmem, hlatches, hport ▸ regRead_draws rfl (.inl rfl) _⟩

/-- A pull above 2 makes no access (41_register_engine.md R131). -/
theorem setPull_outOfRange (m : WordMap) (pin : Byte) {value : Byte} (h : 2 < value.toNat) :
    setPull m pin value = .done () := if_pos h

theorem serviced_setPull_outOfRange (s : State) (pin : Byte) {value : Byte} (h : 2 < value.toNat) :
    (s.serviced (.setPull pin value)).port = s.port := by
  rw [serviced_port, commandOf, commandSetPull, setPull_outOfRange _ pin h]
  rfl

/-- The two writes of SET_PULL on valid operands. -/
theorem serviced_setPull {s : State} (hw : s.params.wellFormed = true) {pin value : Byte} (hp : pin.toNat ≤ 53)
    (hv : value.toNat ≤ 2) :
    (s.serviced (.setPull pin value)).port = { s.port with
      mem := (s.port.mem.write s.params.words.pud (zext32 value)).write (wordOf s.params.words .pudclk pin) (maskOf pin)
      history := s.port.history ++
        [.wr s.params.words.pud (zext32 value), .wr (wordOf s.params.words .pudclk pin) (maskOf pin)] } := by
  rw [serviced_port, commandOf, commandSetPull, run_void, run_setPull hw s.port hp hv, wordOf_eq, maskOf_eq]

theorem pud_ne_wordOf {ps : Params} (hw : ps.wellFormed = true) (f : BankFamily) (pin : Byte) :
    ps.words.pud ≠ wordOf ps.words f pin := by
  rw [wordOf_eq]
  exact (bankWord_ne_pud hw f _).symm

/-- Settles O22: the two writes are to different words. -/
theorem setPullWritesPudThenPudclk : Obligations.SetPullWritesPudThenPudclk := by
  intro s pin value hw hm
  refine ⟨_, exec_eq_serviced _ s, answered_setter rfl s, fun hinvalid => ?_, fun hp hv => ?_⟩
  · rcases hinvalid with hp | hv
    · exact (serviced_invalid (i := .setPull pin value) s hp).1
    · exact serviced_setPull_outOfRange s pin hv
  · intro clk
    have hread (a : Nat) : (s.serviced (.setPull pin value)).port.mem.read a =
        if a = clk then maskOf pin else if a = s.params.words.pud then zext32 value else s.port.mem.read a := by
      rw [serviced_setPull hw hp hv, Memory.read_write _ _ _ (Memory.wf_write _ _ hm), Memory.read_write _ _ _ hm]
    rw [Accessed, LatchesKept, hread, hread, if_neg (pud_ne_wordOf hw .pudclk pin), if_pos rfl, if_pos rfl,
      serviced_setPull hw hp hv]
    refine ⟨rfl, rfl, rfl, fun a ha => ?_, ⟨rfl, rfl⟩, rfl⟩
    obtain ⟨hpud, hclk⟩ : a ≠ s.params.words.pud ∧ a ≠ clk := by simpa using ha
    rw [hread, if_neg hclk, if_neg hpud]

end Sys2Proof.Machine
end

section
/-! SET_MODE and GET_MODE (42_commands.md R155, R156): the pin's field of its function-select word. -/

namespace Sys2Proof.Machine

theorem serviced_setMode {s : State} (hw : s.params.wellFormed = true) {pin value : Byte} (hp : pin.toNat ≤ 53)
    (hv : value.toNat ≤ 7) :
    (s.serviced (.setMode pin value)).port =
      s.port.modify (fieldWordOf s.params.words pin) fun x => updateWord x (pinFieldOffset pin) value := by
  rw [serviced_port, commandOf, commandSetMode, run_void, run_updateField hw s.port hp hv, fieldWordOf_eq _ hp]

/-- A mode above 7 makes no access (41_register_engine.md R131). -/
theorem serviced_setMode_outOfRange (s : State) (pin : Byte) {value : Byte} (h : 7 < value.toNat) :
    (s.serviced (.setMode pin value)).port = s.port := by
  rw [serviced_port, commandOf, commandSetMode, updateField, if_pos h]
  rfl

theorem fieldWordOf_storage {ps : Params} (hw : ps.wellFormed = true) {pin : Byte} (hp : pin.toNat ≤ 53) :
    Params.isStorage ps (fieldWordOf ps.words pin) := by
  rw [fieldWordOf_eq _ hp]
  exact fselWord_storage hw (pinBucket_le hp)

theorem run_getMode {ps : Params} (hw : ps.wellFormed = true) {pin : Byte} (hp : pin.toNat ≤ 53) (value : Byte)
    (q : Port) :
    (commandOf ps.words (.getMode pin value)).run ps q =
      (some (wordField (q.mem.read (fieldWordOf ps.words pin)) (pinFieldOffset pin)),
        (q.regRead ps (fieldWordOf ps.words pin)).2) := by
  rw [commandOf, commandGetMode, run_wordResult, run_readField ps q hp, ← fieldWordOf_eq _ hp,
    Port.answer_storage _ (fieldWordOf_storage hw hp)]

/-- GET_MODE answers the pin's field. -/
theorem answered_getMode {s : State} (hw : s.params.wellFormed = true) {pin : Byte} (hp : pin.toNat ≤ 53)
    (value : Byte) :
    Answered s (s.serviced (.getMode pin value))
      (trunc8 (wordField (s.port.mem.read (fieldWordOf s.params.words pin)) (pinFieldOffset pin))) :=
  answered_getter (congrArg Prod.fst (run_getMode hw hp value s.port))

/-- Settles O20: what is written back is the engine's updated word. -/
theorem setModeUpdatesTheField : Obligations.SetModeUpdatesTheField := by
  intro s pin value hw hm
  refine ⟨⟨_, exec_eq_serviced _ s, answered_setter rfl s, fun hinvalid => ?_, fun hp hv => ?_⟩,
    fun hv => ⟨_, exec_eq_serviced _ s, serviced_setPull_outOfRange s pin hv⟩⟩
  · rcases hinvalid with hp | hv
    · exact (serviced_invalid (i := .setMode pin value) s hp).1
    · exact serviced_setMode_outOfRange s pin hv
  · exact modifies_word hm (serviced_setMode hw hp hv)

/-- Settles O21: the low byte of the field read is its three bits. -/
theorem getModeReadsTheField : Obligations.GetModeReadsTheField := by
  intro s pin value hw
  refine ⟨_, exec_eq_serviced _ s, fun hp => getter_invalid rfl s hp, fun hp => ⟨?_, ?_⟩⟩
  · have hanswered := answered_getMode hw hp value
    rw [trunc8_wordField] at hanswered
    exact hanswered
  · exact reads_storage (fieldWordOf_storage hw hp) (congrArg Prod.snd (run_getMode hw hp value s.port))

theorem trunc8_zext32 (v : Byte) : trunc8 (zext32 v) = v := by
  rw [trunc8, zext32, BitVec.setWidth_setWidth_of_le _ (by decide), BitVec.setWidth_eq]

/-- Settles O29: the field read is the one just updated. -/
theorem modeRoundTrip : Obligations.ModeRoundTrip := by
  intro s pin value v hw hm hp hv
  refine ⟨_, _, exec_eq_serviced _ s, exec_eq_serviced _ _, ?_⟩
  obtain ⟨-, ⟨hstored, -⟩, -⟩ := modifies_word hm (serviced_setMode hw hp hv)
  obtain ⟨hbuf, -⟩ := answered_getMode (s := s.serviced (.setMode pin value)) hw hp v
  rw [hbuf, serviced_params, hstored, wordField_updateWord _ (pinFieldOffset_le pin) hv, trunc8_zext32]

end Sys2Proof.Machine
end

section
/-! The detect-enable commands (42_commands.md R159 to R170): six families with a setter and a getter each, which differ in
their family alone. -/

namespace Sys2Proof.Machine

/-- The command is the setter of detect family f. -/
structure IsDetectSetter (f : BankFamily) (op : Byte → Byte → Instr) : Prop where
  storage : f ≠ .set ∧ f ≠ .clr ∧ f ≠ .lev ∧ f ≠ .eds
  pin_eq : ∀ pin value, (op pin value).pin = pin
  isGetter_eq : ∀ pin value, (op pin value).isGetter = false
  command_eq : ∀ m pin value, commandOf m (op pin value) = (writeBit m f pin (byteBool value)).void

/-- The command is the getter of detect family f. -/
structure IsDetectGetter (f : BankFamily) (op : Byte → Byte → Instr) : Prop where
  storage : f ≠ .set ∧ f ≠ .clr ∧ f ≠ .lev ∧ f ≠ .eds
  pin_eq : ∀ pin value, (op pin value).pin = pin
  isGetter_eq : ∀ pin value, (op pin value).isGetter = true
  command_eq : ∀ m pin value, commandOf m (op pin value) = (readBit m f pin).boolResult

/-- The six setters, each with its family. -/
def detectSetters : List (BankFamily × (Byte → Byte → Instr)) :=
  [(.ren, .setRedge), (.fen, .setFedge), (.aren, .setAredge), (.afen, .setAfedge), (.hen, .setHdetect), (.len, .setLdetect)]

/-- The six getters, each with its family. -/
def detectGetters : List (BankFamily × (Byte → Byte → Instr)) :=
  [(.ren, .getRedge), (.fen, .getFedge), (.aren, .getAredge), (.afen, .getAfedge), (.hen, .getHdetect), (.len, .getLdetect)]

theorem isDetectSetter_of_mem : ∀ fc ∈ detectSetters, IsDetectSetter fc.1 fc.2 := by
  simp only [detectSetters, List.forall_mem_cons, List.not_mem_nil, false_imp_iff, implies_true, and_true]
  refine ⟨?_, ?_, ?_, ?_, ?_, ?_⟩ <;> exact ⟨by decide, fun _ _ => rfl, fun _ _ => rfl, fun _ _ _ => rfl⟩

theorem isDetectGetter_of_mem : ∀ fc ∈ detectGetters, IsDetectGetter fc.1 fc.2 := by
  simp only [detectGetters, List.forall_mem_cons, List.not_mem_nil, false_imp_iff, implies_true, and_true]
  refine ⟨?_, ?_, ?_, ?_, ?_, ?_⟩ <;> exact ⟨by decide, fun _ _ => rfl, fun _ _ => rfl, fun _ _ _ => rfl⟩

/-- Each setter is paired with the getter of its own family. -/
theorem detectPair_family : ∀ fc ∈ [(Instr.setRedge, Instr.getRedge), (.setFedge, .getFedge), (.setAredge, .getAredge),
    (.setAfedge, .getAfedge), (.setHdetect, .getHdetect), (.setLdetect, .getLdetect)],
    ∃ f, IsDetectSetter f fc.1 ∧ IsDetectGetter f fc.2 := by
  have pair {f : BankFamily} {set get : Byte → Byte → Instr} (hset : (f, set) ∈ detectSetters)
      (hget : (f, get) ∈ detectGetters) : ∃ f, IsDetectSetter f set ∧ IsDetectGetter f get :=
    ⟨f, isDetectSetter_of_mem _ hset, isDetectGetter_of_mem _ hget⟩
  simp only [List.forall_mem_cons, List.not_mem_nil, false_imp_iff, implies_true, and_true]
  refine ⟨pair (f := .ren) ?_ ?_, pair (f := .fen) ?_ ?_, pair (f := .aren) ?_ ?_, pair (f := .afen) ?_ ?_,
    pair (f := .hen) ?_ ?_, pair (f := .len) ?_ ?_⟩ <;> simp [detectSetters, detectGetters]

theorem wordOf_storage {ps : Params} (hw : ps.wellFormed = true) {f : BankFamily}
    (hf : f ≠ .set ∧ f ≠ .clr ∧ f ≠ .lev ∧ f ≠ .eds) (pin : Byte) : Params.isStorage ps (wordOf ps.words f pin) := by
  rw [wordOf_eq]
  exact bankWord_storage hw _ hf

theorem serviced_detectSetter {f : BankFamily} {op : Byte → Byte → Instr} (h : IsDetectSetter f op) {s : State}
    (hw : s.params.wellFormed = true) {pin : Byte} (hp : pin.toNat ≤ 53) (value : Byte) :
    (s.serviced (op pin value)).port =
      s.port.modify (wordOf s.params.words f pin) fun x => assignBit x (pinBit pin) (byteBool value) := by
  rw [serviced_port, h.command_eq, run_void, run_writeBit hw _ s.port hp h.storage, wordOf_eq]

theorem run_detectGetter {f : BankFamily} {op : Byte → Byte → Instr} (h : IsDetectGetter f op) {ps : Params}
    (hw : ps.wellFormed = true) {pin : Byte} (hp : pin.toNat ≤ 53) (value : Byte) (q : Port) :
    (commandOf ps.words (op pin value)).run ps q =
      (some (boolWord ((q.mem.read (wordOf ps.words f pin)).getLsbD (bitOf pin))),
        (q.regRead ps (wordOf ps.words f pin)).2) := by
  rw [h.command_eq, run_boolResult, run_readBit ps f q hp, ← wordOf_eq,
    Port.answer_storage _ (wordOf_storage hw h.storage pin), wordBit_eq, bitOf_eq]

/-- A detect getter answers the pin's bit of the stored word of its family. -/
theorem answered_detectGetter {f : BankFamily} {op : Byte → Byte → Instr} (h : IsDetectGetter f op) {s : State}
    (hw : s.params.wellFormed = true) {pin : Byte} (hp : pin.toNat ≤ 53) (value : Byte) :
    Answered s (s.serviced (op pin value))
      (flagByte ((s.port.mem.read (wordOf s.params.words f pin)).getLsbD (bitOf pin))) := by
  rw [← trunc8_boolWord]
  exact answered_getter (congrArg Prod.fst (run_detectGetter h hw hp value s.port))

/-- Settles O24: one argument for the setter of any family. -/
theorem detectSettersAssignTheirBit : Obligations.DetectSettersAssignTheirBit := by
  intro s pin value hw hm fc hfc
  have h := isDetectSetter_of_mem fc hfc
  refine ⟨_, exec_eq_serviced _ s, answered_setter (h.isGetter_eq pin value) s,
    fun hp => (serviced_invalid s (by rw [h.pin_eq]; exact hp)).1, fun hp => ?_⟩
  have hmodified := modifies_word hm (serviced_detectSetter h hw hp value)
  rw [assignBit_byteBool] at hmodified
  exact hmodified

/-- Settles O25: one argument for the getter of any family. -/
theorem detectGettersReadTheirBit : Obligations.DetectGettersReadTheirBit := by
  intro s pin value hw fc hfc
  have h := isDetectGetter_of_mem fc hfc
  exact ⟨_, exec_eq_serviced _ s,
    fun hp => getter_invalid (h.isGetter_eq pin value) s (by rw [h.pin_eq]; exact hp),
    fun hp => ⟨answered_detectGetter h hw hp value,
      reads_storage (wordOf_storage hw h.storage pin) (congrArg Prod.snd (run_detectGetter h hw hp value s.port))⟩⟩

theorem bitOf_ne_of_wordOf_eq {ps : Params} (hw : ps.wellFormed = true) {f : BankFamily} {p q : Byte}
    (hp : p.toNat ≤ 53) (hq : q.toNat ≤ 53) (hne : q ≠ p) (hword : wordOf ps.words f q = wordOf ps.words f p) :
    bitOf q ≠ bitOf p := by
  rw [wordOf_eq, wordOf_eq] at hword
  rw [bitOf_eq, bitOf_eq]
  exact fun hbit => hne (pin_eq_of_bit hq hp (bankWord_inj hw hword).2 hbit)

/-- After the setter on p, the bit of q in that family is the one assigned when q is p, and as before otherwise. -/
theorem detectSetter_bit {f : BankFamily} {op : Byte → Byte → Instr} (h : IsDetectSetter f op) {s : State}
    (hw : s.params.wellFormed = true) (hm : s.port.mem.wf = true) {p q : Byte} (hp : p.toNat ≤ 53) (hq : q.toNat ≤ 53)
    (value : Byte) :
    ((s.serviced (op p value)).port.mem.read (wordOf s.params.words f q)).getLsbD (bitOf q) =
      if q = p then byteBool value else (s.port.mem.read (wordOf s.params.words f q)).getLsbD (bitOf q) := by
  obtain ⟨-, ⟨hstored, hkept⟩, -⟩ := modifies_word hm (serviced_detectSetter h hw hp value)
  by_cases hword : wordOf s.params.words f q = wordOf s.params.words f p
  · rw [hword, hstored, assignBit_getLsbD _ _ _ _ (bitOf_lt q), ← bitOf_eq p]
    by_cases hqp : q = p
    · rw [if_pos hqp, if_pos (by rw [hqp])]
    · rw [if_neg hqp, if_neg (bitOf_ne_of_wordOf_eq hw hp hq hqp hword)]
  · rw [hkept _ (by simpa using hword), if_neg (fun hqp => hword (by rw [hqp]))]

/-- Settles O30: the getter answers the bit that the setter left. -/
theorem enableRoundTrip : Obligations.EnableRoundTrip := by
  intro s p q value v hw hm hp hq fc hfc
  obtain ⟨f, hset, hget⟩ := detectPair_family fc hfc
  refine ⟨_, _, _, exec_eq_serviced _ s, exec_eq_serviced _ _, exec_eq_serviced _ s, ?_⟩
  obtain ⟨hafter, -⟩ := answered_detectGetter hget (s := s.serviced (fc.1 p value)) hw hq v
  obtain ⟨hbefore, -⟩ := answered_detectGetter hget hw hq v
  rw [hafter, hbefore, serviced_params, detectSetter_bit hset hw hm hp hq]
  by_cases hqp : q = p
  · rw [if_pos hqp, if_pos hqp, byteBool]
  · rw [if_neg hqp, if_neg hqp]

end Sys2Proof.Machine
end

section
/-! What bounds every command and what has it run: the words of its families (42_commands.md R173), and the Dispatcher's
turn on the request loaded (R150, R171). -/

namespace Sys2Proof.Machine

/-- Settles O28: a run makes the accesses of its block alone. -/
theorem commandsStayInTheirFamilies : Obligations.CommandsStayInTheirFamilies := by
  intro i s hm
  have hwithin := commandOf_within s.params.words i
  obtain ⟨l, hhistory, hevents⟩ := Accesses.run_history s.params s.port hwithin
  refine ⟨_, l, exec_eq_serviced i s, hhistory, fun e he => ?_, fun a ha => Accesses.run_outside _ hwithin hm ha⟩
  obtain ⟨w, hw, ⟨v, rfl⟩ | ⟨v, rfl⟩⟩ := hevents e he
  · exact hw
  · exact hw

theorem serviceWhole_of_instr {s : State} {i : Instr} (h : s.request = .instr i) : serviceWhole s = exec i s := by
  rw [serviceWhole, h]

/-- With no turn listed a request being serviced is what comes next (43_framer.md R192). -/
theorem step_unlisted_servicing {s : State} (hw : s.params.conditionsHold s.clients.length = true)
    (hnone : s.listedTurns = []) (hserving : s.control.isServicing = true) (hrunning : s.shutdown = false) :
    step s = dispatcherTurn s := by
  have hdefault : s.defaultTurn = some .dispatcher := if_pos (by simp [hserving, hrunning])
  unfold step runNextTurn State.nextTurn
  rw [if_pos hw, hnone]
  simp only [hdefault, takeTurn]

/-- Settles O34: in all three schedules the turn is the Dispatcher's, at the start of servicing. -/
theorem stepRunsTheDecodedInstruction : Obligations.StepRunsTheDecodedInstruction := by
  intro s i hw hrunning hc hi
  have hserve (rest : List Turn) : dispatcherTurn (s.withTurns rest) = exec i (s.withTurns rest) :=
    (dispatcherTurn_start (s := s.withTurns rest) hrunning hc).trans (serviceWhole_of_instr hi)
  refine ⟨fun rest hturns => ?_, fun rest hturns hagain => ?_, fun hturns hagain => ?_⟩
  · exact (step_listed hw hturns).trans (hserve rest)
  · exact (step_listedTurns hw ((listedTurns_again hturns).trans hagain)).trans (hserve rest)
  · exact (step_unlisted_servicing hw ((listedTurns_again hturns).trans hagain) (by rw [hc]; rfl) hrunning).trans
      (hserve s.turns)

/-- Settles O35: a code that is no command's decodes to UNRECOGNIZED, whose service O27 describes. -/
theorem stepAnswersAnUnrecognizedRequest : Obligations.StepAnswersAnUnrecognizedRequest := by
  intro s rest hw hrunning hc hcode hturns
  have hunrecognized := (decodeRequest_unrecognized_iff s.params.codes s.buf.b0 s.buf.b1 s.buf.b2).mpr fun hmem =>
    let ⟨i, hi⟩ := (mem_all_iff _ _).mp hmem
    hcode i hi
  obtain ⟨t, hserve, hport, hanswered⟩ :=
    (invalidPinIsAnsweredWithoutAccess (s.withTurns rest)).2 _ _ _ hunrecognized
  have hstep : step s = serviceWhole (s.withTurns rest) :=
    (step_listed hw hturns).trans (dispatcherTurn_start (s := s.withTurns rest) hrunning hc)
  exact ⟨t, hstep.trans hserve, hport, hanswered⟩

end Sys2Proof.Machine
end

section
/-! GET_EVENT in both peripheral models (41_register_engine.md R129, 42_commands.md R158): the read of EDS, and the
write-back that changes no stored word. -/

namespace Sys2Proof.Machine

/-- The accesses of `event_detected` where EDS answers x: the write-back is made exactly when the pin's bit is 1. -/
def eventAccesses (m : WordMap) (pin : Byte) (x : Word) : List RegEvent :=
  .rd (wordOf m .eds pin) x :: if x.getLsbD (bitOf pin) then [.wr (wordOf m .eds pin) x] else []

theorem history_eventDetected (ps : Params) {pin : Byte} (hp : pin.toNat ≤ 53) (q : Port) :
    ((eventDetected ps.words pin).run ps q).2.history =
      q.history ++ eventAccesses ps.words pin (q.answer ps (ps.words.bankWord .eds (pinBank pin))).1 := by
  rw [run_eventDetected ps q hp]
  simp only [wordBit_eq, eventAccesses, wordOf_eq, bitOf_eq]
  split <;> simp

theorem registerState_eq_iff {q q' : Port} :
    registerState q = registerState q' ↔ q.mem = q'.mem ∧ q.out0 = q'.out0 ∧ q.out1 = q'.out1 := by
  simp only [registerState, Prod.mk.injEq]

/-- The free value of a read does not depend on what the bank holds. -/
theorem volatileRead_withPort {s : State} {q : Port} (hdraws : q.draws = s.port.draws) (mock : Word) :
    volatileRead (s.withPort q) mock = volatileRead s mock := by
  rw [volatileRead, State.withPort_params, State.withPort_port, hdraws, volatileRead]

/-- `event_detected` in a servicing of s that has drawn nothing before it and left the register side q. -/
theorem eventDetected_effect {s : State} (hw : s.params.wellFormed = true) {pin : Byte} (hp : pin.toNat ≤ 53)
    {q : Port} (hm : q.mem.wf = true) (hdraws : q.draws = s.port.draws) :
    ((eventDetected s.params.words pin).run s.params q).2.history =
        q.history ++ eventAccesses s.params.words pin (volatileRead s (q.mem.read (wordOf s.params.words .eds pin))) ∧
      registerState ((eventDetected s.params.words pin).run s.params q).2 = registerState q ∧
      ((eventDetected s.params.words pin).run s.params q).2.draws = drawsAfterVolatileRead s := by
  refine ⟨?_, registerState_eventDetected hw hp hm, run_eventDetected_draws hdraws hp⟩
  have hanswer := answer_eds (s := s.withPort q) hw (pinBank pin)
  rw [volatileRead_withPort hdraws, ← wordOf_eq] at hanswer
  rw [history_eventDetected s.params hp q, ← wordOf_eq]
  exact congrArg (fun x => q.history ++ eventAccesses s.params.words pin x) hanswer

/-- Settles O23: the result is the bit that decides on the write-back. -/
theorem getEventWritesBackTheWordRead : Obligations.GetEventWritesBackTheWordRead := by
  intro s pin value hw hm
  refine ⟨_, exec_eq_serviced _ s, fun hp => getter_invalid rfl s hp, fun hp => ?_⟩
  intro w x
  have hrun := run_boolResult s.params (eventDetected s.params.words pin) s.port
  obtain ⟨hhistory, hkept, hdraws⟩ := eventDetected_effect hw hp hm rfl
  obtain ⟨hmem, hout0, hout1⟩ := registerState_eq_iff.mp hkept
  have hport : (s.serviced (.getEvent pin value)).port = ((eventDetected s.params.words pin).run s.params s.port).2 :=
    congrArg Prod.snd hrun
  have hanswered : Answered s (s.serviced (.getEvent pin value)) (trunc8 (boolWord _)) :=
    answered_getter (congrArg Prod.fst hrun)
  rw [trunc8_boolWord, run_eventDetected_fst s.params s.port hp, answer_eds hw, ← wordOf_eq, ← bitOf_eq] at hanswered
  rw [Accessed, WordsKeptOutside, LatchesKept, hport, hhistory, hmem, hout0, hout1, hdraws]
  refine ⟨hanswered, ?_, fun _ _ => rfl, ⟨rfl, rfl⟩, rfl⟩
  change s.port.history ++ eventAccesses s.params.words pin x = _
  rw [eventAccesses]
  split <;> rfl

end Sys2Proof.Machine
end

section
/-! RESET_PIN (42_commands.md R152): what its first eight steps leave in each word of the bank, and their accesses; the
ninth is `event_detected`. -/

namespace Sys2Proof.Machine

theorem wordOf_inj {ps : Params} (hw : ps.wellFormed = true) {f g : BankFamily} {pin : Byte}
    (h : wordOf ps.words f pin = wordOf ps.words g pin) : f = g := by
  rw [wordOf_eq, wordOf_eq] at h
  exact (bankWord_inj hw h).1

theorem wordOf_ne_fieldWordOf {ps : Params} (hw : ps.wellFormed = true) (f : BankFamily) {pin : Byte}
    (hp : pin.toNat ≤ 53) : wordOf ps.words f pin ≠ fieldWordOf ps.words pin := by
  rw [wordOf_eq, fieldWordOf_eq _ hp]
  exact bankWord_ne_fselWord hw f _ (pinBucket_le hp)

theorem pud_ne_fieldWordOf {ps : Params} (hw : ps.wellFormed = true) {pin : Byte} (hp : pin.toNat ≤ 53) :
    ps.words.pud ≠ fieldWordOf ps.words pin := by
  rw [fieldWordOf_eq _ hp]
  exact (fselWord_ne_pud hw (pinBucket_le hp)).symm

/-- The families of steps 1 to 6, in their order. -/
def disabledFamilies : List BankFamily := [.hen, .len, .ren, .fen, .aren, .afen]

/-- The accesses of one detect disable, where the words read as r. -/
def disableAccesses (m : WordMap) (pin : Byte) (r : Nat → Word) (f : BankFamily) : List RegEvent :=
  [.rd (wordOf m f pin) (r (wordOf m f pin)), .wr (wordOf m f pin) (r (wordOf m f pin) &&& ~~~ maskOf pin)]

theorem disabled_eq_modify (ps : Params) (pin : Byte) (f : BankFamily) (q : Port) :
    q.disabled ps pin f = q.modify (wordOf ps.words f pin) (· &&& ~~~ maskOf pin) := by
  rw [wordOf_eq, maskOf_eq]
  rfl

theorem read_disabled_wordOf {ps : Params} {pin : Byte} {f : BankFamily} {q : Port} (hm : q.mem.wf = true) (a : Nat) :
    (q.disabled ps pin f).mem.read a =
      if a = wordOf ps.words f pin then q.mem.read a &&& ~~~ maskOf pin else q.mem.read a := by
  rw [Port.read_disabled hm, wordOf_eq, maskOf_eq]
  rfl

/-- Disabling a list of families clears the pin's bit in each of their words. -/
theorem read_disableAll {ps : Params} {pin : Byte} (fs : List BankFamily) {q : Port} (hm : q.mem.wf = true) (a : Nat) :
    (fs.foldl (fun q f => q.disabled ps pin f) q).mem.read a =
      if a ∈ fs.map (wordOf ps.words · pin) then q.mem.read a &&& ~~~ maskOf pin else q.mem.read a := by
  induction fs generalizing q with
  | nil => rfl
  | cons f fs ih =>
    rw [List.foldl_cons, ih (Port.wf_disabled hm), read_disabled_wordOf hm, List.map_cons]
    by_cases hf : a = wordOf ps.words f pin
    · simp [hf, BitVec.and_assoc]
    · simp [hf]

/-- Disabling different families makes their accesses in order, each on the word as it was at first. -/
theorem history_disableAll {ps : Params} (hw : ps.wellFormed = true) {pin : Byte} {fs : List BankFamily}
    (hfs : fs.Nodup) {q : Port} (hm : q.mem.wf = true) :
    (fs.foldl (fun q f => q.disabled ps pin f) q).history =
      q.history ++ fs.flatMap (disableAccesses ps.words pin q.mem.read) := by
  induction fs generalizing q with
  | nil => simp
  | cons f fs ih =>
    obtain ⟨hf, hfs⟩ := List.nodup_cons.mp hfs
    have hothers : ∀ g ∈ fs, disableAccesses ps.words pin (q.disabled ps pin f).mem.read g =
        disableAccesses ps.words pin q.mem.read g := by
      intro g hg
      have hne : wordOf ps.words g pin ≠ wordOf ps.words f pin := fun e => hf (wordOf_inj hw e ▸ hg)
      rw [disableAccesses, read_disabled_wordOf hm, if_neg hne, disableAccesses]
    rw [List.foldl_cons, ih hfs (Port.wf_disabled hm), List.flatMap_congr hothers, disabled_eq_modify,
      Port.modify_history, List.append_assoc, List.flatMap_cons, disableAccesses]

/-- The register side before step 9. -/
def Port.beforeAcknowledge (ps : Params) (pin : Byte) (q : Port) : Port :=
  ((q.allDisabled ps pin).unpulled ps pin).madeInput ps pin

/-- What RESET_PIN makes of the word x at index a. -/
def resetWord (m : WordMap) (pin : Byte) (a : Nat) (x : Word) : Word :=
  if a = fieldWordOf m pin then x &&& ~~~ (7#32 <<< offsetOf pin)
  else if a = wordOf m .pudclk pin then maskOf pin
  else if a = m.pud then 0
  else if a ∈ disabledFamilies.map (wordOf m · pin) then x &&& ~~~ maskOf pin
  else x

/-- The mode INPUT clears the field. -/
theorem updateWord_input (x : Word) (pin : Byte) :
    updateWord x (pinFieldOffset pin) 0 = x &&& ~~~ (7#32 <<< offsetOf pin) := by
  simp [updateWord, zext32, fieldWord, pinFieldOffset, offsetOf]

theorem wf_beforeAcknowledge {ps : Params} {pin : Byte} {q : Port} (hm : q.mem.wf = true) :
    (q.beforeAcknowledge ps pin).mem.wf = true :=
  Port.wf_madeInput (Port.wf_unpulled (Port.wf_allDisabled hm))

/-- Step 8 finds the function-select word as it was at first. -/
theorem read_unpulled_fieldWordOf {ps : Params} (hw : ps.wellFormed = true) {pin : Byte} (hp : pin.toNat ≤ 53)
    {q : Port} (hm : q.mem.wf = true) :
    ((q.allDisabled ps pin).unpulled ps pin).mem.read (fieldWordOf ps.words pin) =
      q.mem.read (fieldWordOf ps.words pin) := by
  have hfamily (f : BankFamily) := (wordOf_ne_fieldWordOf hw f hp).symm
  rw [Port.read_unpulled (Port.wf_allDisabled hm), ← wordOf_eq, if_neg (hfamily _), if_neg (pud_ne_fieldWordOf hw hp).symm]
  refine (read_disableAll disabledFamilies hm _).trans (if_neg fun hmem => ?_)
  obtain ⟨f, -, hf⟩ := List.mem_map.mp hmem
  exact hfamily f hf.symm

theorem read_beforeAcknowledge {ps : Params} (hw : ps.wellFormed = true) {pin : Byte} (hp : pin.toNat ≤ 53)
    {q : Port} (hm : q.mem.wf = true) (a : Nat) :
    (q.beforeAcknowledge ps pin).mem.read a = resetWord ps.words pin a (q.mem.read a) := by
  have hdisabled := Port.wf_allDisabled (ps := ps) (pin := pin) hm
  rw [Port.beforeAcknowledge, Port.read_madeInput (Port.wf_unpulled hdisabled), ← fieldWordOf_eq _ hp, updateWord_input,
    resetWord]
  by_cases hfield : a = fieldWordOf ps.words pin
  · rw [if_pos hfield, if_pos hfield, hfield, read_unpulled_fieldWordOf hw hp hm]
  · rw [if_neg hfield, if_neg hfield, Port.read_unpulled hdisabled, ← wordOf_eq, ← maskOf_eq]
    exact congrArg (fun x => if a = _ then _ else if a = _ then _ else x) (read_disableAll disabledFamilies hm a)

/-- The accesses of steps 1 to 8, where the words read as r. -/
def resetAccesses (m : WordMap) (pin : Byte) (r : Nat → Word) : List RegEvent :=
  disabledFamilies.flatMap (disableAccesses m pin r) ++
    [.wr m.pud 0, .wr (wordOf m .pudclk pin) (maskOf pin), .rd (fieldWordOf m pin) (r (fieldWordOf m pin)),
      .wr (fieldWordOf m pin) (r (fieldWordOf m pin) &&& ~~~ (7#32 <<< offsetOf pin))]

theorem history_beforeAcknowledge {ps : Params} (hw : ps.wellFormed = true) {pin : Byte} (hp : pin.toNat ≤ 53)
    {q : Port} (hm : q.mem.wf = true) :
    (q.beforeAcknowledge ps pin).history = q.history ++ resetAccesses ps.words pin q.mem.read := by
  have hdisabled : (q.allDisabled ps pin).history = _ := history_disableAll hw (fs := disabledFamilies) (by decide) hm
  rw [Port.beforeAcknowledge, Port.madeInput, Port.modify_history, ← fieldWordOf_eq _ hp,
    read_unpulled_fieldWordOf hw hp hm, updateWord_input, Port.unpulled, hdisabled, ← wordOf_eq, ← maskOf_eq,
    resetAccesses]
  simp only [List.append_assoc, List.cons_append, List.nil_append]

theorem resetWord_of_disabled {ps : Params} (hw : ps.wellFormed = true) {pin : Byte} (hp : pin.toNat ≤ 53)
    {f : BankFamily} (hf : f ∈ disabledFamilies) (x : Word) :
    resetWord ps.words pin (wordOf ps.words f pin) x = x &&& ~~~ maskOf pin := by
  have hclk : wordOf ps.words f pin ≠ wordOf ps.words .pudclk pin := fun e => by
    rw [wordOf_inj hw e] at hf
    exact absurd hf (by decide)
  rw [resetWord, if_neg (wordOf_ne_fieldWordOf hw f hp), if_neg hclk, if_neg (pud_ne_wordOf hw f pin).symm,
    if_pos (List.mem_map_of_mem hf)]

theorem resetWord_eds {ps : Params} (hw : ps.wellFormed = true) {pin : Byte} (hp : pin.toNat ≤ 53) (x : Word) :
    resetWord ps.words pin (wordOf ps.words .eds pin) x = x := by
  have hfamily {f : BankFamily} (hf : f ≠ .eds) : wordOf ps.words .eds pin ≠ wordOf ps.words f pin :=
    fun e => hf (wordOf_inj hw e).symm
  rw [resetWord, if_neg (wordOf_ne_fieldWordOf hw _ hp), if_neg (hfamily (by decide)),
    if_neg (pud_ne_wordOf hw _ pin).symm, if_neg]
  intro hmem
  obtain ⟨f, hf, e⟩ := List.mem_map.mp hmem
  exact hfamily (by rintro rfl; exact absurd hf (by decide)) e.symm

theorem resetWord_pud {ps : Params} (hw : ps.wellFormed = true) {pin : Byte} (hp : pin.toNat ≤ 53) (x : Word) :
    resetWord ps.words pin ps.words.pud x = 0 := by
  rw [resetWord, if_neg (pud_ne_fieldWordOf hw hp), if_neg (pud_ne_wordOf hw _ pin), if_pos rfl]

theorem resetWord_pudclk {ps : Params} (hw : ps.wellFormed = true) {pin : Byte} (hp : pin.toNat ≤ 53) (x : Word) :
    resetWord ps.words pin (wordOf ps.words .pudclk pin) x = maskOf pin := by
  rw [resetWord, if_neg (wordOf_ne_fieldWordOf hw _ hp), if_pos rfl]

theorem resetWord_fieldWordOf (m : WordMap) (pin : Byte) (x : Word) :
    resetWord m pin (fieldWordOf m pin) x = x &&& ~~~ (7#32 <<< offsetOf pin) := if_pos rfl

/-- The nine words that RESET_PIN stores to are all that it changes. -/
theorem resetWord_outside {m : WordMap} {pin : Byte} {a : Nat}
    (h : a ∉ disabledFamilies.map (wordOf m · pin) ++ [m.pud, wordOf m .pudclk pin, fieldWordOf m pin]) (x : Word) :
    resetWord m pin a x = x := by
  simp only [List.mem_append, List.mem_cons, List.not_mem_nil, or_false, not_or] at h
  obtain ⟨hfamilies, hpud, hclk, hfield⟩ := h
  rw [resetWord, if_neg hfield, if_neg hclk, if_neg hpud, if_neg hfamilies]

/-- RESET_PIN makes of a word what it made of it before. -/
theorem resetWord_idem (m : WordMap) (pin : Byte) (a : Nat) (x : Word) :
    resetWord m pin a (resetWord m pin a x) = resetWord m pin a x := by
  unfold resetWord
  split_ifs <;> simp [BitVec.and_assoc]

theorem serviced_resetPin {s : State} (hw : s.params.wellFormed = true) {pin : Byte} (hp : pin.toNat ≤ 53)
    (value : Byte) :
    (s.serviced (.resetPin pin value)).port =
      ((eventDetected s.params.words pin).run s.params (s.port.beforeAcknowledge s.params pin)).2 :=
  congrArg Prod.snd (run_commandResetPin hw value hp s.port)

/-- What RESET_PIN leaves in the bank and in the latches. -/
theorem resetPin_registers {s : State} (hw : s.params.wellFormed = true) (hm : s.port.mem.wf = true) {pin : Byte}
    (hp : pin.toNat ≤ 53) (value : Byte) :
    (∀ a, (s.serviced (.resetPin pin value)).port.mem.read a =
        resetWord s.params.words pin a (s.port.mem.read a)) ∧
      LatchesKept s (s.serviced (.resetPin pin value)) := by
  obtain ⟨hmem, hout0, hout1⟩ := registerState_eq_iff.mp
    (registerState_eventDetected hw hp (wf_beforeAcknowledge (ps := s.params) (pin := pin) hm))
  rw [LatchesKept, serviced_resetPin hw hp, hmem, hout0, hout1]
  exact ⟨read_beforeAcknowledge hw hp hm, rfl, rfl⟩

/-- Settles O16: the first eight steps word by word, then `event_detected` on an EDS word they have left alone. -/
theorem resetPinRunsItsNineSteps : Obligations.ResetPinRunsItsNineSteps := by
  intro s pin value hw hm
  refine ⟨_, exec_eq_serviced _ s, answered_setter rfl s,
    fun hp => (serviced_invalid (i := .resetPin pin value) s hp).1, fun hp => ?_⟩
  intro m r cleared field eds
  obtain ⟨hread, hlatches⟩ := resetPin_registers hw hm hp value
  obtain ⟨hhistory, -, hdraws⟩ :=
    eventDetected_effect hw hp (wf_beforeAcknowledge (ps := s.params) (pin := pin) hm) rfl
  rw [← serviced_resetPin hw hp value] at hdraws
  rw [← serviced_resetPin hw hp value, history_beforeAcknowledge hw hp hm, read_beforeAcknowledge hw hp hm,
    resetWord_eds hw hp, List.append_assoc] at hhistory
  refine ⟨hhistory, fun f hf => ?_, ?_, ?_, ?_, fun a ha => ?_, hlatches, hdraws⟩
  · rw [hread, resetWord_of_disabled hw hp hf]
  · rw [hread, resetWord_pud hw hp]
  · rw [hread, resetWord_pudclk hw hp]
  · rw [hread, resetWord_fieldWordOf]
  · rw [hread, resetWord_outside ha]

/-- Settles O32: word by word RESET_PIN is idempotent, and a canonical bank is what it reads as. -/
theorem resetPinIsIdempotent : Obligations.ResetPinIsIdempotent := by
  intro s pin v v' hw hm
  refine ⟨_, _, exec_eq_serviced _ s, exec_eq_serviced _ _, ?_⟩
  by_cases hp : pin.toNat ≤ 53
  · have hm' : (s.serviced (.resetPin pin v)).port.mem.wf = true := Accesses.run_wf s.params _ hm
    have hm'' : ((s.serviced (.resetPin pin v)).serviced (.resetPin pin v')).port.mem.wf = true :=
      Accesses.run_wf s.params _ hm'
    obtain ⟨hread, -⟩ := resetPin_registers hw hm hp v
    obtain ⟨hread', hout0, hout1⟩ := resetPin_registers (s := s.serviced (.resetPin pin v)) hw hm' hp v'
    refine registerState_eq_iff.mpr ⟨Memory.ext hm'' hm' fun a => ?_, hout0, hout1⟩
    rw [hread', hread, serviced_params, resetWord_idem]
  · rw [(serviced_invalid (i := .resetPin pin v') _ (Nat.lt_of_not_le hp)).1]

end Sys2Proof.Machine
end

section
/-! What a call and an init leave, one rule per case (43_framer.md R190, R191, R193); and from these the statements about
calls and init. -/

namespace Sys2Proof.Machine

theorem callOp_outOfRange (s : State) (c : Nat) (cl : Client) {op : PublicOp} (h : op.request.wellFormed = false) :
    s.callOp c cl op = s.setClient c { cl with ret := some (op.decodeResponse 0) } := by
  rw [← defaultResult_eq]
  exact if_pos ((inRange_eq op).trans h)

theorem callOp_closed (s : State) (c : Nat) {cl : Client} {op : PublicOp} (hrange : op.request.wellFormed = true)
    (hclosed : cl.chanOpen = false) :
    s.callOp c cl op = (s.setClient c { cl with ret := none }).raise .notInitialised :=
  (if_neg (by simp [inRange_eq, hrange])).trans (if_pos hclosed)

/-- A call whose RequestWrite faults: the client has set its phase and its buffer, and stops (log 12). -/
theorem callOp_faults {s : State} {c : Nat} {cl : Client} {op : PublicOp} {k : FaultKind}
    (hrange : op.request.wellFormed = true) (hopen : cl.chanOpen = true) (hfault : s.requestFault c = some k) :
    s.callOp c cl op =
      (s.setClient c { cl.calling op (op.packet s.params.codes) with stopped := true }).raise k := by
  have hcall : s.callOp c cl op = (s.setClient c { cl.calling op (op.packet s.params.codes) with
      stopped := (s.requestFault c).isSome }).requestWrite c (op.packet s.params.codes) :=
    (if_neg (by simp [inRange_eq, hrange])).trans (if_neg (by simp [hopen]))
  rw [hcall, requestWrite_raises _ ((requestFault_setClient ..).trans hfault), hfault, Option.isSome_some]

/-- The step of a listed call by a client in no transaction. -/
theorem step_call {s : State} {c : Nat} {cl : Client} {op : PublicOp} {rest : List Turn}
    (hw : s.params.wellFormed = true) (hc : s.clients[c]? = some cl) (hphase : cl.phase = .noTxn)
    (hturns : s.turns = .call c op :: rest) : step s = .next ((s.withTurns rest).callOp c cl op) :=
  (step_listed_client hw hc hturns).trans (withFreeClient_of_noTxn hc hphase _)

theorem initClient_eq (s : State) (c : Nat) (cl : Client) :
    s.initClient c cl = { s with
      clients := s.clients.set c
        (if Config.freeOpen s.opens then { cl with chanOpen := true, ret := some .opened }
         else { cl with ret := some .transportUnavailable })
      opens := s.opens + 1 } := by
  unfold State.initClient
  split <;> rfl

/-- R193: the bounds of the range check. -/
theorem wellFormed_false_iff (op : PublicOp) : op.request.wellFormed = false ↔
    53 < op.request.pin.toNat ∨ (∃ p v, op = .setMode p v ∧ 7 < v.toNat) ∨ (∃ p v, op = .setPull p v ∧ 2 < v.toNat) := by
  cases op with
  | setMode p m => simp [PublicOp.request, Instr.wellFormed, Instr.pin, imp_iff_not_or]
  | setPull p u => simp [PublicOp.request, Instr.wellFormed, Instr.pin, imp_iff_not_or]
  | _ => simp [PublicOp.request, Instr.wellFormed, Instr.pin]

/-- Settles O52: the check is made before the channel is looked at. -/
theorem rangeCheckComesFirst : Obligations.RangeCheckComesFirst := by
  refine ⟨wellFormed_false_iff, fun s c cl op rest hw hc hphase hturns hout => ?_⟩
  rw [step_call hw hc hphase hturns, callOp_outOfRange _ c cl hout]
  rfl

/-- Settles O53: the phase is not yet set when the channel is found closed. -/
theorem callOnAClosedChannelFaults : Obligations.CallOnAClosedChannelFaults := by
  intro s c cl op rest hw hc hphase hturns hrange hclosed
  rw [step_call hw hc hphase hturns, callOp_closed _ c hrange hclosed]
  rfl

/-- Settles O57: both draws at once. -/
theorem initOpensOrReportsUnavailable : Obligations.InitOpensOrReportsUnavailable := by
  intro s c cl rest hw hc hphase hturns
  have hstep : step s = .next ((s.withTurns rest).initClient c cl) :=
    (step_listed_client hw hc hturns).trans (withFreeClient_of_noTxn hc hphase _)
  rw [hstep, initClient_eq]
  rfl

/-- Settles O54: the call's three cases, and each operation's request evaluated. -/
theorem callSendsItsPacket : Obligations.CallSendsItsPacket := by
  refine ⟨fun s c cl op rest hw hc hphase hturns hrange hopen => ⟨fun hdown => ?_, fun hrunning hbusy => ?_,
    fun hrunning hfree => ?_⟩, fun m pin mode pull b => ?_⟩
  · have hfault : (s.withTurns rest).requestFault c = some .afterShutdown := requestFault_afterShutdown c hdown
    rw [step_call hw hc hphase hturns, callOp_faults hrange hopen hfault]
    rfl
  · have hfault : (s.withTurns rest).requestFault c = some .interleavedTransaction :=
      requestFault_interleaved hrunning hbusy
    rw [step_call hw hc hphase hturns, callOp_faults hrange hopen hfault]
    rfl
  · have hfault : s.requestFault c = none := (requestFault_none s c).mpr ⟨hrunning, hfree⟩
    exact step_call_loads hw hc hphase hopen hrange hfault hturns
  · have hbool (v : Byte) : (v != 0) = decide (v ≠ 0) := by rw [bne, decide_not]; rfl
    intro a void bool row hrow
    simp only [List.mem_cons, List.not_mem_nil, or_false] at hrow
    rcases hrow with rfl | rfl | rfl | rfl | rfl | rfl | rfl | rfl | rfl | rfl | rfl | rfl | rfl | rfl | rfl | rfl |
      rfl | rfl | rfl <;> exact ⟨rfl, fun v => by simp only [PublicOp.decodeResponse, void, bool, hbool]⟩

end Sys2Proof.Machine
end

section
/-! The end of a run (43_framer.md R216): what makes a state final, and that a recorded fault keeps every later state from
being so. -/

namespace Sys2Proof.Machine

theorem busy_eq_false_iff {cl : Client} : cl.busy = false ↔ cl.phase = .noTxn := by
  unfold Client.busy
  cases cl.phase <;> simp

theorem isFinal_iff {s : State} : isFinal s = true ↔
    (∀ cl ∈ s.clients, cl.phase = .noTxn) ∧ s.control = .idle ∧ s.owner = none ∧ s.faults = FaultSet.empty := by
  simp only [isFinal, noFaults, Bool.and_eq_true, decide_eq_true_eq, List.all_eq_true, Bool.not_eq_true', busy_eq_false_iff,
    and_assoc]

theorem not_final_of_fault {s : State} {k : FaultKind} (h : s.faults.has k = true) : isFinal s = false := by
  refine Bool.eq_false_iff.mpr fun hfinal => ?_
  obtain ⟨-, -, -, hnone⟩ := isFinal_iff.mp hfinal
  rw [hnone] at h
  cases k <;> cases h

/-- Settles O42: faults are never cleared (O41). -/
theorem aFaultedRunNeverEnds : Obligations.AFaultedRunNeverEnds :=
  ⟨fun _ => isFinal_iff, fun s t k hk h => not_final_of_fault (faultsAreNeverCleared.1 s t k h hk)⟩

end Sys2Proof.Machine
end

section
/-! The poll loop (43_framer.md R191, R192, R215): a poll that finds the request still being serviced copies the buffer
and nothing more, so any number of them leave the client waiting; the first one after the commit returns. -/

namespace Sys2Proof.Machine

/-- A client that polls reads the buffer and tests the sentinel. -/
theorem pollClient_reads {s : State} {c : Nat} {cl : Client} {op : PublicOp} (hc : s.clients[c]? = some cl)
    (hphase : cl.phase = .awaiting op) (hgoing : cl.stopped = false) :
    s.pollClient c cl = { s with
      clients := s.clients.set c (Client.afterRead { cl with cbuf := s.buf } op), owner := s.ownerAfterRead c } := by
  rcases pollClient_cases hc with ⟨hno, -⟩ | ⟨op', hphase', -, e⟩
  · simp [Client.busy, hphase, hgoing] at hno
  · obtain rfl : op = op' := by simpa [hphase] using hphase'
    exact e

/-- No command's code is the sentinel (30_encoding.md R84). -/
theorem code_ne_sentinel {m : CodeMap} (hm : m.wellFormed = true) (i : Instr) : m.code i ≠ 0xFF := by
  simp only [CodeMap.wellFormed, Bool.and_eq_true, List.all_eq_true] at hm
  have hlt : (m.code i).toNat < 19 := Nat.le_of_ble_eq_true (hm.2 _ ((mem_all_iff m _).mpr ⟨i, rfl⟩))
  intro h
  rw [h] at hlt
  exact absurd hlt (by decide)

theorem conditionsHold_of_inv {s : State} (h : Inv s) : s.params.conditionsHold s.clients.length = true :=
  (inv_iff.mp h).1

theorem wellFormed_of_inv {s : State} (h : Inv s) : s.params.wellFormed = true :=
  (conditionsHold_iff.mp (conditionsHold_of_inv h)).1

theorem ownerInv_of_inv {s : State} (h : Inv s) : OwnerInv s := (inv_iff.mp h).2.2

/-- Client c, being cl, awaits the response to op and has not stopped, and its request is being serviced. -/
structure Waiting (s : State) (c : Nat) (cl : Client) (op : PublicOp) : Prop where
  inv : Inv s
  client : s.clients[c]? = some cl
  phase : cl.phase = .awaiting op
  going : cl.stopped = false
  serving : s.control.isServicing = true

/-- The state s with client c, being cl, having read the packet p, and the turns to come. -/
def State.waited (s : State) (c : Nat) (cl : Client) (p : Packet) (rest : List Turn) : State :=
  (s.withTurns rest).setClient c { cl with cbuf := p }

theorem waited_self {s : State} {c : Nat} {cl : Client} (hc : s.clients[c]? = some cl) :
    s.waited c cl cl.cbuf s.turns = s := setClient_self (s := s.withTurns s.turns) hc

theorem waited_waited (s : State) (c : Nat) (cl : Client) (p q : Packet) (rest rest' : List Turn) :
    (s.waited c cl p rest).waited c { cl with cbuf := p } q rest' = s.waited c cl q rest' := by
  simp [State.waited, State.withTurns, State.setClient, List.set_set]

/-- The turns of a client that polls n times before the Dispatcher commits, and once after. -/
def pollsThenCommit (c n : Nat) : List Turn := List.replicate n (.poll c) ++ [.dispatcher, .poll c]

section
variable {s : State} {c : Nat} {cl : Client} {op : PublicOp} (h : Waiting s c cl op)
include h

theorem Waiting.not_idle : s.control ≠ .idle := fun hidle => by
  have hserving := h.serving
  rw [hidle] at hserving
  cases hserving

theorem Waiting.running : s.shutdown = false :=
  Bool.eq_false_iff.mpr fun hdown => h.not_idle ((ownerInv_of_inv h.inv).quiet hdown).1

theorem Waiting.clientInv : s.owner = some c ∧ (s.control.isServicing = true → s.buf = op.packet s.params.codes) :=
  (ownerInv_of_inv h.inv).inStep c cl h.client op h.phase h.going

theorem Waiting.owner : s.owner = some c := h.clientInv.1

theorem Waiting.buf : s.buf = op.packet s.params.codes := h.clientInv.2 h.serving

/-- Byte 0 of the buffer is still the command's code. -/
theorem Waiting.not_ready : s.buf.b0 ≠ 0xFF := by
  rw [h.buf]
  exact code_ne_sentinel (codes_wellFormed (wellFormed_of_inv h.inv)) op.request

theorem Waiting.not_final : isFinal s = false :=
  Bool.eq_false_iff.mpr fun hfinal => h.not_idle (isFinal_iff.mp hfinal).2.1

/-- A poll finds no sentinel, so it only copies the buffer. -/
theorem Waiting.step_poll {rest : List Turn} (ht : s.listedTurns = .poll c :: rest) :
    step s = .next (s.waited c cl s.buf rest) := by
  have hstep : step s = .next ((s.withTurns rest).pollClient c cl) :=
    (step_listedTurns (conditionsHold_of_inv h.inv) ht).trans (withClient_of_client h.client _)
  have howner : s.ownerAfterRead c = s.owner := ownerAfterRead_keeps fun hend => h.not_idle hend.1
  have hread : Client.afterRead { cl with cbuf := s.buf } op = { cl with cbuf := s.buf } :=
    if_neg (mt responseReady_iff.mp h.not_ready)
  rw [hstep, pollClient_reads (s := s.withTurns rest) h.client h.phase h.going, ownerAfterRead_withTurns,
    howner]
  exact congrArg (fun cl' => Host.Outcome.next ((s.withTurns rest).setClient c cl')) hread

theorem Waiting.polled {rest : List Turn} (ht : s.listedTurns = .poll c :: rest) :
    Waiting (s.waited c cl s.buf rest) c { cl with cbuf := s.buf } op where
  inv := invariantIsKeptByEveryStep s _ h.inv (h.step_poll ht)
  client := List.getElem?_set_self (List.getElem?_eq_some_iff.mp h.client).1
  phase := h.phase
  going := h.going
  serving := h.serving

/-- As long as the turns listed are polls of the client that waits, it waits; `rest k` are the turns to come after k of
them. -/
theorem Waiting.run_polls {rest : Nat → List Turn} (hstart : s.turns = rest 0) (n : Nat)
    (hlisted : ∀ k < n, (s.withTurns (rest k)).listedTurns = .poll c :: rest (k + 1)) (m : Nat) :
    ∃ p, Host.Core.run core (n + m) s = Host.Core.run core m (s.waited c cl p (rest n)) ∧
      Waiting (s.waited c cl p (rest n)) c { cl with cbuf := p } op := by
  induction n generalizing m with
  | zero =>
    refine ⟨cl.cbuf, ?_⟩
    rw [← hstart, waited_self h.client, Nat.zero_add]
    exact ⟨rfl, h⟩
  | succ n ih =>
    obtain ⟨p, hrun, hwaiting⟩ := ih (fun k hk => hlisted k (Nat.lt_succ_of_lt hk)) (m + 1)
    have ht : (s.waited c cl p (rest n)).listedTurns = .poll c :: rest (n + 1) := hlisted n (Nat.lt_succ_self n)
    have hstep := hwaiting.step_poll ht
    have hpolled := hwaiting.polled ht
    rw [waited_waited] at hstep hpolled
    refine ⟨_, ?_, hpolled⟩
    rw [Nat.add_assoc, Nat.add_comm 1 m, hrun, run_of_step hstep]

/-- A schedule of that client's polls alone, over and over, never ends the wait (93 U8). -/
theorem Waiting.run_hangs (hturns : s.turns = []) (hagain : s.again = [.poll c]) (n : Nat) :
    ∃ p, Host.Core.run core n s = .next (s.waited c cl p []) ∧
      Waiting (s.waited c cl p []) c { cl with cbuf := p } op :=
  h.run_polls (rest := fun _ => []) hturns n (fun _ _ => (listedTurns_again rfl).trans hagain) 0

/-- The polls before the Dispatcher's turn only wait. -/
theorem Waiting.run_early_polls (n : Nat) (hturns : s.turns = pollsThenCommit c n) :
    ∃ p, Host.Core.run core (n + 2) s = Host.Core.run core 2 (s.waited c cl p [.dispatcher, .poll c]) ∧
      Waiting (s.waited c cl p [.dispatcher, .poll c]) c { cl with cbuf := p } op := by
  have hlisted : ∀ k < n, (s.withTurns (pollsThenCommit c (n - k))).listedTurns =
      .poll c :: pollsThenCommit c (n - (k + 1)) := fun k hk => by
    rw [show n - k = n - (k + 1) + 1 by omega]
    rfl
  have hrun := h.run_polls (rest := fun k => pollsThenCommit c (n - k)) hturns n hlisted 2
  rwa [Nat.sub_self] at hrun

end

/-- Settles O55: IDLE, the buffer shows the sentinel; servicing, it still shows the command's code. -/
theorem pollEndsExactlyAtTheSentinel : Obligations.PollEndsExactlyAtTheSentinel := by
  intro s c cl op rest hinv hc hphase hgoing hturns
  have hlen : c < s.clients.length := (List.getElem?_eq_some_iff.mp hc).1
  cases hcontrol : s.control with
  | idle =>
    have hown := ownerInv_of_inv hinv
    have howner : s.owner = some c := (hown.inStep c cl hc op hphase hgoing).1
    have hready : s.buf.b0 = 0xFF := hown.answered hcontrol (by simp [howner])
    exact ⟨_, _, step_poll_returns (wellFormed_of_inv hinv) hc hphase hgoing hcontrol howner hready hturns,
      List.getElem?_set_self hlen, rfl, rfl, hcontrol, rfl, fun _ => ⟨rfl, rfl, rfl⟩, nofun⟩
  | servicing pos =>
    have h : Waiting s c cl op := ⟨hinv, hc, hphase, hgoing, by rw [hcontrol]; rfl⟩
    have ht := listedTurns_turns hturns
    exact ⟨_, _, h.step_poll ht, (h.polled ht).client, rfl, rfl, hcontrol, rfl, nofun,
      fun _ => ⟨h.not_ready, hphase, h.owner⟩⟩

/-- Settles O60: the hang is nothing but polls; after n of them the end is the Dispatcher's turn and one poll more. -/
theorem theWaitLastsUntilTheDispatcherCommits : Obligations.TheWaitLastsUntilTheDispatcherCommits := by
  refine ⟨fun s c cl op hinv hc hphase hgoing hserving hturns hagain n => ?hang,
    fun s c cl op n hinv hc hphase hgoing hstart hturns => ?ends⟩
  case hang =>
    have h : Waiting s c cl op := ⟨hinv, hc, hphase, hgoing, hserving⟩
    obtain ⟨p, hrun, hwaiting⟩ := h.run_hangs hturns hagain n
    exact ⟨_, _, hrun, hwaiting.client, hwaiting.phase, rfl, rfl, rfl, hwaiting.not_final⟩
  case ends =>
    have h : Waiting s c cl op := ⟨hinv, hc, hphase, hgoing, by rw [hstart]; rfl⟩
    have hw := wellFormed_of_inv hinv
    obtain ⟨p, hrun, hwaiting⟩ := h.run_early_polls n hturns
    have hserve := step_dispatcher_services (s := s.waited c cl p [.dispatcher, .poll c]) hw hwaiting.client
      hwaiting.running hstart hwaiting.buf rfl
    have hpoll := step_poll_returns (s := (s.waited c cl p [.poll c]).serviced op.request) hw hwaiting.client hphase
      hgoing rfl h.owner rfl rfl
    have hlen : c < (s.waited c cl p []).clients.length := (List.getElem?_eq_some_iff.mp hwaiting.client).1
    exact ⟨_, _, _, exec_eq_serviced _ _, hrun.trans ((run_of_step hserve 1).trans (run_of_step hpoll 0)), rfl, rfl, rfl,
      rfl, rfl, List.getElem?_set_self hlen, rfl, rfl⟩

end Sys2Proof.Machine
end

section
/-! No rule looks at the wait policy (43_framer.md R192, 92 D21): every operation commutes with replacing it, and so does
every turn and the step. -/

namespace Sys2Proof.Machine

/-! The Dispatcher -/

/-- What a run does depends on the word map and the peripheral model only. -/
theorem Accesses.run_waitPolicy {α : Type} (w : WaitPolicy) (ps : Params) (p : Accesses α) (q : Port) :
    p.run { ps with waitPolicy := w } q = p.run ps q := by
  induction p generalizing q with
  | done a => rfl
  | read i next ih => exact ih _ _
  | write i v next ih => exact ih _

theorem serviceWhole_waitPolicy (w : WaitPolicy) (s : State) :
    serviceWhole (withWaitPolicy w s) = outcomeWithWaitPolicy w (serviceWhole s) := by
  have hrun (p : Accesses (Option Word)) :
      p.run (withWaitPolicy w s).params (withWaitPolicy w s).port = p.run s.params s.port :=
    Accesses.run_waitPolicy w s.params p s.port
  rw [serviceWhole_eq, serviceWhole_eq, State.service_next, State.service_next, hrun]
  rfl

theorem serviceNext_waitPolicy (w : WaitPolicy) (s : State) (pos : Position) :
    serviceNext pos (withWaitPolicy w s) = withWaitPolicy w (serviceNext pos s) := by
  have hcommand : requestCommand (withWaitPolicy w s).params.words (withWaitPolicy w s).request =
    requestCommand s.params.words s.request := rfl
  unfold serviceNext State.serviceAccess
  rw [hcommand]
  cases (requestCommand s.params.words s.request).rest pos <;> rfl

/-- The Dispatcher rests or is servicing. -/
theorem atRest_or_servicing (s : State) :
    (s.shutdown = true ∨ s.control = .idle) ∨ s.shutdown = false ∧ ∃ pos, s.control = .servicing pos := by
  cases s.shutdown
  · cases s.control with
    | idle => exact .inl (.inr rfl)
    | servicing pos => exact .inr ⟨rfl, pos, rfl⟩
  · exact .inl (.inl rfl)

theorem dispatcherTurn_servicing {s : State} {pos : Position} (hrunning : s.shutdown = false)
    (hc : s.control = .servicing pos) :
    dispatcherTurn s = if pos = Position.start then serviceWhole s else .next (serviceNext pos s) := by
  unfold dispatcherTurn
  rw [if_neg (by simp [hrunning]), hc]

theorem dispatcherTurn_waitPolicy (w : WaitPolicy) (s : State) :
    dispatcherTurn (withWaitPolicy w s) = outcomeWithWaitPolicy w (dispatcherTurn s) := by
  rcases atRest_or_servicing s with hrest | ⟨hrunning, pos, hc⟩
  · rw [dispatcherTurn_atRest hrest]
    exact dispatcherTurn_atRest hrest
  · rw [dispatcherTurn_servicing hrunning hc, dispatcherTurn_servicing (s := withWaitPolicy w s) hrunning hc,
      serviceWhole_waitPolicy, serviceNext_waitPolicy, apply_ite (outcomeWithWaitPolicy w)]
    rfl

theorem dispatcherAccessTurn_waitPolicy (w : WaitPolicy) (s : State) :
    dispatcherAccessTurn (withWaitPolicy w s) = withWaitPolicy w (dispatcherAccessTurn s) := by
  rcases atRest_or_servicing s with hrest | ⟨hrunning, pos, hc⟩
  · rw [dispatcherAccessTurn_atRest hrest]
    exact dispatcherAccessTurn_atRest hrest
  · rw [dispatcherAccessTurn_servicing hrunning hc, ← serviceNext_waitPolicy]
    exact dispatcherAccessTurn_servicing (s := withWaitPolicy w s) hrunning hc

/-! The clients -/

theorem requestWrite_waitPolicy (w : WaitPolicy) (s : State) (c : Nat) (p : Packet) :
    (withWaitPolicy w s).requestWrite c p = withWaitPolicy w (s.requestWrite c p) := by
  rcases requestWrite_cases s c p with ⟨k, hfault, e⟩ | ⟨hfault, e⟩ <;> rw [e]
  · exact requestWrite_raises p hfault
  · exact requestWrite_loads p hfault

theorem initClient_waitPolicy (w : WaitPolicy) (s : State) (c : Nat) (cl : Client) :
    (withWaitPolicy w s).initClient c cl = withWaitPolicy w (s.initClient c cl) := by
  unfold State.initClient
  rw [apply_ite (withWaitPolicy w)]
  rfl

theorem callOp_waitPolicy (w : WaitPolicy) (s : State) (c : Nat) (cl : Client) (op : PublicOp) :
    (withWaitPolicy w s).callOp c cl op = withWaitPolicy w (s.callOp c cl op) := by
  unfold State.callOp
  simp only [apply_ite (withWaitPolicy w), ← requestWrite_waitPolicy]
  rfl

theorem pollClient_rests {s : State} {c : Nat} {cl : Client} (hc : s.clients[c]? = some cl)
    (h : cl.busy = false ∨ cl.stopped = true) : s.pollClient c cl = s := by
  rcases pollClient_cases hc with ⟨-, e⟩ | ⟨op, hphase, hgoing, -⟩
  · exact e
  · simp [Client.busy, hphase, hgoing] at h

theorem pollClient_waitPolicy (w : WaitPolicy) {s : State} {c : Nat} {cl : Client} (hc : s.clients[c]? = some cl) :
    (withWaitPolicy w s).pollClient c cl = withWaitPolicy w (s.pollClient c cl) := by
  rcases pollClient_cases hc with ⟨hno, e⟩ | ⟨op, hphase, hgoing, e⟩ <;> rw [e]
  · exact pollClient_rests hc hno
  · exact pollClient_reads (s := withWaitPolicy w s) hc hphase hgoing

theorem rawWriteTurn_waitPolicy (w : WaitPolicy) (c : Nat) (bytes : List Byte) (s : State) :
    rawWriteTurn c bytes (withWaitPolicy w s) = outcomeWithWaitPolicy w (rawWriteTurn c bytes s) := by
  unfold rawWriteTurn
  split
  · rw [requestWrite_waitPolicy]
    rfl
  · rfl

theorem responseRead_waitPolicy (w : WaitPolicy) {s : State} {c : Nat} {cl : Client} (hc : s.clients[c]? = some cl) :
    (withWaitPolicy w s).responseRead c = withWaitPolicy w (s.responseRead c) := by
  rw [responseRead_client hc]
  exact responseRead_client (s := withWaitPolicy w s) hc

theorem rawReadTurn_waitPolicy (w : WaitPolicy) {s : State} {c : Nat} {cl : Client} (hc : s.clients[c]? = some cl)
    (n : Nat) : rawReadTurn c n (withWaitPolicy w s) = outcomeWithWaitPolicy w (rawReadTurn c n s) := by
  unfold rawReadTurn
  rw [responseRead_waitPolicy w hc, apply_ite (outcomeWithWaitPolicy w)]
  rfl

/-- A turn of a client that is there commutes if what the client does commutes. -/
theorem withClient_waitPolicy {w : WaitPolicy} {s : State} {c : Nat}
    {f f' : Client → Host.Outcome State Fault Refusal}
    (hf : ∀ cl, s.clients[c]? = some cl → f' cl = outcomeWithWaitPolicy w (f cl)) :
    withClient c (withWaitPolicy w s) f' = outcomeWithWaitPolicy w (withClient c s f) := by
  unfold withClient withWaitPolicy
  cases hc : s.clients[c]? with
  | some cl => exact hf cl hc
  | none => rfl

theorem withFreeClient_waitPolicy {w : WaitPolicy} {s : State} {c : Nat}
    {f f' : Client → Host.Outcome State Fault Refusal}
    (hf : ∀ cl, s.clients[c]? = some cl → f' cl = outcomeWithWaitPolicy w (f cl)) :
    withFreeClient c (withWaitPolicy w s) f' = outcomeWithWaitPolicy w (withFreeClient c s f) :=
  withClient_waitPolicy fun cl hc => by
    rw [apply_ite (outcomeWithWaitPolicy w), hf cl hc]
    rfl

/-! The turns and the schedule -/

theorem shutdownTurn_waitPolicy (w : WaitPolicy) (s : State) :
    shutdownTurn (withWaitPolicy w s) = outcomeWithWaitPolicy w (shutdownTurn s) := by
  unfold shutdownTurn
  rw [apply_ite (outcomeWithWaitPolicy w)]
  rfl

theorem harnessTurn_waitPolicy (w : WaitPolicy) (bank : Bank) (mask : Word) (s : State) :
    harnessTurn bank mask (withWaitPolicy w s) = outcomeWithWaitPolicy w (harnessTurn bank mask s) := by
  unfold harnessTurn
  rw [apply_ite (outcomeWithWaitPolicy w)]
  rfl

theorem takeTurn_waitPolicy (w : WaitPolicy) (turn : Turn) (s : State) :
    takeTurn turn (withWaitPolicy w s) = outcomeWithWaitPolicy w (takeTurn turn s) := by
  cases turn with
  | dispatcher => exact dispatcherTurn_waitPolicy w s
  | dispatcherAccess => exact congrArg Host.Outcome.next (dispatcherAccessTurn_waitPolicy w s)
  | init c => exact withFreeClient_waitPolicy fun cl _ => congrArg Host.Outcome.next (initClient_waitPolicy w s c cl)
  | call c op =>
    exact withFreeClient_waitPolicy fun cl _ => congrArg Host.Outcome.next (callOp_waitPolicy w s c cl op)
  | poll c => exact withClient_waitPolicy fun cl hc => congrArg Host.Outcome.next (pollClient_waitPolicy w hc)
  | rawWrite c bytes => exact withFreeClient_waitPolicy fun _ _ => rawWriteTurn_waitPolicy w c bytes s
  | rawRead c n => exact withFreeClient_waitPolicy fun _ hc => rawReadTurn_waitPolicy w hc n
  | shutdown => exact shutdownTurn_waitPolicy w s
  | harnessEvent bank mask => exact harnessTurn_waitPolicy w bank mask s

theorem nextTurn_waitPolicy (w : WaitPolicy) (s : State) :
    (withWaitPolicy w s).nextTurn = (s.nextTurn.1, withWaitPolicy w s.nextTurn.2) := by
  have hlisted : (withWaitPolicy w s).listedTurns = s.listedTurns := rfl
  unfold State.nextTurn
  rw [hlisted]
  cases s.listedTurns <;> rfl

theorem runNextTurn_waitPolicy (w : WaitPolicy) (s : State) :
    runNextTurn (withWaitPolicy w s) = outcomeWithWaitPolicy w (runNextTurn s) := by
  unfold runNextTurn
  rw [nextTurn_waitPolicy]
  obtain ⟨_ | turn, t⟩ := s.nextTurn
  · rfl
  · exact takeTurn_waitPolicy w turn t

/-- Settles O48: the conditions on the parameters do not name the wait policy either. -/
theorem waitPolicyNeverMatters : Obligations.WaitPolicyNeverMatters := by
  intro s w
  unfold step
  rw [runNextTurn_waitPolicy, apply_ite (outcomeWithWaitPolicy w)]
  rfl

end Sys2Proof.Machine
end

section
/-! What the Dispatcher's service of the buffer answers (42_commands.md R151, R172, 60_exceptions.md R232): every request
ends with a commit, a boolean getter's result is 0 or 1 (92 D5), and GET_MODE's is three bits. -/

namespace Sys2Proof.Machine

theorem trunc8_boolWord_le (b : Bool) : (trunc8 (boolWord b)).toNat ≤ 1 := by cases b <;> decide

theorem trunc8_wordField_le (x : Word) (off : Nat) : (trunc8 (wordField x off)).toNat ≤ 7 := by
  have hlow : (trunc8 (wordField x off)).toNat ≤ (wordField x off).toNat := by
    rw [trunc8, BitVec.toNat_setWidth]
    exact Nat.mod_le _ _
  rw [wordField_toNat] at hlow
  omega

/-- Every getter but GET_MODE has a boolean result. -/
theorem run_boolGetter_fst {i : Instr} (hget : i.isGetter = true) (hmode : ∀ p v, i ≠ .getMode p v) (ps : Params)
    (q : Port) : ∃ b, ((commandOf ps.words i).run ps q).1 = some (boolWord b) := by
  cases i with
  | getMode pin value => exact absurd rfl (hmode pin value)
  | getLevel | getEvent | getRedge | getFedge | getAredge | getAfedge | getHdetect | getLdetect =>
    exact ⟨_, congrArg Prod.fst (run_boolResult ps _ q)⟩
  | resetPin | setLevel | setMode | setPull | setRedge | setFedge | setAredge | setAfedge | setHdetect | setLdetect =>
    cases hget

theorem answered_boolGetter {i : Instr} (hget : i.isGetter = true) (hmode : ∀ p v, i ≠ .getMode p v) (s : State) :
    ∃ b2, Answered s (s.serviced i) b2 ∧ b2.toNat ≤ 1 := by
  obtain ⟨b, hresult⟩ := run_boolGetter_fst hget hmode s.params s.port
  exact ⟨_, answered_getter hresult, trunc8_boolWord_le b⟩

/-- Whatever the parameters and the pin, GET_MODE answers a mode. -/
theorem answered_getMode_le (s : State) (pin value : Byte) :
    ∃ b2, Answered s (s.serviced (.getMode pin value)) b2 ∧ b2.toNat ≤ 7 := by
  by_cases hp : pin.toNat ≤ 53
  · have hresult := congrArg Prod.fst (run_wordResult s.params (readField s.params.words pin) s.port)
    rw [run_readField s.params s.port hp] at hresult
    exact ⟨_, answered_getter hresult, trunc8_wordField_le _ _⟩
  · exact ⟨0, (getter_invalid (i := .getMode pin value) rfl s (Nat.not_le.mp hp)).1, by decide⟩

theorem answered_getter_le {i : Instr} (hget : i.isGetter = true) (s : State) :
    ∃ b2, Answered s (s.serviced i) b2 ∧ b2.toNat ≤ 7 ∧ ((∀ p v, i ≠ .getMode p v) → b2.toNat ≤ 1) := by
  by_cases hmode : ∃ p v, i = .getMode p v
  · obtain ⟨p, v, rfl⟩ := hmode
    obtain ⟨b2, hanswered, hle⟩ := answered_getMode_le s p v
    exact ⟨b2, hanswered, hle, fun hother => absurd rfl (hother p v)⟩
  · obtain ⟨b2, hanswered, hle⟩ := answered_boolGetter hget (fun p v h => hmode ⟨p, v, h⟩) s
    exact ⟨b2, hanswered, by omega, fun _ => hle⟩

/-- Whatever the buffer holds, servicing it answers. -/
theorem serviceWhole_answers (s : State) : ∃ t b2, serviceWhole s = .next t ∧ Answered s t b2 := by
  rw [serviceWhole_eq]
  cases hresult : ((requestCommand s.params.words s.request).run s.params s.port).1 with
  | none => exact ⟨_, _, State.service_next s _, by rw [hresult]; exact answered_void s _⟩
  | some r => exact ⟨_, _, State.service_next s _, by rw [hresult]; exact answered_result s _ r⟩

/-- Settles O26: a setter's commit keeps byte 2, and a getter's puts its bounded result there. -/
theorem everyCommandCommitsItsResponse : Obligations.EveryCommandCommitsItsResponse := by
  intro s
  refine ⟨serviceWhole_answers s, fun i => ?_, fun c p v hcode => ?_⟩
  · cases hget : i.isGetter with
    | false => exact ⟨_, _, exec_eq_serviced i s, answered_setter hget s, fun _ => rfl, nofun⟩
    | true =>
      obtain ⟨b2, hanswered, hbounds⟩ := answered_getter_le hget s
      exact ⟨_, b2, exec_eq_serviced i s, hanswered, nofun, fun _ => hbounds⟩
  · obtain ⟨t, hservice, -, hanswered⟩ := (invalidPinIsAnsweredWithoutAccess s).2 c p v hcode
    exact ⟨t, hservice, hanswered⟩

end Sys2Proof.Machine
end

section
/-! Bits of a word that belong to no pin (10_state.md R31, 70_reset_and_hazards.md R275): an assignment reaches the pin's
bit alone and a field update the pin's field alone, and neither lies among the unused bits of the pin's word. -/

namespace Sys2Proof.Machine

theorem bitWord_getLsbD_other {b j : Nat} (h : j ≠ b) : (bitWord b).getLsbD j = false := by
  by_cases hj : j < 32
  · rw [bitWord_getLsbD b j hj, decide_eq_false h]
  · exact BitVec.getLsbD_of_ge _ _ (Nat.not_lt.mp hj)

theorem assignBit_getLsbD_other (x : Word) {b j : Nat} (en : Bool) (h : j ≠ b) :
    (assignBit x b en).getLsbD j = x.getLsbD j := by
  by_cases hj : j < 32
  · rw [assignBit_getLsbD x b en j hj, if_neg h]
  · rw [BitVec.getLsbD_of_ge _ _ (Nat.not_lt.mp hj), BitVec.getLsbD_of_ge _ _ (Nat.not_lt.mp hj)]

/-- The 22 pins of bank 1 have the bits 0..21. -/
theorem pinBit_lt_of_bank1 {pin : Byte} (hlow : 32 ≤ pin.toNat) (hp : pin.toNat ≤ 53) : pinBit pin < 22 := by
  rw [pinBit_eq]
  omega

/-- The four pins of the last bucket have the fields in bits 0..11. -/
theorem pinFieldOffset_le_of_lastBucket {pin : Byte} (hlow : 50 ≤ pin.toNat) (hp : pin.toNat ≤ 53) :
    pinFieldOffset pin ≤ 9 := by
  unfold pinFieldOffset
  omega

/-- No pin's field reaches an unused bit of its function-select word. -/
theorem pinField_below_unused {pin : Byte} {j : Nat} (hp : pin.toNat ≤ 53) (hj : 30 ≤ j ∨ 50 ≤ pin.toNat ∧ 12 ≤ j) :
    pinFieldOffset pin + 3 ≤ j := by
  rcases hj with hj | ⟨hlow, hj⟩
  · have := pinFieldOffset_le pin
    omega
  · have := pinFieldOffset_le_of_lastBucket hlow hp
    omega

/-- Settles O13: an unused bit is not the pin's bit and not in the pin's field. -/
theorem unusedBitsAreSpared : Obligations.UnusedBitsAreSpared := by
  refine ⟨fun pin hlow hp j hj => ?_, fun pin value x hp hv j hj => ?_⟩
  · have hother : j ≠ pinBit pin := ((pinBit_lt_of_bank1 hlow hp).trans_le hj).ne'
    exact ⟨bitWord_getLsbD_other hother, fun x en => assignBit_getLsbD_other x en hother⟩
  · exact updateWord_testBit_outside x hv fun hfield => hfield.2.not_ge (pinField_below_unused hp hj)

end Sys2Proof.Machine
end

section
/-! The two ends of the layer's life (70_reset_and_hazards.md R260, R261, R263, R264): what start-up leaves, and when the
shutdown turn is a move. -/

namespace Sys2Proof.Machine

theorem reset_conditionsHold : State.reset.params.conditionsHold State.reset.clients.length = true := by decide

theorem reset_inBank : State.reset.port.InBank State.reset.params := ⟨reset_memory_wf, nofun⟩

theorem client_of_reset {cl : Client} (h : cl ∈ State.reset.clients) : cl = Client.reset := List.mem_singleton.mp h

/-- Between transactions, with no client inside one, the invariant asks nothing of the owner. -/
theorem ownerInv_of_noTxn {s : State} (hidle : s.control = .idle) (howner : s.owner = none)
    (hclients : ∀ cl ∈ s.clients, cl.phase = .noTxn) : OwnerInv s where
  owned hserving := by rw [hidle] at hserving; cases hserving
  ownerIsClient c hc := by rw [howner] at hc; cases hc
  quiet _ := ⟨hidle, howner⟩
  answered _ hsome := absurd howner hsome
  inStep _ cl hc := clientInv_of_not_busy (busy_eq_false_iff.mpr (hclients cl (List.mem_of_getElem? hc)))

/-- Settles O40: start-up writes these values, and its one client is a client at its start. -/
theorem startUpState : Obligations.StartUpState := by
  refine ⟨rfl, rfl, rfl, rfl, rfl, fun cl hcl => ?_⟩
  rw [client_of_reset hcl]
  exact ⟨rfl, rfl⟩

/-- Settles O39: the default parameters meet their conditions, the bank lists no word, and O40 says the rest. -/
theorem startUpMeetsTheInvariant : Obligations.StartUpMeetsTheInvariant := by
  obtain ⟨hidle, howner, -, -, -, hclients⟩ := startUpState
  exact inv_iff.mpr ⟨reset_conditionsHold, reset_inBank, ownerInv_of_noTxn hidle howner fun cl hcl => (hclients cl hcl).2⟩

theorem shutdownTurn_shuts {s : State} (h : s.control = .idle ∧ s.owner = none) :
    shutdownTurn s = .next { s with shutdown := true } := if_pos h

theorem shutdownTurn_refuses {s : State} (h : ¬ (s.control = .idle ∧ s.owner = none)) :
    shutdownTurn s = .refused .shutdownWhileOutstanding := if_neg h

/-- Settles O58: the step is the shutdown turn, and the two clauses are its two cases. -/
theorem shutdownNeedsNothingOutstanding : Obligations.ShutdownNeedsNothingOutstanding := by
  intro s rest hcond hturns
  have hstep : step s = shutdownTurn { s with turns := rest } := step_listed hcond hturns
  exact ⟨fun hquiet => hstep.trans (shutdownTurn_shuts hquiet),
    fun houtstanding => hstep.trans (shutdownTurn_refuses houtstanding)⟩

end Sys2Proof.Machine
end
